-- ==== Sys2Proof/Word.lean ====
section
/-! DEFINITION. The widths the spec names: words, bytes, colours and command words (00_scope.md R12, R17; 30_encoding.md R100). -/

namespace Sys2Proof

/-- A word of the buffer, an operand `A`, a result: 32 bits (R17). -/
abbrev Word := BitVec 32

/-- One channel, one byte of the buffer: 8 bits (R17). -/
abbrev Byte := BitVec 8

/-- A colour on the command port, `G ++ R ++ B`: 24 bits (R43). -/
abbrev Colour := BitVec 24

/-- A command word `OP[63:56] B[55:32] A[31:0]` (R100). -/
abbrev CommandWord := BitVec 64

end Sys2Proof
end

