-- ==== Sys2Proof/Config.lean ====
section
/-! DEFINITION. What an engine is built with (00_scope.md R9), one named configuration, and the free values. -/

namespace Sys2Proof

/-- Which byte of a 32-bit word holds the lower-addressed buffer byte (20_memory.md R63). -/
inductive Lane where
  /-- Byte `4j` in bits 31..24. -/
  | be
  /-- Byte `4j` in bits 7..0. -/
  | le
  deriving DecidableEq, Repr

/-- The parameters of R9 that are not derived from others; the control registers CR0 .. CR7 of R40 are
this record and what Machine/Params.lean derives from it. -/
structure Config where
  /-- `N`, the pixel count (CR0). -/
  pixels : Nat
  /-- `CW`, the width of the cycle counter in bits. -/
  cw : Nat
  /-- `PW`, the width of the pin mask and output latch in bits. -/
  pw : Nat
  /-- `PIN_MASK` (CR2). -/
  pinMask : Word
  /-- `NOM0H`, nominal high time of a 0 bit, in cycles. -/
  nom0H : Nat
  /-- `NOM0L`, nominal low time of a 0 bit. -/
  nom0L : Nat
  /-- `NOM1H`, nominal high time of a 1 bit. -/
  nom1H : Nat
  /-- `NOM1L`, nominal low time of a 1 bit. -/
  nom1L : Nat
  /-- `CORR`, the correction constant. -/
  corr : Nat
  /-- `RESET_MS`, the reset/latch time in milliseconds (CR7). DESIGN CHOICE (log entry 22): any number of at least
  1, as R9 and R268 say, where R40 gives CR7 32 bits. -/
  resetMs : Nat
  /-- `CLK_HZ`, cycles per second. DESIGN CHOICE (log entry 25): a natural number, where R9 says only "positive". -/
  clkHz : Nat
  /-- `LANE`. -/
  lane : Lane
  /-- `WAIT_OVH`, how much longer than `n` a masked wait of `n` may take, in cycles. -/
  waitOvh : Nat
  /-- `PIN_OVH`, the longest one pin write may take, in cycles. -/
  pinOvh : Nat
  deriving DecidableEq, Repr

/-- The configuration `State.reset` is built with. DESIGN CHOICE, unsafe (log entry 1): R9 leaves all but
`CW`, `PW` and `LANE` open. The mask is R140's example; 40 and 22 are the numbers program P5 calls
arbitrary. No statement rests on it. -/
def Config.standard : Config :=
  { pixels := 4, cw := 32, pw := 32, pinMask := 0x20#32,
    nom0H := 20, nom0L := 42, nom1H := 40, nom1L := 22, corr := 0,
    resetMs := 1, clkHz := 1000, lane := .be, waitOvh := 16, pinOvh := 4 }

/-- Free value: how many cycles pass where the spec gives no number (R123, R125, R166; U12, U13), one for
each draw (log entry 5). -/
opaque Config.freeCycles : Nat → Nat

/-- Free value: how many of the environment's next steps come while a command that leaves `LOCK = 0` waits
(R75, R166: "any number"), one for each draw (log entry 4). -/
opaque Config.freeSteps : Nat → Nat

/-- Free value: the number of cycles a pin write takes, "the same number on every call" (R146), before
`PIN_OVH` bounds it (log entry 7). -/
opaque Config.pinCycles : Nat

/-- Free value: what `RES` holds after a command that returns no value (R39), one for each draw (log
entry 8). -/
opaque Config.freeResult : Nat → Word

end Sys2Proof
end

