-- ==== Sys2Proof/Syntax.lean ====
section
/-! DEFINITION. The sixteen commands of 30_encoding.md R103, one constructor per row of spec/opcode_table.json. -/

namespace Sys2Proof

/-- A command with its operands: `A` is 32 bits, `B` a 24-bit colour (R100, R101). -/
inductive Instr where
  /-- `NOW` (R120). -/
  | now
  /-- `WAITCYCLES n` (R122). -/
  | waitCycles (n : Word)
  /-- `MASK` (R140). -/
  | mask
  /-- `ASSERT m` (R144). -/
  | assert (m : Word)
  /-- `DEASSERT m` (R145). -/
  | deassert (m : Word)
  /-- `LOCK` (R160). -/
  | lock
  /-- `UNLOCK` (R165). -/
  | unlock
  /-- `DELAYMS d` (R167). -/
  | delayMs (d : Word)
  /-- `SIZE` (R180). -/
  | size
  /-- `PIXRD i` (R182). -/
  | pixRd (idx : Word)
  /-- `PIXWR i, colour` (R185). -/
  | pixWr (idx : Word) (colour : Colour)
  /-- `BUFRESET` (R188). -/
  | bufReset
  /-- `WORDRD j` (R191). -/
  | wordRd (idx : Word)
  /-- `SEND` (R200). -/
  | send
  /-- `SCALE colour, f` (R240). -/
  | scale (colour : Colour) (f : Word)
  /-- `OFFSET colour, d` (R245). -/
  | offset (colour : Colour) (d : Word)
  deriving DecidableEq, Repr

end Sys2Proof
end

