-- ==== Sys2Proof/WellFormed.lean ====
section
/-! DEFINITION. Which commands have operands the configured engine can take (30_encoding.md R101). -/

namespace Sys2Proof

/-- No bit of `x` at or above `width`: "bits 31..CW must be zero when CW < 32" (R101, R122, R144). -/
def operandFits (width : Nat) (x : Word) : Bool :=
  decide (x.toNat < 2 ^ width)

/-- A command is well formed for a configuration when its operand has no bit above the counter's or the
pin register's width; every other operand is legal in all its bits (R101). -/
def Instr.wellFormed (c : Config) : Instr → Bool
  | .now => true
  | .waitCycles n => operandFits c.cw n
  | .mask => true
  | .assert m => operandFits c.pw m
  | .deassert m => operandFits c.pw m
  | .lock => true
  | .unlock => true
  | .delayMs _ => true
  | .size => true
  | .pixRd _ => true
  | .pixWr _ _ => true
  | .bufReset => true
  | .wordRd _ => true
  | .send => true
  | .scale _ _ => true
  | .offset _ _ => true

end Sys2Proof
end

