-- ==== Sys2Proof/Decode.lean ====
section
/-! DEFINITION. The decoder and the encoder of the 64-bit command word (30_encoding.md R100, R103, R104, R110). -/

namespace Sys2Proof

/-- Why a word is no command (R104); both raise `Abort(IllegalCommand)` (R110). -/
inductive DecodeError where
  /-- `OP` is none of the sixteen values of R103. -/
  | unknownOpcode
  /-- A must-be-zero bit of the row's format is set. -/
  | mustBeZero
  deriving DecidableEq, Repr

/-- Field `OP`, bits 63..56 (R100). -/
def opField (w : CommandWord) : Byte := w.extractLsb' 56 8

/-- Field `B`, bits 55..32 (R100). -/
def bField (w : CommandWord) : Colour := w.extractLsb' 32 24

/-- Field `A`, bits 31..0 (R100). -/
def aField (w : CommandWord) : Word := w.extractLsb' 0 32

/-- Format `Z`: bits 55..0 must be zero (R100). -/
def formatZ (w : CommandWord) (i : Instr) : Except DecodeError Instr :=
  if bField w = 0#24 ∧ aField w = 0#32 then .ok i else .error .mustBeZero

/-- Format `A`: bits 55..32 must be zero (R100). -/
def formatA (w : CommandWord) (i : Word → Instr) : Except DecodeError Instr :=
  if bField w = 0#24 then .ok (i (aField w)) else .error .mustBeZero

/-- Format `AB`: no must-be-zero bits (R100). -/
def formatAB (w : CommandWord) (i : Word → Colour → Instr) : Except DecodeError Instr :=
  .ok (i (aField w) (bField w))

/-- The decoder of R104, total on 64-bit words. -/
def decode (w : CommandWord) : Except DecodeError Instr :=
  match (opField w).toNat with
  | 0x10 => formatZ w .now
  | 0x11 => formatA w .waitCycles
  | 0x20 => formatZ w .mask
  | 0x21 => formatA w .assert
  | 0x22 => formatA w .deassert
  | 0x30 => formatZ w .lock
  | 0x31 => formatZ w .unlock
  | 0x38 => formatA w .delayMs
  | 0x40 => formatZ w .size
  | 0x41 => formatA w .pixRd
  | 0x42 => formatAB w .pixWr
  | 0x43 => formatZ w .bufReset
  | 0x44 => formatA w .wordRd
  | 0x50 => formatZ w .send
  | 0x60 => formatAB w (fun a b => .scale b a)
  | 0x61 => formatAB w (fun a b => .offset b a)
  | _ => .error .unknownOpcode

/-- Column `OP` of R103. -/
def Instr.opcode : Instr → Byte
  | .now => 0x10
  | .waitCycles _ => 0x11
  | .mask => 0x20
  | .assert _ => 0x21
  | .deassert _ => 0x22
  | .lock => 0x30
  | .unlock => 0x31
  | .delayMs _ => 0x38
  | .size => 0x40
  | .pixRd _ => 0x41
  | .pixWr _ _ => 0x42
  | .bufReset => 0x43
  | .wordRd _ => 0x44
  | .send => 0x50
  | .scale _ _ => 0x60
  | .offset _ _ => 0x61

/-- What the word of a command holds in field `A`: the operand R101 names, else zero. -/
def Instr.operandA : Instr → Word
  | .now => 0
  | .waitCycles n => n
  | .mask => 0
  | .assert m => m
  | .deassert m => m
  | .lock => 0
  | .unlock => 0
  | .delayMs d => d
  | .size => 0
  | .pixRd idx => idx
  | .pixWr idx _ => idx
  | .bufReset => 0
  | .wordRd idx => idx
  | .send => 0
  | .scale _ f => f
  | .offset _ d => d

/-- What the word of a command holds in field `B`: the colour of the three `AB` rows, else zero (R101). -/
def Instr.operandB : Instr → Colour
  | .now => 0
  | .waitCycles _ => 0
  | .mask => 0
  | .assert _ => 0
  | .deassert _ => 0
  | .lock => 0
  | .unlock => 0
  | .delayMs _ => 0
  | .size => 0
  | .pixRd _ => 0
  | .pixWr _ colour => colour
  | .bufReset => 0
  | .wordRd _ => 0
  | .send => 0
  | .scale colour _ => colour
  | .offset colour _ => colour

/-- The command word of a command: `OP ++ B ++ A` (R100). -/
def encode (i : Instr) : CommandWord :=
  i.opcode ++ i.operandB ++ i.operandA

/-- Column `match` of R103. -/
def Instr.matchBits (i : Instr) : CommandWord :=
  i.opcode ++ 0#56

/-- Column `mask` of R103: all bits for format `Z`, bits 63..32 for `A`, bits 63..56 for `AB`. -/
def Instr.maskBits : Instr → CommandWord
  | .now => 0xFFFFFFFFFFFFFFFF
  | .waitCycles _ => 0xFFFFFFFF00000000
  | .mask => 0xFFFFFFFFFFFFFFFF
  | .assert _ => 0xFFFFFFFF00000000
  | .deassert _ => 0xFFFFFFFF00000000
  | .lock => 0xFFFFFFFFFFFFFFFF
  | .unlock => 0xFFFFFFFFFFFFFFFF
  | .delayMs _ => 0xFFFFFFFF00000000
  | .size => 0xFFFFFFFFFFFFFFFF
  | .pixRd _ => 0xFFFFFFFF00000000
  | .pixWr _ _ => 0xFF00000000000000
  | .bufReset => 0xFFFFFFFFFFFFFFFF
  | .wordRd _ => 0xFFFFFFFF00000000
  | .send => 0xFFFFFFFFFFFFFFFF
  | .scale _ _ => 0xFF00000000000000
  | .offset _ _ => 0xFF00000000000000

/-- The word an instruction of `nbits` bits `w` stands for. A command is one 64-bit word and the table
numbers its bits as R100 does, so the word is `w` itself; the bits above `nbits` are zero. -/
def tableWord (nbits w : Nat) : CommandWord :=
  BitVec.ofNat 64 (w % 2 ^ nbits)

/-- The decoder on a word numbered as spec/opcode_table.json numbers it; no command is longer than 64
bits (R100). -/
def decodeTableWord (nbits w : Nat) : Option Instr :=
  if nbits ≤ 64 then
    match decode (tableWord nbits w) with
    | .ok i => some i
    | .error _ => none
  else none

end Sys2Proof
end

