-- ==== Sys2Proof/Machine/State.lean ====
section
/-! DEFINITION. The state of the engine as 10_state.md R20 lists it, the bookkeeping R44 names, and the state after reset. -/

namespace Sys2Proof.Machine

/-- The serializer's phase (R33); values 6 and 7 of the 3-bit field are never taken. -/
inductive Phase where
  | idle
  | framing
  | bitHigh
  | bitLow
  | idleLow
  | resetDelay
  deriving DecidableEq, Repr

/-- The causes of an abort (60_exceptions.md R260). -/
inductive Cause where
  | indexOutOfRange
  | scaleOutOfRange
  | notConfigured
  | illegalCommand
  | lockMisuse
  | busy
  deriving DecidableEq, Repr

/-- The events of the observation trace (00_scope.md R15). -/
inductive Event where
  | high (m : Word)
  | low (m : Word)
  | wait (n : Nat)
  | lock
  | unlock
  | delayMs (d : Nat)
  | abort (c : Cause)
  deriving DecidableEq, Repr

/-- An event and the instant `t` (R14) at which it was emitted. -/
structure Stamp where
  time : Nat
  event : Event
  deriving DecidableEq, Repr

/-- `DREM` while a delay is in flight: the requested duration and the instant it began (R36). -/
structure Delay where
  ms : Nat
  began : Nat
  deriving DecidableEq, Repr

/-- How much of `WAIT_OVH` is left in the measurement of 40_cycle_timer.md R125 (the model's own
bookkeeping, log entry 6). -/
inductive Meter where
  /-- No measurement is under way. -/
  | off
  /-- The last command was a `NOW` under the lock; `room` cycles of overhead are left. -/
  | afterNow (room : Nat)
  /-- The last command was a `WAITCYCLES` under the lock; `room` cycles of overhead are left. -/
  | afterWait (room : Nat)
  deriving DecidableEq, Repr

/-- What the environment and the pin configurator can do (R16, R30, R75, R147, R276). -/
inductive EnvStep where
  /-- The pin configurator sets `CFG`. -/
  | configure (outputs : Bool)
  /-- Another agent writes `m` to `PIN_SET` (`high`) or `PIN_CLR`. -/
  | drive (high : Bool) (m : Word)
  /-- An interrupt or another task: it takes time and changes nothing the engine owns. -/
  | interrupt (source : Nat)
  deriving DecidableEq, Repr

/-- Who has the next step and what it does, in order (R16; log entries 3, 4 and 10). -/
inductive Input where
  /-- The issuer issues a command word, and the command is run whole, by the big-step code. -/
  | command (w : CommandWord)
  /-- The issuer issues a command word, and the command is run in small steps: this step is its first row, or all
  of it where it has no more (44_serializer.md R210, 40_cycle_timer.md R123, 42_critical_section_delay.md R166). -/
  | start (w : CommandWord)
  /-- The engine has the next step, before what comes next from the issuer or the environment: one row of the
  command in flight, if there is one. -/
  | engine
  /-- The environment has something to do: it does it if `LOCK = 0`, else it waits in `PEND`. -/
  | arise (e : EnvStep)
  /-- The environment does what stands `k`-th in `PEND`; no step while `LOCK = 1`. -/
  | serve (k : Nat)
  deriving DecidableEq, Repr

/-- The bit that comes with a completion (30_encoding.md R102). -/
inductive Status where
  | ok
  | aborted
  deriving DecidableEq, Repr

/-- What the issuer receives when a command completes: the status, and `RES` where the command returns a
value (R102, R39). -/
structure Completion where
  status : Status
  value : Option Word
  deriving DecidableEq, Repr

/-- The pixel buffer: its non-zero bytes, addresses rising (10_state.md R28). -/
abbrev Memory := List Host.Cell

/-- The state of one engine. The elements of R20 first, then the bookkeeping of R14, R15, R44, R102 and
R124, then the model's own three fields. `CYCLE`, `OUT`, `WSTART` and `WN` stand zero-extended in 32 bits (log entry 9). -/
@[ext]
structure State where
  /-- The build-time configuration, CR0 .. CR7 (R40); nothing writes it. -/
  conf : Config
  /-- `CYCLE` (R21). -/
  cycle : Word
  /-- `OUT` (R24). -/
  out : Word
  /-- `CFG` (R30). -/
  cfg : Bool
  /-- `BUF` (R28). -/
  buf : Memory
  /-- `LOCK` (R31). -/
  lock : Bool
  /-- `PEND` (R32), no request twice. -/
  pend : List EnvStep
  /-- `PHASE` (R33). -/
  phase : Phase
  /-- `WIDX` (R34). -/
  widx : Word
  /-- `BIDX` (R34). -/
  bidx : BitVec 2
  /-- `KIDX` (R34). -/
  kidx : BitVec 3
  /-- `SHIFT` (R35). -/
  shift : Word
  /-- `WACT` (R23). -/
  wact : Bool
  /-- `WSTART` (R23). -/
  wstart : Word
  /-- `WN` (R23). -/
  wn : Word
  /-- `DREM` (R36). -/
  drem : Option Delay
  /-- `FAULT` (R37): none is code 0. -/
  fault : Option Cause
  /-- `A` = `x[0]` (R38). -/
  a : Word
  /-- `B` = `x[1]` (R38). -/
  b : Colour
  /-- `RES` = `x[2]` (R38, R39). -/
  res : Word
  /-- `t_s`, the instant of the entry sample of the last wait (40_cycle_timer.md R124). -/
  waitBegan : Nat
  /-- `t`, cycles since reset (R14). -/
  time : Nat
  /-- The observation trace, oldest first (R15). -/
  trace : List Stamp
  /-- What the issuer has received, oldest first (R102). -/
  completions : List Completion
  /-- What reaches the machine next (R16). -/
  inputs : List Input
  /-- Index of the next free value. -/
  draws : Nat
  /-- The measurement of R125. -/
  meter : Meter
  deriving DecidableEq, Repr

/-- Why the machine itself stops. An abort of the engine is no such stop: it is a next state (R270). -/
inductive Fault where
  /-- Raised by the buffer operations for an address outside `0 .. 4W-1`, which R60 says does not exist.
  Safe: "no access outside `0 .. 4W-1` ever happens" (R70), so no command raises it. -/
  | noSuchAddress (addr : Nat)
  deriving DecidableEq, Repr

/-- What the model gives no meaning. -/
inductive Refusal where
  /-- Raised by `exec` for an instruction without a meaning yet. Safe: it stops. -/
  | notModelled (mnemonic : String)
  /-- Raised by `step` when the environment drives a pin of `PIN_MASK`: U3 says `refuse`, R76 assigns it no
  behaviour. The stop itself is safe; assuming it never happens is not (log entry 11). -/
  | sharedPin (m : Word)
  deriving DecidableEq, Repr

/-- The state after hardware reset of an engine built with `c` (R45, R301). The eight values R45 calls
unspecified are zero. DESIGN CHOICE, unsafe (log entry 2). -/
def State.init (c : Config) : State :=
  { conf := c
    cycle := 0, out := 0, cfg := false, buf := [], lock := false, pend := []
    phase := .idle, widx := 0, bidx := 0, kidx := 7, shift := 0
    wact := false, wstart := 0, wn := 0, drem := none, fault := none
    a := 0, b := 0, res := 0
    waitBegan := 0, time := 0, trace := [], completions := [], inputs := [], draws := 0, meter := .off }

/-- The machine right after reset, with the configuration log entry 1 names. -/
def State.reset : State := State.init Config.standard

end Sys2Proof.Machine
end

