-- ==== Sys2Proof/Machine/Params.lean ====
section
/-! DEFINITION. What follows from the configuration: word count, corrected durations, validity, times (00_scope.md R9 to R11, 10_state.md R40, R41, 60_exceptions.md R268). -/

namespace Sys2Proof

/-- `W = ceil(3N/4)` (R10; CR1). -/
def Config.words (c : Config) : Nat := (3 * c.pixels + 3) / 4

/-- The buffer's byte length `4W` (R28). -/
def Config.bufBytes (c : Config) : Nat := 4 * c.words

/-- `T0H = NOM0H - CORR` (CR3). -/
def Config.t0H (c : Config) : Nat := c.nom0H - c.corr

/-- `T0L = NOM0L - CORR` (CR4). -/
def Config.t0L (c : Config) : Nat := c.nom0L - c.corr

/-- `T1H = NOM1H - CORR` (CR5). -/
def Config.t1H (c : Config) : Nat := c.nom1H - c.corr

/-- `T1L = NOM1L - CORR` (CR6). -/
def Config.t1L (c : Config) : Nat := c.nom1L - c.corr

/-- High time of a bit (30_encoding.md R91; `H` of 44_serializer.md R205). -/
def Config.highTime (c : Config) (v : Bool) : Nat := if v then c.t1H else c.t0H

/-- Low time of a bit (R91; `L` of R205). -/
def Config.lowTime (c : Config) (v : Bool) : Nat := if v then c.t1L else c.t0L

/-- One nominal duration is usable: not below `CORR`, and the corrected one below `2^(CW-1)` (R11, R268). -/
def Config.durationOk (c : Config) (nominal : Nat) : Bool :=
  decide (c.corr ≤ nominal) && decide (nominal - c.corr < 2 ^ (c.cw - 1))

/-- The configurations a constructor accepts: none of the conditions of R268 holds, and `CLK_HZ` is positive
(R9; log entry 1). DESIGN CHOICE (log entry 22): a
`RESET_MS` of `2^32` or more is accepted, as R9 and R268 say, although R40 gives CR7 32 bits. -/
def Config.valid (c : Config) : Bool :=
  c.durationOk c.nom0H && c.durationOk c.nom0L && c.durationOk c.nom1H && c.durationOk c.nom1L &&
  decide (c.pinMask ≠ 0) && decide (c.pinMask.toNat < 2 ^ c.pw) &&
  decide (1 ≤ c.resetMs) && decide (c.bufBytes < 2 ^ 32) &&
  decide (1 ≤ c.cw ∧ c.cw ≤ 32) && decide (1 ≤ c.pw ∧ c.pw ≤ 32) && decide (0 < c.clkHz)

/-- The fewest cycles in `d` milliseconds: "`d * CLK_HZ / 1000` or more" (42_critical_section_delay.md R167),
rounded up. -/
def Config.msCycles (c : Config) (d : Nat) : Nat := (d * c.clkHz + 999) / 1000

/-- The cycles one pin write takes: one unstated number, at most `PIN_OVH` (41_pin_driver.md R146; log
entry 7). -/
def Config.pinTime (c : Config) : Nat := min Config.pinCycles c.pinOvh

/-- Cut to `PW` bits: a pin port has no others (10_state.md R25, R40). -/
def Config.cutPins (c : Config) (m : Word) : Word := BitVec.ofNat 32 (m.toNat % 2 ^ c.pw)

/-- Cut to `CW` bits: all counter arithmetic is modulo `2^CW` (40_cycle_timer.md R127). -/
def Config.cutCycles (c : Config) (n : Nat) : Word := BitVec.ofNat 32 (n % 2 ^ c.cw)

/-- Hardware reset is construction (70_reset_and_hazards.md R300); an invalid configuration yields no engine
(R268). -/
def Machine.State.construct (c : Config) : Option Machine.State :=
  if c.valid then some (Machine.State.init c) else none

end Sys2Proof
end

