-- ==== Sys2Proof/Machine/Operands.lean ====
section
/-! DEFINITION. Operand forms: colours, signed operands, the bytes and bits of a word (10_state.md R43, 30_encoding.md R101, 20_memory.md R63, 44_serializer.md R206). -/

namespace Sys2Proof.Machine

/-- Green, bits 23..16 of a colour (R43). -/
def green (c : Colour) : Byte := c.extractLsb' 16 8

/-- Red, bits 15..8 (R43). -/
def red (c : Colour) : Byte := c.extractLsb' 8 8

/-- Blue, bits 7..0 (R43). -/
def blue (c : Colour) : Byte := c.extractLsb' 0 8

/-- A colour result `zext_32(G ++ R ++ B)` (30_encoding.md R102). -/
def colourResult (g r b : Byte) : Word := (g ++ r ++ b).setWidth 32

/-- The bytes of a colour in wire order, green, red, blue (R43, R185). -/
def wireBytes (c : Colour) : List Byte := [green c, red c, blue c]

/-- Operand `A` as a signed 32-bit integer (R101). -/
def signed (x : Word) : Int := x.toInt

/-- `clamp(v, 0, 255)` on unbounded integers, as a channel (00_scope.md R12, 45_color_arith.md R245). -/
def clampChannel (v : Int) : Byte :=
  if v < 0 then 0 else if 255 < v then 255 else BitVec.ofNat 8 v.toNat

/-- `floor(ch * f / 255)` (45_color_arith.md R240, R241). -/
def scaleChannel (ch : Byte) (f : Nat) : Byte := BitVec.ofNat 8 (ch.toNat * f / 255)

/-- Four buffer bytes in address order as a word, by lane (20_memory.md R63). -/
def assembleWord (lane : Lane) (b0 b1 b2 b3 : Byte) : Word :=
  match lane with
  | .be => b0 ++ b1 ++ b2 ++ b3
  | .le => b3 ++ b2 ++ b1 ++ b0

/-- Bit `k` of byte `b` of a word, byte 0 being bits 31..24: `x[k]` with `x = SHIFT[31-8b : 24-8b]` (R206). -/
def wireBit (w : Word) (b k : Nat) : Bool := w.getLsbD (24 - 8 * b + k)

end Sys2Proof.Machine
end

