-- ==== Sys2Proof/Machine/Flags.lean ====
section
/-! DEFINITION. Status and tests. The block has no condition codes (10_state.md R42); what it has are `BUSY`, the codes of `PHASE` and `FAULT`, and the exit test of a wait. -/

namespace Sys2Proof.Machine

/-- The number of a phase (R33). -/
def Phase.code : Phase → BitVec 3
  | .idle => 0
  | .framing => 1
  | .bitHigh => 2
  | .bitLow => 3
  | .idleLow => 4
  | .resetDelay => 5

/-- The code of a cause (60_exceptions.md R260). -/
def Cause.code : Cause → BitVec 4
  | .indexOutOfRange => 1
  | .scaleOutOfRange => 2
  | .notConfigured => 3
  | .illegalCommand => 4
  | .lockMisuse => 5
  | .busy => 6

/-- The 4-bit register `FAULT`: 0, or the code of the first cause (R37). -/
def State.faultCode (s : State) : BitVec 4 :=
  match s.fault with
  | none => 0
  | some c => c.code

/-- `BUSY = (PHASE != 0)` (R42). -/
def State.busy (s : State) : Bool := decide (s.phase ≠ .idle)

/-- A command has been started and not completed: a send (R33), a wait (R23) or a delay (R36). -/
def State.inFlight (s : State) : Bool := s.busy || s.wact || s.drem.isSome

/-- The unsigned difference `c -_CW start` of two counter values (40_cycle_timer.md R127). -/
def cycleDiff (cw : Nat) (c start : Word) : Nat := (c.toNat + 2 ^ cw - start.toNat) % 2 ^ cw

/-- The exit test of a wait, `(c -_CW WSTART) >= n` (R123). -/
def waitDone (cw : Nat) (c start n : Word) : Bool := decide (n.toNat ≤ cycleDiff cw c start)

/-- `0 <= f < 255` (45_color_arith.md R240, R242). -/
def scaleInRange (f : Word) : Bool := decide (0 ≤ signed f ∧ signed f < 255)

end Sys2Proof.Machine
end

