-- ==== Sys2Proof/Machine/Ops.lean ====
section
/-! DEFINITION. The named operations over memory, time, pins, lock, wait, delay and command port (the primitives of 00_scope.md R13), and taking an abort, which is this block's only exception. -/

namespace Sys2Proof.Machine

/-! ### The pixel buffer (10_state.md R28, 20_memory.md R60 to R70) -/

/-- One byte; an unlisted address reads 0, which is what reset leaves (R29). -/
def Memory.read : Memory → Nat → Byte
  | [], _ => 0
  | c :: rest, addr => if c.1 = addr then c.2 else Memory.read rest addr

/-- Write one byte, keeping the list sorted and free of zeros. -/
def Memory.write : Memory → Nat → Byte → Memory
  | [], addr, v => if v = 0 then [] else [(addr, v)]
  | c :: rest, addr, v =>
    if addr < c.1 then (if v = 0 then c :: rest else (addr, v) :: c :: rest)
    else if addr = c.1 then (if v = 0 then rest else (addr, v) :: rest)
    else c :: Memory.write rest addr v

/-- Write bytes at rising addresses. -/
def Memory.writeBytes : Memory → Nat → List Byte → Memory
  | m, _, [] => m
  | m, addr, v :: rest => Memory.writeBytes (Memory.write m addr v) (addr + 1) rest

/-- Write 0 to every address below `n` (43_pixel_buffer.md R188). -/
def Memory.clearBelow (m : Memory) (n : Nat) : Memory :=
  m.filter (fun c => decide (n ≤ c.1))

/-- The canonical form: addresses strictly rising, no entry equal to what an unlisted address reads as. -/
abbrev Memory.wf (m : Memory) : Prop :=
  m.Pairwise (fun x y => x.1 < y.1) ∧ ∀ c ∈ m, c.2 ≠ 0

/-- `MemRead(addr, n)` (R13): none where an address lies outside `0 .. 4W-1` (R60). -/
def State.memRead (s : State) (addr n : Nat) : Option (List Byte) :=
  if addr + n ≤ s.conf.bufBytes then
    some ((List.range n).map (fun k => Memory.read s.buf (addr + k)))
  else none

/-- `MemWrite(addr, n, v)` (R13): none where an address lies outside `0 .. 4W-1` (R60). -/
def State.memWrite (s : State) (addr : Nat) (bytes : List Byte) : Option State :=
  if addr + bytes.length ≤ s.conf.bufBytes then
    some { s with buf := Memory.writeBytes s.buf addr bytes }
  else none

/-- `WordRead(j)` (20_memory.md R63): none for `j >= W`. -/
def State.wordRead (s : State) (j : Nat) : Option Word :=
  match s.memRead (4 * j) 4 with
  | some [b0, b1, b2, b3] => some (assembleWord s.conf.lane b0 b1 b2 b3)
  | _ => none

/-! ### Time (00_scope.md R14, 10_state.md R21) -/

/-- `n` cycles pass: the clock adds 1 to `CYCLE` in each (R21). -/
def State.pass (n : Nat) (s : State) : State :=
  { s with cycle := s.conf.cutCycles (s.cycle.toNat + n), time := s.time + n }

/-- A free number of cycles, within the limit the spec sets, if it sets one. -/
def bounded (limit : Option Nat) (n : Nat) : Nat :=
  match limit with
  | none => n
  | some r => min n r

/-- A free number of cycles passes (log entry 5). -/
def State.drift (limit : Option Nat) (s : State) : State :=
  { s.pass (bounded limit (Config.freeCycles s.draws)) with draws := s.draws + 1 }

/-- `emit(e)` (R13, R15). -/
def State.emit (e : Event) (s : State) : State :=
  { s with trace := s.trace ++ [Stamp.mk s.time e] }

/-- The events of the trace, without their instants (R15). -/
def State.events (s : State) : List Event := s.trace.map Stamp.event

/-! ### The pins (41_pin_driver.md R142, R143, R146) -/

/-- `PinSet(m)` (R142), and the time the write takes (R146). -/
def State.pinSet (m : Word) (s : State) : State :=
  ({ s with out := s.out ||| m }.emit (.high m)).pass s.conf.pinTime

/-- `PinClr(m)` (R143), and the time the write takes (R146). -/
def State.pinClr (m : Word) (s : State) : State :=
  ({ s with out := s.out &&& ~~~m }.emit (.low m)).pass s.conf.pinTime

/-! ### The critical section (42_critical_section_delay.md R161, R163) -/

/-- `Acquire()` (R161). -/
def State.acquire (s : State) : State := { s with lock := true }.emit .lock

/-- `Release()` (R163). -/
def State.release (s : State) : State := { s with lock := false }.emit .unlock

/-! ### The busy wait (40_cycle_timer.md R123 to R125) -/

/-- The entry of `Wait(n)` (R123): the event, `WACT`, `WN`, the entry sample and its instant (R124). -/
def State.beginWait (n : Nat) (s : State) : State :=
  { s.emit (.wait n) with wact := true, wn := s.conf.cutCycles n, wstart := s.cycle, waitBegan := s.time }

/-- The limit on a wait's overhead: `WAIT_OVH` with `LOCK = 1`, none with `LOCK = 0` (R125). -/
def State.waitRoom (s : State) : Option Nat :=
  if s.lock then some s.conf.waitOvh else none

/-! ### The millisecond delay (42_critical_section_delay.md R166) -/

/-- The entry of `DelayMs(d)` (R166): the event and `DREM`. -/
def State.beginDelay (d : Nat) (s : State) : State :=
  { s.emit (.delayMs d) with drem := some ⟨d, s.time⟩ }

/-! ### The sequence position (10_state.md R33, 00_scope.md R13) -/

/-- `seq <- (p, w, b, k)`. -/
def State.setSeq (p : Phase) (w : Word) (b : BitVec 2) (k : BitVec 3) (s : State) : State :=
  { s with phase := p, widx := w, bidx := b, kidx := k }

/-! ### The command port (10_state.md R38, R39, 30_encoding.md R101, R102) -/

/-- `A <- word[31:0]`, `B <- word[55:32]` (R101); under a standing fault nothing changes (60_exceptions.md
R271). -/
def State.loadOperands (w : CommandWord) (s : State) : State :=
  if s.fault = none then { s with a := aField w, b := bField w } else s

/-- A command that returns a value completes: `RES <- v`, handed to the issuer (R102). -/
def State.returnValue (v : Word) (s : State) : State :=
  { s with res := v, completions := s.completions ++ [Completion.mk .ok (some v)], meter := .off }

/-- A command that returns no value completes: `RES` is left unspecified, so it is a free value (R39; log
entry 8). -/
def State.returnNothing (s : State) : State :=
  { s with
    res := Config.freeResult s.draws, draws := s.draws + 1
    completions := s.completions ++ [Completion.mk .ok none], meter := .off }

/-! ### The abort (60_exceptions.md R270 to R274) -/

/-- A command is refused under a standing fault: it completes aborted, changes nothing, emits nothing
(R271). -/
def State.drop (s : State) : State :=
  { s with completions := s.completions ++ [Completion.mk .aborted none] }

/-- `raise Abort(cause)` (R270): `FAULT`, the event, the completion; no other state changes. -/
def State.abort (c : Cause) (s : State) : State :=
  { s with fault := some c, completions := s.completions ++ [Completion.mk .aborted none] }.emit (.abort c)

/-- An abort with the standing fault looked at first: "`FAULT` keeps the first cause" (R272, R273). -/
def State.raise (c : Cause) (s : State) : State :=
  match s.fault with
  | some _ => s.drop
  | none => s.abort c

/-- Every command: the standing fault, then `Busy`, then the command's own check, then its effect; all
checks before any effect (R273, R274). -/
def State.command (s : State) (check : Option Cause) (effect : State → Host.Outcome State Fault Refusal) :
    Host.Outcome State Fault Refusal :=
  match s.fault with
  | some _ => .next s.drop
  | none =>
    if s.busy then .next (s.abort .busy)
    else match check with
      | some c => .next (s.abort c)
      | none => effect s

/-- A cause, when its condition holds. -/
def failIf (bad : Bool) (c : Cause) : Option Cause := if bad then some c else none

/-- The first of two checks that fails (R273). -/
def firstOf (c d : Option Cause) : Option Cause :=
  match c with
  | some x => some x
  | none => d

/-- One outcome, then the rest. -/
def andThen (o : Host.Outcome State Fault Refusal) (k : State → Host.Outcome State Fault Refusal) :
    Host.Outcome State Fault Refusal :=
  match o with
  | .next s => k s
  | .fault r => .fault r
  | .refused r => .refused r

end Sys2Proof.Machine
end

