-- ==== Sys2Proof/Machine/ColourArith.lean ====
section
/-! DEFINITION. Colour arithmetic: SCALE and OFFSET (45_color_arith.md). -/

namespace Sys2Proof.Machine

/-- The three channels of `SCALE` (R240). -/
def scaleColour (c : Colour) (f : Nat) : Word :=
  colourResult (scaleChannel (green c) f) (scaleChannel (red c) f) (scaleChannel (blue c) f)

/-- One channel of `OFFSET`: the sum on unbounded integers, then the clamp (R245). -/
def offsetChannel (ch : Byte) (d : Int) : Byte := clampChannel ((ch.toNat : Int) + d)

/-- The three channels of `OFFSET` (R245). -/
def offsetColour (c : Colour) (d : Int) : Word :=
  colourResult (offsetChannel (green c) d) (offsetChannel (red c) d) (offsetChannel (blue c) d)

/-- `SCALE colour, f` (R240): refused outside `[0,255)` (R242). -/
def execScale (colour : Colour) (f : Word) (s : State) : Host.Outcome State Fault Refusal :=
  s.command (failIf (!scaleInRange f) .scaleOutOfRange) (fun s =>
    .next (s.returnValue (scaleColour colour f.toNat)))

/-- `OFFSET colour, d` (R245): no failing case. -/
def execOffset (colour : Colour) (d : Word) (s : State) : Host.Outcome State Fault Refusal :=
  s.command none (fun s => .next (s.returnValue (offsetColour colour (signed d))))

end Sys2Proof.Machine
end

