-- ==== Sys2Proof/Machine/Environment.lean ====
section
/-! DEFINITION. The environment and the pin configurator (00_scope.md R16): what they may do, and only with LOCK = 0 (42_critical_section_delay.md R162, 60_exceptions.md R276; log entries 10, 11 and 24), between commands and while a command waits (20_memory.md R75; log entry 4). -/

namespace Sys2Proof.Machine

/-- A write of another agent to a pin port (41_pin_driver.md R142, R143, R147). -/
def State.otherPins (high : Bool) (m : Word) (s : State) : State :=
  { s with out := if high then s.out ||| s.conf.cutPins m else s.out &&& ~~~(s.conf.cutPins m) }

/-- One step of the environment; it takes time (R276). A write that meets `PIN_MASK` has no meaning
(20_memory.md R76; U3). -/
def State.perform (e : EnvStep) (s : State) : Host.Outcome State Fault Refusal :=
  match e with
  | .configure outputs => .next ({ s with cfg := outputs }.drift none)
  | .drive high m =>
    if m &&& s.conf.pinMask = 0 then .next ((s.otherPins high m).drift none)
    else .refused (.sharedPin m)
  | .interrupt _ => .next (s.drift none)

/-- `PEND` with one more request in it; it is a set (10_state.md R32). -/
def addRequest (pend : List EnvStep) (e : EnvStep) : List EnvStep :=
  if e ∈ pend then pend else pend ++ [e]

/-- Something arises in the environment: it happens with `LOCK = 0`, and waits in `PEND` with `LOCK = 1`,
where the environment has no step and so takes no time (R32, R162). DESIGN CHOICE (log entry 24): it goes on
after an abort as before, which R271 leaves outside the block; under the standing fault no command reads what it
changes. -/
def State.arise (e : EnvStep) (s : State) : Host.Outcome State Fault Refusal :=
  if s.lock then .next { s with pend := addRequest s.pend e } else s.perform e

/-- The environment serves what stands `k`-th in `PEND`, "in an order the spec does not fix" (R276); it has no
step with `LOCK = 1`. -/
def State.serve (k : Nat) (s : State) : Host.Outcome State Fault Refusal :=
  if s.lock then .next s
  else
    match s.pend[k]? with
    | none => .next (s.drift none)
    | some e => { s with pend := s.pend.eraseIdx k }.perform e

/-- At most `n` of the environment's next steps, as `inputs` lists them, one after the other. What the issuer does
next ends them, and so does a write the model refuses, which is left for its own step (log entries 4 and 11). -/
def State.interlude (n : Nat) : List Input → State → State
  | .arise e :: rest, s =>
    match n with
    | 0 => s
    | n + 1 => match { s with inputs := rest }.arise e with
      | .next t => State.interlude n rest t
      | .fault _ => s
      | .refused _ => s
  | .serve k :: rest, s =>
    match n with
    | 0 => s
    | n + 1 => match { s with inputs := rest }.serve k with
      | .next t => State.interlude n rest t
      | .fault _ => s
      | .refused _ => s
  | .command _ :: _, s => s
  | .start _ :: _, s => s
  | .engine :: _, s => s
  | [], s => s
termination_by structural ins => ins

/-- The environment while a command waits: "it may take any number of steps, each of any length, while `LOCK = 0`"
(R16, R75, R166); with `LOCK = 1` what arises goes to `PEND` (R32). How many is a free value (log entry 4). -/
def State.environment (s : State) : State :=
  State.interlude (Config.freeSteps s.draws) s.inputs { s with draws := s.draws + 1 }

end Sys2Proof.Machine
end

