-- ==== Sys2Proof/Machine/CriticalSection.lean ====
section
/-! DEFINITION. The critical section and the millisecond delay: LOCK, UNLOCK and DELAYMS (42_critical_section_delay.md). -/

namespace Sys2Proof.Machine

/-- `LOCK` (R160): refused when held (R164), else `Acquire()`. -/
def execLock (s : State) : Host.Outcome State Fault Refusal :=
  s.command (failIf s.lock .lockMisuse) (fun s => .next s.acquire.returnNothing)

/-- `UNLOCK` (R165): refused when free (R164), else `Release()`. -/
def execUnlock (s : State) : Host.Outcome State Fault Refusal :=
  s.command (failIf (!s.lock) .lockMisuse) (fun s => .next s.release.returnNothing)

/-- The rest of a delay in flight that began at `began`: it ends at least `d` milliseconds after that, with no upper
bound (R166). -/
def State.finishDelay (d began : Nat) (s : State) : State :=
  { s.pass (began + s.conf.msCycles d - s.time + Config.freeCycles s.draws) with
    drem := none, draws := s.draws + 1 }

/-- `DelayMs(d)` as one step (R166): "the engine is suspended; the environment may step". -/
def State.delay (d : Nat) (s : State) : State :=
  (s.beginDelay d).environment.finishDelay d s.time

/-- The check of `DELAYMS` (R164, R167). -/
def State.delayCheck (s : State) : Option Cause := failIf s.lock .lockMisuse

/-- `DELAYMS d` (R167): refused under the lock, else `DelayMs(d)`. -/
def execDelayMs (d : Word) (s : State) : Host.Outcome State Fault Refusal :=
  s.command s.delayCheck (fun s => .next (s.delay d.toNat).returnNothing)

end Sys2Proof.Machine
end

