-- ==== Sys2Proof/Machine/CycleTimer.lean ====
section
/-! DEFINITION. The cycle timer: NOW and WAITCYCLES (40_cycle_timer.md). -/

namespace Sys2Proof.Machine

/-- The cycles from the entry sample of `Wait(n)` to the poll that ends it, where the environment has taken `past` of
them: a free number that is at least `n` and `past`, meets the exit test of R123 and, where `room` is given, exceeds
`n` by at most that (R125; log entry 6). DESIGN CHOICE (log entry 23): with `LOCK = 0` too some poll falls inside a
window, so a wait run whole ends, which R319 says takes that assumption. -/
def State.waitLength (n : Nat) (room : Option Nat) (past : Nat) (s : State) : Nat :=
  let t := max n past + bounded room (Config.freeCycles s.draws)
  if n ≤ t % 2 ^ s.conf.cw then t
  else if past ≤ n then n
  else t - t % 2 ^ s.conf.cw + n

/-- The rest of a wait in flight, to the poll that ends it. -/
def State.finishWait (n : Nat) (room : Option Nat) (s : State) : State :=
  let past := s.time - s.waitBegan
  { s.pass (s.waitLength n room past - past) with wact := false, draws := s.draws + 1 }

/-- `Wait(n)` as one step (R123, R23), the environment acting while it lasts. -/
def State.wait (n : Nat) (room : Option Nat) (s : State) : State :=
  (s.beginWait n).environment.finishWait n room

/-- The measurement of R125 starts at a `NOW` under the lock. -/
def State.startMeter (s : State) : State :=
  { s with meter := if s.lock then .afterNow s.conf.waitOvh else .off }

/-- `NOW` (R120): `RES <- zext_32(Now())`. -/
def execNow (s : State) : Host.Outcome State Fault Refusal :=
  s.command none (fun s => .next (s.returnValue s.cycle).startMeter)

/-- The overhead a `WAITCYCLES` may take: what the measurement begun by a `NOW` just before it has left, else
`WAIT_OVH`, and no limit with `LOCK = 0` (R125). -/
def State.commandRoom (s : State) : Option Nat :=
  if s.lock then
    match s.meter with
    | .afterNow room => some room
    | _ => some s.conf.waitOvh
  else none

/-- The measurement of R125 after a `WAITCYCLES` that took `spent` of the overhead left. R125 measures from the `NOW`
before the wait: with no `NOW` just before it there is no measurement, and the time before the next command is as free
as any (log entry 6). -/
def Meter.afterWaitOf (m : Meter) (spent : Nat) : Meter :=
  match m with
  | .afterNow room => .afterWait (room - spent)
  | .off => .off
  | .afterWait _ => .off

/-- A `WAITCYCLES` whose wait has ended completes; the measurement goes on with what it has left. -/
def State.completeWait (s : State) : State :=
  { s.returnNothing with meter := s.meter.afterWaitOf (s.time - s.waitBegan - s.wn.toNat) }

/-- The operand check of `WAITCYCLES` (R122). -/
def State.waitCheck (n : Word) (s : State) : Option Cause :=
  failIf (!operandFits s.conf.cw n) .illegalCommand

/-- `WAITCYCLES n` (R122): the operand check, then `Wait(n)`. -/
def execWaitCycles (n : Word) (s : State) : Host.Outcome State Fault Refusal :=
  s.command (s.waitCheck n) (fun s => .next (s.wait n.toNat s.commandRoom).completeWait)

end Sys2Proof.Machine
end

