-- ==== Sys2Proof/Machine/PinDriver.lean ====
section
/-! DEFINITION. The pin driver: MASK, ASSERT and DEASSERT (41_pin_driver.md). -/

namespace Sys2Proof.Machine

/-- `MASK` (R140): `RES <- zext_32(PIN_MASK)`. -/
def execMask (s : State) : Host.Outcome State Fault Refusal :=
  s.command none (fun s => .next (s.returnValue s.conf.pinMask))

/-- `ASSERT m` (R144): the operand check, then `PinSet(m)`. -/
def execAssert (m : Word) (s : State) : Host.Outcome State Fault Refusal :=
  s.command (failIf (!operandFits s.conf.pw m) .illegalCommand) (fun s =>
    .next (s.pinSet m).returnNothing)

/-- `DEASSERT m` (R145): the operand check, then `PinClr(m)`. -/
def execDeassert (m : Word) (s : State) : Host.Outcome State Fault Refusal :=
  s.command (failIf (!operandFits s.conf.pw m) .illegalCommand) (fun s =>
    .next (s.pinClr m).returnNothing)

end Sys2Proof.Machine
end

