-- ==== Sys2Proof/Machine/PixelBuffer.lean ====
section
/-! DEFINITION. The pixel buffer: SIZE, PIXRD, PIXWR, BUFRESET and WORDRD (43_pixel_buffer.md). -/

namespace Sys2Proof.Machine

/-- `SIZE` (R180): `RES <- N`. -/
def execSize (s : State) : Host.Outcome State Fault Refusal :=
  s.command none (fun s => .next (s.returnValue (BitVec.ofNat 32 s.conf.pixels)))

/-- `PIXRD i` (R182): the index check of R183, then green, red and blue of the pixel. -/
def execPixRd (idx : Word) (s : State) : Host.Outcome State Fault Refusal :=
  s.command (failIf (decide (s.conf.pixels ≤ idx.toNat)) .indexOutOfRange) (fun s =>
    match s.memRead (3 * idx.toNat) 3 with
    | some [g, r, b] => .next (s.returnValue (colourResult g r b))
    | _ => .fault (.noSuchAddress (3 * idx.toNat)))

/-- `PIXWR i, colour` (R185): the index check of R186, then the three bytes of the pixel. -/
def execPixWr (idx : Word) (colour : Colour) (s : State) : Host.Outcome State Fault Refusal :=
  s.command (failIf (decide (s.conf.pixels ≤ idx.toNat)) .indexOutOfRange) (fun s =>
    match s.memWrite (3 * idx.toNat) (wireBytes colour) with
    | some t => .next t.returnNothing
    | none => .fault (.noSuchAddress (3 * idx.toNat)))

/-- `BUFRESET` (R188): every byte of the buffer becomes 0. -/
def execBufReset (s : State) : Host.Outcome State Fault Refusal :=
  s.command none (fun s =>
    .next { s with buf := Memory.clearBelow s.buf s.conf.bufBytes }.returnNothing)

/-- `WORDRD j` (R191): the index check of R192, then `RES <- WordRead(j)`. -/
def execWordRd (idx : Word) (s : State) : Host.Outcome State Fault Refusal :=
  s.command (failIf (decide (s.conf.words ≤ idx.toNat)) .indexOutOfRange) (fun s =>
    match s.wordRead idx.toNat with
    | some v => .next (s.returnValue v)
    | none => .fault (.noSuchAddress (4 * idx.toNat)))

end Sys2Proof.Machine
end

