-- ==== Sys2Proof/Machine/Serializer.lean ====
section
/-! DEFINITION. The serializer: SEND as the big-step code of 44_serializer.md R200 and R205 to R207, which governs (R210). -/

namespace Sys2Proof.Machine

/-- `EmitBit(v)` (R205). -/
def State.emitBit (v : Bool) (s : State) : State :=
  let s := { s with phase := .bitHigh }.pinSet s.conf.pinMask
  let s := s.wait (s.conf.highTime v) s.waitRoom
  let s := { s with phase := .bitLow }.pinClr s.conf.pinMask
  s.wait (s.conf.lowTime v) s.waitRoom

/-- One turn of the loop of `EmitByte` (R206). -/
def State.emitBitAt (b k : Nat) (s : State) : State :=
  { s with kidx := BitVec.ofNat 3 k }.emitBit (wireBit s.shift b k)

/-- `EmitByte(b)` (R206): most-significant bit first. -/
def State.emitByte (b : Nat) (s : State) : State :=
  [7, 6, 5, 4, 3, 2, 1, 0].foldl (fun s k => s.emitBitAt b k) { s with bidx := BitVec.ofNat 2 b }

/-- `WIDX <- w; SHIFT <- v`, and the unstated time the read takes (R207). -/
def State.loadShift (w : Nat) (v : Word) (s : State) : State :=
  { s with widx := BitVec.ofNat 32 w, shift := v }.drift none

/-- `EmitWord(w)` (R207): the word is read in place, now; bytes 0 to 3 in order (R208). -/
def State.emitWord (w : Nat) (s : State) : Host.Outcome State Fault Refusal :=
  match s.wordRead w with
  | none => .fault (.noSuchAddress (4 * w))
  | some v => .next ([0, 1, 2, 3].foldl (fun s b => s.emitByte b) (s.loadShift w v))

/-- `n` words from `w` on, in index order. -/
def State.emitWords : Nat → Nat → State → Host.Outcome State Fault Refusal
  | 0, _, s => .next s
  | n + 1, w, s => andThen (s.emitWord w) (State.emitWords n (w + 1))

/-- Step 1 (R200, R201), the first row of R210: the pins forced low. -/
def State.beginSend (s : State) : State :=
  (s.setSeq .framing 0 0 7).pinClr s.conf.pinMask

/-- Steps 1 and 2 (R200, R201): the pins forced low, then, after whatever the environment does and whatever time it
takes (R75, R213), the critical section. -/
def State.openFrame (s : State) : State :=
  (s.beginSend.environment.drift none).acquire

/-- Steps 4 and 5 (R200, R201): the pins forced low again, the release; the phase is then `ResetDelay`. -/
def State.lowAndRelease (s : State) : State :=
  ((s.setSeq .idleLow 0 0 7).pinClr s.conf.pinMask).release.setSeq .resetDelay 0 0 7

/-- Steps 4 to 6 (R200, R201): as above, then the reset/latch delay; the phase is then `Idle`. -/
def State.closeFrame (s : State) : State :=
  (s.lowAndRelease.delay s.conf.resetMs).setSeq .idle 0 0 7

/-- The checks of a send, in the order of R202. -/
def State.sendCheck (s : State) : Option Cause :=
  firstOf (failIf s.lock .lockMisuse) (failIf (!s.cfg) .notConfigured)

/-- `SEND` (R200). -/
def execSend (s : State) : Host.Outcome State Fault Refusal :=
  s.command s.sendCheck (fun s =>
    andThen (State.emitWords s.conf.words 0 s.openFrame) (fun s => .next s.closeFrame.returnNothing))

end Sys2Proof.Machine
end

