-- ==== Sys2Proof/Machine/Dispatch.lean ====
section
/-! DEFINITION. One arm per command, each one call of its meaning. -/

namespace Sys2Proof.Machine

def exec (i : Instr) (s : State) : Host.Outcome State Fault Refusal :=
  match i with
  | .now => Sys2Proof.Machine.execNow s
  | .waitCycles n => Sys2Proof.Machine.execWaitCycles n s
  | .mask => Sys2Proof.Machine.execMask s
  | .assert m => Sys2Proof.Machine.execAssert m s
  | .deassert m => Sys2Proof.Machine.execDeassert m s
  | .lock => Sys2Proof.Machine.execLock s
  | .unlock => Sys2Proof.Machine.execUnlock s
  | .delayMs d => Sys2Proof.Machine.execDelayMs d s
  | .size => Sys2Proof.Machine.execSize s
  | .pixRd idx => Sys2Proof.Machine.execPixRd idx s
  | .pixWr idx colour => Sys2Proof.Machine.execPixWr idx colour s
  | .bufReset => Sys2Proof.Machine.execBufReset s
  | .wordRd idx => Sys2Proof.Machine.execWordRd idx s
  | .send => Sys2Proof.Machine.execSend s
  | .scale colour f => Sys2Proof.Machine.execScale colour f s
  | .offset colour d => Sys2Proof.Machine.execOffset colour d s

end Sys2Proof.Machine
end

