-- ==== Sys2Proof/Machine/Rows.lean ====
section
/-! DEFINITION. The engine in small steps: one poll of a wait (40_cycle_timer.md R123), one row of the table of 44_serializer.md R210. A command issued by a `.start` entry of `inputs` advances by these rows (log entry 4). -/

namespace Sys2Proof.Machine

/-- A wait has ended: outside a send it was a `WAITCYCLES`, which completes. -/
def State.afterWait (s : State) : State :=
  if s.phase = .idle then s.completeWait else s

/-- A delay has ended: outside a send it was a `DELAYMS`, which completes. -/
def State.afterDelay (s : State) : State :=
  if s.phase = .idle then s.returnNothing else s

/-- The limit on the overhead of the wait in flight (R125). -/
def State.pollRoom (s : State) : Option Nat :=
  if s.phase = .idle then s.commandRoom else s.waitRoom

/-- The cycles from the entry sample to the next poll: a free number, at least 1 more than have passed (R123). With
a limit the wait ends within it, so a poll past `n` meets the exit test (R125; log entry 6); without one
(`LOCK = 0`) polls may miss every window (R319). -/
def State.pollAt (s : State) : Nat :=
  let next := s.time - s.waitBegan + 1 + Config.freeCycles s.draws
  match s.pollRoom with
  | none => next
  | some room =>
    let t := min next (s.wn.toNat + room)
    if t % 2 ^ s.conf.cw < s.wn.toNat ∧ s.wn.toNat ≤ t then s.wn.toNat else t

/-- The state at the next poll: the gap before it has passed. -/
def State.atPoll (s : State) : State :=
  { s.pass (s.pollAt - (s.time - s.waitBegan)) with draws := s.draws + 1 }

/-- One poll (R123): the gap, then the exit test. -/
def State.poll (s : State) : State :=
  if waitDone s.conf.cw s.atPoll.cycle s.wstart s.wn then { s.atPoll with wact := false }.afterWait
  else s.atPoll

/-- The state at the next look at a delay: a free time has passed, at least a cycle while the `d` milliseconds have
not (DESIGN CHOICE, log entry 15, in the sense of R210's "the clock ticks"). -/
def State.atLook (d : Delay) (s : State) : State :=
  { s.pass ((if d.began + s.conf.msCycles d.ms ≤ s.time then 0 else 1) + Config.freeCycles s.draws) with
    draws := s.draws + 1 }

/-- One look at a delay in flight (R166): after a free time it ends if `d` milliseconds have then passed, so it may take
any time from `d` milliseconds on (U13). DESIGN CHOICE (log entry 15): it ends at the first look that finds them
passed. -/
def State.delayRow (d : Delay) (s : State) : State :=
  if d.began + s.conf.msCycles d.ms ≤ (s.atLook d).time then { s.atLook d with drem := none }.afterDelay
  else s.atLook d

/-- The bit at the position reached, `SHIFT[31 - 8*b - (7 - k)]` (R210). -/
def State.currentBit (s : State) : Bool := wireBit s.shift s.bidx.toNat s.kidx.toNat

/-- `PinSet(M)`; begin `Wait(TvH)` (R210). -/
def State.startHigh (s : State) : State :=
  ({ s with phase := .bitHigh }.pinSet s.conf.pinMask).beginWait (s.conf.highTime s.currentBit)

/-- `PinClr(M)`; begin `Wait(TvL)` (R210). -/
def State.startLow (s : State) : State :=
  ({ s with phase := .bitLow }.pinClr s.conf.pinMask).beginWait (s.conf.lowTime s.currentBit)

/-- `SHIFT <- WordRead(w)`; `PinSet(M)`; begin `Wait(TvH)` (R210). -/
def State.startWord (w : Nat) (s : State) : Host.Outcome State Fault Refusal :=
  match s.wordRead w with
  | none => .fault (.noSuchAddress (4 * w))
  | some v => .next { s.loadShift w v with bidx := 0, kidx := 7 }.startHigh

/-- `PinClr(M)`; `Release()`; begin `DelayMs(RESET_MS)` (R210). -/
def State.endFrame (s : State) : State :=
  s.lowAndRelease.beginDelay s.conf.resetMs

/-- The rows of R210 that leave `BitLow` when its wait has ended. -/
def State.afterLow (s : State) : Host.Outcome State Fault Refusal :=
  if s.kidx ≠ 0 then .next { s with kidx := s.kidx - 1 }.startHigh
  else if s.bidx ≠ 3 then .next { s with bidx := s.bidx + 1, kidx := 7 }.startHigh
  else if s.widx.toNat + 1 < s.conf.words then s.startWord (s.widx.toNat + 1)
  else .next s.endFrame

/-- The row of R210 for the phase, no wait and no delay being in flight. -/
def State.phaseRow (s : State) : Host.Outcome State Fault Refusal :=
  match s.phase with
  | .idle => .next s
  | .framing => if s.conf.words = 0 then .next s.acquire.endFrame else s.acquire.startWord 0
  | .bitHigh => .next s.startLow
  | .bitLow => s.afterLow
  | .idleLow => .next s.endFrame
  | .resetDelay => .next (s.setSeq .idle 0 0 7).returnNothing

/-- One step of the engine with a command in flight. "While `WACT = 1` the engine does nothing but poll"
(10_state.md R23); while a delay is pending it is suspended (R166); else the clock ticks and the row of
the phase is taken (R210). DESIGN CHOICE (log entry 5): how many cycles pass before that row, between the end of a wait
and the next pin write too, is free, with or without the lock; the big-step form has none there but a word's read. -/
def State.engineRow (s : State) : Host.Outcome State Fault Refusal :=
  if s.wact then .next s.poll
  else match s.drem with
    | some d => .next (s.delayRow d)
    | none => (s.drift none).phaseRow

end Sys2Proof.Machine
end

