-- ==== Sys2Proof/Machine/Issue.lean ====
section
/-! DEFINITION. A command word is issued: time passes, A and B are loaded, the decoded command runs (30_encoding.md R101, R104, R110; 60_exceptions.md R273). -/

namespace Sys2Proof.Machine

/-- The overhead the time before a command counts against: a `WAITCYCLES` after a measured `NOW`, and a `NOW`
after a measured wait (40_cycle_timer.md R125). -/
def Meter.limit (m : Meter) (i : Instr) : Option Nat :=
  match m with
  | .off => none
  | .afterNow room => match i with
    | .waitCycles _ => some room
    | _ => none
  | .afterWait room => match i with
    | .now => some room
    | _ => none

/-- The measurement after `spent` more cycles of overhead. -/
def Meter.spend (m : Meter) (spent : Nat) : Meter :=
  match m with
  | .off => .off
  | .afterNow room => .afterNow (room - spent)
  | .afterWait room => .afterWait (room - spent)

/-- The time that passes before a command starts: at least one cycle, so that two reads of the counter differ
(20_memory.md R69), unless the measurement of R125 has none left. -/
def State.commandGap (i : Instr) (s : State) : State :=
  let gap := bounded (s.meter.limit i) (1 + Config.freeCycles s.draws)
  { s.pass gap with meter := s.meter.spend gap, draws := s.draws + 1 }

/-- A word is issued and its command run by `run`. An illegal word raises `Abort(IllegalCommand)` and has no other
effect (R110). -/
def State.issue (run : Instr → State → Host.Outcome State Fault Refusal) (w : CommandWord) (s : State) :
    Host.Outcome State Fault Refusal :=
  match decode w with
  | .error _ => .next ((s.drift none).raise .illegalCommand)
  | .ok i => run i ((s.commandGap i).loadOperands w)

/-- A command in small steps: the same checks, then the entry of the wait, of the delay or of the send; the rows do
the rest. The other commands are one step. -/
def startRow (i : Instr) (s : State) : Host.Outcome State Fault Refusal :=
  match i with
  | .waitCycles n => s.command (s.waitCheck n) (fun s => .next (s.beginWait n.toNat))
  | .delayMs d => s.command s.delayCheck (fun s => .next (s.beginDelay d.toNat))
  | .send => s.command s.sendCheck (fun s => .next s.beginSend)
  | .now | .mask | .assert _ | .deassert _ | .lock | .unlock | .size | .pixRd _ | .pixWr _ _ | .bufReset
  | .wordRd _ | .scale _ _ | .offset _ _ => exec i s

end Sys2Proof.Machine
end

