-- ==== Sys2Proof/Machine/Step.lean ====
section
/-! DEFINITION. One step of the machine: the environment, the engine or the issuer, as the state says. -/

namespace Sys2Proof.Machine

/-- One step. What the environment has to do comes when its turn in `inputs` does, and so does a row of the engine
that is to come before it; a command waits while one is in flight, the issuer being blocked (20_memory.md R72), and
the engine has the step instead; with no command the engine does nothing and the clock runs
(70_reset_and_hazards.md R301). -/
def step (s : State) : Host.Outcome State Fault Refusal :=
  match s.inputs with
  | [] => if s.inFlight then s.engineRow else .next (s.drift none)
  | .command w :: rest => if s.inFlight then s.engineRow else { s with inputs := rest }.issue exec w
  | .start w :: rest => if s.inFlight then s.engineRow else { s with inputs := rest }.issue startRow w
  | .engine :: rest =>
    if s.inFlight then { s with inputs := rest }.engineRow else .next { s with inputs := rest }
  | .arise e :: rest => { s with inputs := rest }.arise e
  | .serve k :: rest => { s with inputs := rest }.serve k

/-- `s` with that command as the next the issuer issues (log entry 3). -/
def State.withFetchWord (s : State) (nbits w : Nat) : State :=
  { s with inputs := .command (tableWord nbits w) :: s.inputs }

end Sys2Proof.Machine
end

