-- ==== Sys2Proof/Machine/Assembler.lean ====
section
/-! DEFINITION. The assembler's lines and pseudo-instructions (30_encoding.md R112, R113), as abstract syntax and as text. -/

namespace Sys2Proof.Machine

/-- A colour operand `Color(r, g, b)`, red first (R112, 10_state.md R43). -/
structure AsmColour where
  r : Nat
  g : Nat
  b : Nat
  deriving DecidableEq, Repr

/-- One line: the sixteen commands of R112, then the pseudo-instructions of R113. -/
inductive AsmLine where
  | now
  | waitCycles (n : Nat)
  | mask
  | assert (m : Nat)
  | deassert (m : Nat)
  | lock
  | unlock
  | delayMs (d : Nat)
  | size
  | pixRd (i : Nat)
  | pixWr (i : Nat) (c : AsmColour)
  | bufReset
  | wordRd (j : Nat)
  | send
  | scale (c : AsmColour) (f : Int)
  | offset (c : AsmColour) (d : Int)
  /-- `f * color`. -/
  | timesLeft (f : Int) (c : AsmColour)
  /-- `color * f`. -/
  | timesRight (c : AsmColour) (f : Int)
  /-- brighten `color` by `d`. -/
  | brighten (c : AsmColour) (d : Nat)
  /-- darken `color` by `d`. -/
  | darken (c : AsmColour) (d : Nat)
  deriving DecidableEq, Repr

/-- "`Color(0,0,0)`, black" (R113). -/
def AsmColour.black : AsmColour := ⟨0, 0, 0⟩

/-- `B = g*65536 + r*256 + b`, each number `0 .. 255` (R112). -/
def AsmColour.assemble (c : AsmColour) : Option Colour :=
  if c.r ≤ 255 ∧ c.g ≤ 255 ∧ c.b ≤ 255 then
    some (BitVec.ofNat 24 (c.g * 65536 + c.r * 256 + c.b))
  else none

/-- An unsigned operand `A`. -/
def asmUnsigned (n : Nat) : Option Word :=
  if n < 2 ^ 32 then some (BitVec.ofNat 32 n) else none

/-- A signed operand `A`, two's complement (R101). -/
def asmSigned (v : Int) : Option Word :=
  if -(2 ^ 31) ≤ v ∧ v < 2 ^ 31 then some (BitVec.ofInt 32 v) else none

/-- A colour and a signed operand together. -/
def asmColourSigned (c : AsmColour) (v : Int) (k : Colour → Word → Instr) : Option Instr :=
  match c.assemble, asmSigned v with
  | some b, some a => some (k b a)
  | _, _ => none

/-- The command a line stands for; none where an operand is out of its range (R112, R113). -/
def AsmLine.assemble : AsmLine → Option Instr
  | .now => some .now
  | .waitCycles n => (asmUnsigned n).map .waitCycles
  | .mask => some .mask
  | .assert m => (asmUnsigned m).map .assert
  | .deassert m => (asmUnsigned m).map .deassert
  | .lock => some .lock
  | .unlock => some .unlock
  | .delayMs d => (asmUnsigned d).map .delayMs
  | .size => some .size
  | .pixRd i => (asmUnsigned i).map .pixRd
  | .pixWr i c =>
    match asmUnsigned i, c.assemble with
    | some a, some b => some (.pixWr a b)
    | _, _ => none
  | .bufReset => some .bufReset
  | .wordRd j => (asmUnsigned j).map .wordRd
  | .send => some .send
  | .scale c f => asmColourSigned c f .scale
  | .offset c d => asmColourSigned c d .offset
  | .timesLeft f c => asmColourSigned c f .scale
  | .timesRight c f => asmColourSigned c f .scale
  | .brighten c d => asmColourSigned c d .offset
  | .darken c d => asmColourSigned c (-(d : Int)) .offset

/-! ### Text: one command per line, operands separated by commas, `;` starts a comment (R112) -/

/-- The pieces of a line. -/
inductive AsmToken where
  | name (cs : List Char)
  | num (n : Nat)
  | sym (c : Char)
  deriving DecidableEq, Repr

/-- The value of a digit of base 16. -/
def digitValue (c : Char) : Option Nat :=
  let n := c.toNat
  if 48 ≤ n ∧ n ≤ 57 then some (n - 48)
  else if 97 ≤ n ∧ n ≤ 102 then some (n - 87)
  else if 65 ≤ n ∧ n ≤ 70 then some (n - 55)
  else none

/-- Digits of a base, most significant first. -/
def readDigits (base : Nat) : Nat → List Char → Option Nat
  | acc, [] => some acc
  | acc, c :: rest =>
    match digitValue c with
    | some d => if d < base then readDigits base (acc * base + d) rest else none
    | none => none

/-- "Numbers are decimal or `0x` hexadecimal"; anything else is a name. -/
def asmWord (cs : List Char) : AsmToken :=
  match cs with
  | '0' :: 'x' :: d :: rest =>
    match readDigits 16 0 (d :: rest) with
    | some n => .num n
    | none => .name cs
  | _ =>
    match readDigits 10 0 cs with
    | some n => .num n
    | none => .name cs

/-- The word read so far, if there is one. -/
def flushWord (acc : List Char) : List AsmToken :=
  if acc = [] then [] else [asmWord acc.reverse]

/-- Split a line into its pieces; blanks separate, a comment ends it. -/
def asmTokens : List Char → List Char → List AsmToken
  | [], acc => flushWord acc
  | c :: rest, acc =>
    if c = ';' then flushWord acc
    else if c = ' ' ∨ c = '\t' then flushWord acc ++ asmTokens rest []
    else if c = ',' ∨ c = '(' ∨ c = ')' ∨ c = '-' ∨ c = '*' then
      flushWord acc ++ .sym c :: asmTokens rest []
    else asmTokens rest (c :: acc)

/-- A signed number that ends the line. -/
def asmLastInt : List AsmToken → Option Int
  | [.num n] => some n
  | [.sym '-', .num n] => some (-(n : Int))
  | _ => none

/-- A colour operand and what follows it. -/
def asmTakeColour : List AsmToken → Option (AsmColour × List AsmToken)
  | .name ['C', 'o', 'l', 'o', 'r'] :: .sym '(' :: .num r :: .sym ',' :: .num g :: .sym ',' :: .num b :: .sym ')' :: rest =>
    some (⟨r, g, b⟩, rest)
  | .name ['b', 'l', 'a', 'c', 'k'] :: rest => some (AsmColour.black, rest)
  | _ => none

/-- A colour, a comma and a signed number. -/
def asmColourThenInt (ts : List AsmToken) (k : AsmColour → Int → AsmLine) : Option AsmLine :=
  match asmTakeColour ts with
  | some (c, .sym ',' :: rest) => (asmLastInt rest).map (k c)
  | _ => none

/-- A command without operands. -/
def asmNoOperand (ts : List AsmToken) (l : AsmLine) : Option AsmLine :=
  match ts with
  | [] => some l
  | _ => none

/-- A command with one unsigned number. -/
def asmOneNat (ts : List AsmToken) (k : Nat → AsmLine) : Option AsmLine :=
  match ts with
  | [.num n] => some (k n)
  | _ => none

/-- A command's mnemonic and its operands. -/
def asmCommand (m : List Char) (ts : List AsmToken) : Option AsmLine :=
  match m with
  | ['N', 'O', 'W'] => asmNoOperand ts .now
  | ['W', 'A', 'I', 'T', 'C', 'Y', 'C', 'L', 'E', 'S'] => asmOneNat ts .waitCycles
  | ['M', 'A', 'S', 'K'] => asmNoOperand ts .mask
  | ['A', 'S', 'S', 'E', 'R', 'T'] => asmOneNat ts .assert
  | ['D', 'E', 'A', 'S', 'S', 'E', 'R', 'T'] => asmOneNat ts .deassert
  | ['L', 'O', 'C', 'K'] => asmNoOperand ts .lock
  | ['U', 'N', 'L', 'O', 'C', 'K'] => asmNoOperand ts .unlock
  | ['D', 'E', 'L', 'A', 'Y', 'M', 'S'] => asmOneNat ts .delayMs
  | ['S', 'I', 'Z', 'E'] => asmNoOperand ts .size
  | ['P', 'I', 'X', 'R', 'D'] => asmOneNat ts .pixRd
  | ['P', 'I', 'X', 'W', 'R'] =>
    match ts with
    | .num i :: .sym ',' :: rest =>
      match asmTakeColour rest with
      | some (c, []) => some (.pixWr i c)
      | _ => none
    | _ => none
  | ['B', 'U', 'F', 'R', 'E', 'S', 'E', 'T'] => asmNoOperand ts .bufReset
  | ['W', 'O', 'R', 'D', 'R', 'D'] => asmOneNat ts .wordRd
  | ['S', 'E', 'N', 'D'] => asmNoOperand ts .send
  | ['S', 'C', 'A', 'L', 'E'] => asmColourThenInt ts .scale
  | ['O', 'F', 'F', 'S', 'E', 'T'] => asmColourThenInt ts .offset
  | _ => none

/-- `color * f` and `f * color` (R113), else a command. -/
def asmParse (ts : List AsmToken) : Option AsmLine :=
  match asmTakeColour ts with
  | some (c, .sym '*' :: rest) => (asmLastInt rest).map (.timesRight c)
  | some _ => none
  | none =>
    match ts with
    | .num f :: .sym '*' :: rest =>
      match asmTakeColour rest with
      | some (c, []) => some (.timesLeft f c)
      | _ => none
    | .sym '-' :: .num f :: .sym '*' :: rest =>
      match asmTakeColour rest with
      | some (c, []) => some (.timesLeft (-(f : Int)) c)
      | _ => none
    | .name m :: rest => asmCommand m rest
    | _ => none

/-- A line of text to the command it stands for (R112). -/
def assembleText (line : List Char) : Option Instr :=
  match asmParse (asmTokens line []) with
  | some l => l.assemble
  | none => none

end Sys2Proof.Machine
end

