-- ==== Sys2Proof/Safety.lean ====
section
/-! DEFINITION. What a run must keep: the invariants claims are stated with, and what a run without a fault is (60_exceptions.md R271). -/

namespace Sys2Proof.Machine

/-- The state between commands (44_serializer.md R216, 10_state.md R34): `Idle`, indices `0, 0, 7`, no wait and
no delay in flight. -/
structure State.AtRest (s : State) : Prop where
  phase : s.phase = .idle
  widx : s.widx = 0
  bidx : s.bidx = 0
  kidx : s.kidx = 7
  wact : s.wact = false
  drem : s.drem = none

/-- A state a command issued now is executed in: nothing in flight, no standing fault (R271, R72). -/
structure State.Ready (s : State) : Prop extends State.AtRest s where
  fault : s.fault = none

/-- The buffer is in canonical form and lists only bytes of pixels, so the padding is zero and nothing lies
outside `0 .. 4W-1` (43_pixel_buffer.md R189, 20_memory.md R70). -/
structure State.BufferOk (s : State) : Prop where
  wf : Memory.wf s.buf
  pixels : ∀ c ∈ s.buf, c.1 < 3 * s.conf.pixels

/-- Every register holds a value of its width: `CW` bits for the counter and the wait, `PW` bits for the latch
(10_state.md R20). -/
structure State.WidthsOk (s : State) : Prop where
  cycle : s.cycle.toNat < 2 ^ s.conf.cw
  wstart : s.wstart.toNat < 2 ^ s.conf.cw
  wn : s.wn.toNat < 2 ^ s.conf.cw
  out : s.out.toNat < 2 ^ s.conf.pw

/-- Cycles of overhead left in the measurement of R125. -/
def Meter.room : Meter → Nat
  | .off => 0
  | .afterNow room => room
  | .afterWait room => room

/-- While a wait is in flight `CYCLE` is the entry sample and the cycles since (10_state.md R23, 00_scope.md R14). -/
def State.WaitOk (s : State) : Prop :=
  s.wact = true → s.waitBegan ≤ s.time ∧
    s.cycle.toNat = (s.wstart.toNat + (s.time - s.waitBegan)) % 2 ^ s.conf.cw

/-- The invariant of every step: an engine that exists has a valid configuration (60_exceptions.md R268), its
registers fit their widths, its buffer is in order, `PEND` is a set (10_state.md R32), no measurement has more than
`WAIT_OVH` left (40_cycle_timer.md R125), and a wait in flight counts from its entry. -/
structure State.Inv (s : State) : Prop where
  valid : s.conf.valid = true
  widths : s.WidthsOk
  buffer : s.BufferOk
  pend : s.pend.Nodup
  meter : s.meter.room ≤ s.conf.waitOvh
  wait : s.WaitOk

/-- All pins of `PIN_MASK` are driven high. -/
def State.pinsHigh (s : State) : Prop := s.out &&& s.conf.pinMask = s.conf.pinMask

/-- All pins of `PIN_MASK` are driven low. -/
def State.pinsLow (s : State) : Prop := s.out &&& s.conf.pinMask = 0

/-- The state inside a bit cell (R33, R34, R35): the lock held, the word of the buffer in `SHIFT`. -/
structure State.InCell (s : State) : Prop where
  widx : s.widx.toNat < s.conf.words
  shift : s.wordRead s.widx.toNat = some s.shift
  lock : s.lock = true
  drem : s.drem = none

/-- The indices outside the bit loop (R34). -/
def State.indicesAtStart (s : State) : Prop := s.widx = 0 ∧ s.bidx = 0 ∧ s.kidx = 7

/-- "What is true in it", phase by phase (R33, R34). `IdleLow` is passed through inside one row (R210). -/
def State.PhaseOk (s : State) : Prop :=
  match s.phase with
  | .idle => s.indicesAtStart
  | .framing => s.indicesAtStart ∧ s.lock = false ∧ s.wact = false ∧ s.drem = none ∧ s.pinsLow
  | .bitHigh => s.InCell ∧ s.pinsHigh
  | .bitLow => s.InCell ∧ s.pinsLow
  | .idleLow => False
  | .resetDelay => s.indicesAtStart ∧ s.lock = false ∧ s.wact = false ∧ s.pinsLow

/-- The earliest instant of what follows an event: `n` cycles after a `Wait(n)`, `d` milliseconds after a
`DelayMs(d)` (00_scope.md R15). -/
def Stamp.earliestNext (conf : Config) (x : Stamp) : Nat :=
  match x.event with
  | .wait n => x.time + n
  | .delayMs d => x.time + conf.msCycles d
  | .high _ => x.time
  | .low _ => x.time
  | .lock => x.time
  | .unlock => x.time
  | .abort _ => x.time

/-- Every event of a trace is followed, by the next event or by the instant `now`, no sooner than R15 says. -/
def Timed (conf : Config) : List Stamp → Nat → Prop
  | [], _ => True
  | [x], now => x.earliestNext conf ≤ now
  | x :: y :: rest, now => x.earliestNext conf ≤ y.time ∧ Timed conf (y :: rest) now

/-- The trace of `s` is in order: with a wait or a delay in flight its event is the last one, the trace before it is in
order up to the instant it began, and what comes after it comes no sooner than R15 says once it has ended. -/
def State.TraceOk (s : State) : Prop :=
  match s.wact, s.drem with
  | false, none => Timed s.conf s.trace s.time
  | true, none => s.waitBegan ≤ s.time ∧ ∃ before,
      s.trace = before ++ [⟨s.waitBegan, .wait s.wn.toNat⟩] ∧ Timed s.conf before s.waitBegan
  | false, some d => d.began ≤ s.time ∧ ∃ before,
      s.trace = before ++ [⟨d.began, .delayMs d.ms⟩] ∧ Timed s.conf before d.began
  | true, some _ => False

/-- `LOCK` as the trace tells it: set by `Lock`, cleared by `Unlock` (42_critical_section_delay.md R161,
R163). -/
def lockAfter : Bool → List Event → Bool
  | held, [] => held
  | _, .lock :: rest => lockAfter true rest
  | _, .unlock :: rest => lockAfter false rest
  | held, .high _ :: rest => lockAfter held rest
  | held, .low _ :: rest => lockAfter held rest
  | held, .wait _ :: rest => lockAfter held rest
  | held, .delayMs _ :: rest => lockAfter held rest
  | held, .abort _ :: rest => lockAfter held rest

/-- In a trace that starts with `LOCK = held`, no `Lock` comes while the section is held and no `Unlock`, and no
delay, while it is free (R164). -/
def LockDiscipline : Bool → List Event → Prop
  | _, [] => True
  | held, .lock :: rest => held = false ∧ LockDiscipline true rest
  | held, .unlock :: rest => held = true ∧ LockDiscipline false rest
  | held, .delayMs _ :: rest => held = false ∧ LockDiscipline held rest
  | held, .high _ :: rest => LockDiscipline held rest
  | held, .low _ :: rest => LockDiscipline held rest
  | held, .wait _ :: rest => LockDiscipline held rest
  | held, .abort _ :: rest => LockDiscipline held rest

/-- The four events of one bit cell (44_serializer.md R209). -/
def cell (conf : Config) (v : Bool) : List Event :=
  [.high conf.pinMask, .wait (conf.highTime v), .low conf.pinMask, .wait (conf.lowTime v)]

/-- `bit(q)` of R209 for `0 <= q < 32*W`: bit `31 - (q mod 32)` of word `q div 32`. -/
def State.frameBit (s : State) (q : Nat) : Bool :=
  ((s.wordRead (q / 32)).getD 0).getLsbD (31 - q % 32)

/-- The events a send adds to the trace (R209). -/
def State.frame (s : State) : List Event :=
  [.low s.conf.pinMask, .lock] ++
  (List.range (32 * s.conf.words)).flatMap (fun q => cell s.conf (s.frameBit q)) ++
  [.low s.conf.pinMask, .unlock, .delayMs s.conf.resetMs]

/-- `k` rows of the engine, one after another, with no environment step between them (R210). -/
def rows : Nat → State → Host.Outcome State Fault Refusal
  | 0, s => .next s
  | k + 1, s => andThen s.engineRow (rows k)

/-- `t` is `s` after a command that only returns `v`: `RES`, the completion that hands it over, and the
bookkeeping of R125; nothing else (30_encoding.md R102). -/
def State.Returns (s t : State) (v : Word) : Prop :=
  t = { s with res := v, completions := s.completions ++ [⟨.ok, some v⟩], meter := t.meter }

/-- `t` is `s` after an abort with `c`: `FAULT`, the event, the aborted completion; nothing else
(60_exceptions.md R270). -/
def State.Aborts (s t : State) (c : Cause) : Prop :=
  t = { s with
    fault := some c
    trace := s.trace ++ [⟨s.time, .abort c⟩]
    completions := s.completions ++ [⟨.aborted, none⟩] }

/-- What the environment may change, `CFG`, `OUT`, `PEND` and what is left of `inputs`, is in `t` as some number of its
next steps makes it of `s` (00_scope.md R16, 20_memory.md R75). -/
def State.EnvironmentActed (s t : State) : Prop :=
  ∃ k, t.cfg = (State.interlude k s.inputs s).cfg ∧ t.out = (State.interlude k s.inputs s).out ∧
    t.pend = (State.interlude k s.inputs s).pend ∧ t.inputs = (State.interlude k s.inputs s).inputs

/-- The same of a `SEND` from a free section: some steps after step 1, the pins of `PIN_MASK` being low; some with
`LOCK = 1`; and some in the reset/latch delay, with `LOCK = 0` again (44_serializer.md R200, 20_memory.md R74, R75). -/
def State.EnvironmentActedInSend (s t : State) : Prop :=
  ∃ k1 k2 k3,
    let opened := State.interlude k1 s.inputs { s with out := s.out &&& ~~~s.conf.pinMask }
    let sent := State.interlude k2 opened.inputs { opened with lock := true }
    let closed := State.interlude k3 sent.inputs { sent with lock := false }
    t.cfg = closed.cfg ∧ t.out = closed.out ∧ t.pend = closed.pend ∧ t.inputs = closed.inputs

/-- The environment has nothing to do before the issuer's next command, or the engine's next row. -/
def State.quiet (s : State) : Bool :=
  match s.inputs with
  | [] => true
  | .command _ :: _ => true
  | .start _ :: _ => true
  | .engine :: _ => true
  | .arise _ :: _ => false
  | .serve _ :: _ => false

/-- The commands that write `RES` (10_state.md R39). -/
def returnsValue : Instr → Bool
  | .now => true
  | .waitCycles _ => false
  | .mask => true
  | .assert _ => false
  | .deassert _ => false
  | .lock => false
  | .unlock => false
  | .delayMs _ => false
  | .size => true
  | .pixRd _ => true
  | .pixWr _ _ => false
  | .bufReset => false
  | .wordRd _ => true
  | .send => false
  | .scale _ _ => true
  | .offset _ _ => true

/-- "A claim about a program holds only of runs that record no fault" (60_exceptions.md R271). -/
def State.faultFree (s : State) : Prop := s.fault = none

end Sys2Proof.Machine
end

