-- ==== Sys2Proof/Certificates/Slice0/Obligations.lean ====
section
/-! DEFINITION. The statements for the provers; each cites the rule of spec/ it formalises. -/

open Sys2Proof Sys2Proof.Machine

/-! ### Reset and configuration -/

/-- R45: what reset leaves, for every configuration an engine can be built with. Of the eight values R45 calls
unspecified nothing is stated. -/
def Obligations.ResetLeavesTheStatedValues : Prop :=
  ∀ c : Config, c.valid = true → ∃ s, State.construct c = some s ∧
    (∀ addr, Memory.read s.buf addr = 0) ∧ s.phase.code = 0 ∧
    s.widx = 0 ∧ s.bidx = 0 ∧ s.kidx = 7 ∧ s.lock = false ∧ s.pend = [] ∧ s.wact = false ∧
    s.drem = none ∧ s.faultCode = 0 ∧ s.cfg = false ∧ s.conf = c

/-- R268: each listed condition leaves no engine. -/
def Obligations.InvalidConfigurationYieldsNoEngine : Prop :=
  ∀ c : Config,
    (c.nom0H < c.corr ∨ c.nom0L < c.corr ∨ c.nom1H < c.corr ∨ c.nom1L < c.corr ∨
      2 ^ (c.cw - 1) ≤ c.nom0H - c.corr ∨ 2 ^ (c.cw - 1) ≤ c.nom0L - c.corr ∨
      2 ^ (c.cw - 1) ≤ c.nom1H - c.corr ∨ 2 ^ (c.cw - 1) ≤ c.nom1L - c.corr ∨
      c.pinMask = 0 ∨ 2 ^ c.pw ≤ c.pinMask.toNat ∨ c.resetMs = 0 ∨
      2 ^ 32 ≤ 4 * ((3 * c.pixels + 3) / 4) ∨
      c.cw < 1 ∨ 32 < c.cw ∨ c.pw < 1 ∨ 32 < c.pw) →
    State.construct c = none

/-- R10: `W = ceil(3N/4)`, the padding is 0 to 3 bytes, and no pixels take no words. -/
def Obligations.PaddingIsZeroToThreeBytes : Prop :=
  ∀ c : Config, 3 * c.pixels ≤ 4 * c.words ∧ 4 * c.words < 3 * c.pixels + 4 ∧
    c.bufBytes = 4 * c.words ∧ (c.pixels = 0 → c.words = 0)

/-- R9, R40: no step of the engine, the issuer or the environment writes the configuration. -/
def Obligations.ConfigurationNeverChanges : Prop :=
  ∀ s t : State, step s = .next t → t.conf = s.conf

/-! ### Encodings -/

/-- R100 to R104: decoding the word of any command, with any operands, gives it back. -/
def Obligations.DecodeOfEncodeIsTheCommand : Prop :=
  ∀ i : Instr, decode (encode i) = .ok i

/-- R103, R104: a legal word is the word of the command it decodes to. -/
def Obligations.EncodeOfDecodeIsTheWord : Prop :=
  ∀ (w : CommandWord) (i : Instr), decode w = .ok i → encode i = w

/-- R103: "a word `w` is the command when `w & mask = match`", row by row, with `A` and `B` the fields R100
names. -/
def Obligations.WordsMatchTheOpcodeMap : Prop :=
  ∀ w : CommandWord,
    (w &&& 0xFFFFFFFFFFFFFFFF#64 = 0x1000000000000000#64 ↔ decode w = .ok .now) ∧
    (w &&& 0xFFFFFFFF00000000#64 = 0x1100000000000000#64 ↔
      decode w = .ok (.waitCycles (w.extractLsb' 0 32))) ∧
    (w &&& 0xFFFFFFFFFFFFFFFF#64 = 0x2000000000000000#64 ↔ decode w = .ok .mask) ∧
    (w &&& 0xFFFFFFFF00000000#64 = 0x2100000000000000#64 ↔
      decode w = .ok (.assert (w.extractLsb' 0 32))) ∧
    (w &&& 0xFFFFFFFF00000000#64 = 0x2200000000000000#64 ↔
      decode w = .ok (.deassert (w.extractLsb' 0 32))) ∧
    (w &&& 0xFFFFFFFFFFFFFFFF#64 = 0x3000000000000000#64 ↔ decode w = .ok .lock) ∧
    (w &&& 0xFFFFFFFFFFFFFFFF#64 = 0x3100000000000000#64 ↔ decode w = .ok .unlock) ∧
    (w &&& 0xFFFFFFFF00000000#64 = 0x3800000000000000#64 ↔
      decode w = .ok (.delayMs (w.extractLsb' 0 32))) ∧
    (w &&& 0xFFFFFFFFFFFFFFFF#64 = 0x4000000000000000#64 ↔ decode w = .ok .size) ∧
    (w &&& 0xFFFFFFFF00000000#64 = 0x4100000000000000#64 ↔
      decode w = .ok (.pixRd (w.extractLsb' 0 32))) ∧
    (w &&& 0xFF00000000000000#64 = 0x4200000000000000#64 ↔
      decode w = .ok (.pixWr (w.extractLsb' 0 32) (w.extractLsb' 32 24))) ∧
    (w &&& 0xFFFFFFFFFFFFFFFF#64 = 0x4300000000000000#64 ↔ decode w = .ok .bufReset) ∧
    (w &&& 0xFFFFFFFF00000000#64 = 0x4400000000000000#64 ↔
      decode w = .ok (.wordRd (w.extractLsb' 0 32))) ∧
    (w &&& 0xFFFFFFFFFFFFFFFF#64 = 0x5000000000000000#64 ↔ decode w = .ok .send) ∧
    (w &&& 0xFF00000000000000#64 = 0x6000000000000000#64 ↔
      decode w = .ok (.scale (w.extractLsb' 32 24) (w.extractLsb' 0 32))) ∧
    (w &&& 0xFF00000000000000#64 = 0x6100000000000000#64 ↔
      decode w = .ok (.offset (w.extractLsb' 32 24) (w.extractLsb' 0 32)))

/-- Words the spec writes out (95_test_vectors.md) decode to the commands it says they are. -/
def Obligations.WrittenWordsDecodeAsTheSpecSays : Prop :=
  decode 0x1100000000000013#64 = .ok (.waitCycles 19) ∧
  decode 0x2200000000000020#64 = .ok (.deassert 0x20) ∧
  decode 0x3800000000000005#64 = .ok (.delayMs 5) ∧
  decode 0x4234125600000001#64 = .ok (.pixWr 1 0x341256) ∧
  decode 0x5000000000000000#64 = .ok .send ∧
  decode 0x61050505FFFFFFEC#64 = .ok (.offset 0x050505 0xFFFFFFEC) ∧
  decode 0x5100000000000000#64 = .error .unknownOpcode ∧
  decode 0x4100000100000000#64 = .error .mustBeZero

/-- R113: the pseudo-instructions stand for the commands the table gives. -/
def Obligations.PseudoInstructionsExpand : Prop :=
  (∀ (c : AsmColour) (f : Int), (AsmLine.timesLeft f c).assemble = (AsmLine.scale c f).assemble ∧
    (AsmLine.timesRight c f).assemble = (AsmLine.scale c f).assemble) ∧
  (∀ (c : AsmColour) (d : Nat), (AsmLine.brighten c d).assemble = (AsmLine.offset c d).assemble ∧
    (AsmLine.darken c d).assemble = (AsmLine.offset c (-(d : Int))).assemble) ∧
  AsmColour.black.assemble = some 0x000000#24

/-- R112: a colour operand assembles to `B = g*65536 + r*256 + b`, in the order green, red, blue of the
command word, beside a pixel index or a signed factor or delta (R101: two's complement). -/
def Obligations.ColourOperandAssembles : Prop :=
  ∀ c : AsmColour, c.r ≤ 255 → c.g ≤ 255 → c.b ≤ 255 →
    (∀ k : Nat, k < 2 ^ 32 → ∃ i, (AsmLine.pixWr k c).assemble = some i ∧
      (encode i).toNat = 0x42 * 2 ^ 56 + (c.g * 65536 + c.r * 256 + c.b) * 2 ^ 32 + k) ∧
    (∀ v : Int, -(2 ^ 31) ≤ v → v < 2 ^ 31 →
      (∃ i, (AsmLine.scale c v).assemble = some i ∧
        (encode i).toNat =
          0x60 * 2 ^ 56 + (c.g * 65536 + c.r * 256 + c.b) * 2 ^ 32 + (v % 2 ^ 32).toNat) ∧
      (∃ i, (AsmLine.offset c v).assemble = some i ∧
        (encode i).toNat =
          0x61 * 2 ^ 56 + (c.g * 65536 + c.r * 256 + c.b) * 2 ^ 32 + (v % 2 ^ 32).toNat))

/-! ### A step -/

/-- R101, R104: a step with a legal command word and nothing in flight is `exec` of the decoded command, after
the time before it, the word taken from the issuer and `A` and `B` loaded; under a standing fault they are
not loaded (R271). -/
def Obligations.StepRunsTheDecodedCommand : Prop :=
  ∀ (s : State) (w : CommandWord) (rest : List Input) (i : Instr),
    s.inputs = .command w :: rest → s.inFlight = false → decode w = .ok i →
    ∃ u, step s = exec i u ∧
      u = { s with
        inputs := rest, cycle := u.cycle, time := u.time, draws := u.draws, meter := u.meter
        a := if s.fault = none then i.operandA else s.a
        b := if s.fault = none then i.operandB else s.b } ∧
      s.time ≤ u.time ∧ u.cycle = s.conf.cutCycles (s.cycle.toNat + (u.time - s.time))

/-- R110: an illegal word raises `Abort(IllegalCommand)`, code 4, and has no other effect, however it was to be run; the
clock counts. -/
def Obligations.IllegalWordAborts : Prop :=
  ∀ (s : State) (w : CommandWord) (rest : List Input) (e : DecodeError),
    s.inputs = .command w :: rest ∨ s.inputs = .start w :: rest →
    s.inFlight = false → s.fault = none → decode w = .error e →
    ∃ t, step s = .next t ∧ t.faultCode = 4 ∧
      t = { s with
        inputs := rest, fault := some .illegalCommand
        trace := s.trace ++ [⟨t.time, .abort .illegalCommand⟩]
        completions := s.completions ++ [⟨.aborted, none⟩]
        cycle := t.cycle, time := t.time, draws := t.draws }

/-- R210, R123, R166: a `.start` entry issues a word as a `.command` entry does, and the step is the command's first
row; an `.engine` entry gives the engine the step, which is one row of what is in flight and nothing otherwise. In its
first row a wait, a delay or a send begins; it aborts when, and as, the whole command does. The thirteen other commands
are one row, that of the whole command. The `Low` event of a `SEND` carries the instant before its pin write's cycles
(log entry 7), which are at most `PIN_OVH` (R146). That `inputs` says which command runs in rows is the model's form
(log entries 3 and 4). -/
def Obligations.StartedCommandRunsInRows : Prop :=
  (∀ (s : State) (w : CommandWord) (rest : List Input) (i : Instr),
    s.inputs = .start w :: rest → s.inFlight = false → decode w = .ok i →
    ∃ u, step s = startRow i u ∧
      u = { s with
        inputs := rest, cycle := u.cycle, time := u.time, draws := u.draws, meter := u.meter
        a := if s.fault = none then i.operandA else s.a
        b := if s.fault = none then i.operandB else s.b } ∧
      s.time ≤ u.time ∧ u.cycle = s.conf.cutCycles (s.cycle.toNat + (u.time - s.time))) ∧
  (∀ (s : State) (rest : List Input), s.inputs = .engine :: rest →
    step s = if s.inFlight = true then State.engineRow { s with inputs := rest } else .next { s with inputs := rest }) ∧
  (∀ s : State, s.Ready →
    (∀ n, n.toNat < 2 ^ s.conf.cw → ∃ t, startRow (.waitCycles n) s = .next t ∧
      t = { s with
        wact := true, wn := n, wstart := s.cycle, waitBegan := s.time
        trace := s.trace ++ [⟨s.time, .wait n.toNat⟩] }) ∧
    (s.lock = false → ∀ d, ∃ t, startRow (.delayMs d) s = .next t ∧
      t = { s with
        drem := some ⟨d.toNat, s.time⟩, trace := s.trace ++ [⟨s.time, .delayMs d.toNat⟩] }) ∧
    (s.lock = false → s.cfg = true → ∃ t, startRow .send s = .next t ∧
      s.time ≤ t.time ∧ t.time ≤ s.time + s.conf.pinOvh ∧
      t.cycle = s.conf.cutCycles (s.cycle.toNat + (t.time - s.time)) ∧
      t = { s with
        phase := .framing, widx := 0, bidx := 0, kidx := 7, out := s.out &&& ~~~s.conf.pinMask
        trace := s.trace ++ [⟨s.time, .low s.conf.pinMask⟩], cycle := t.cycle, time := t.time })) ∧
  (∀ (i : Instr) (s t : State), s.fault = none → t.fault ≠ none →
    (startRow i s = .next t ↔ exec i s = .next t)) ∧
  (∀ (i : Instr) (s : State), (∀ n, i ≠ .waitCycles n) → (∀ d, i ≠ .delayMs d) → i ≠ .send →
    startRow i s = exec i s)

/-- R72: the issuer is blocked while a command is in flight: its next word stays where it is, however it is to be
run. -/
def Obligations.IssuerWaitsForTheCommandInFlight : Prop :=
  ∀ (s t : State) (w : CommandWord) (rest : List Input),
    s.inputs = .command w :: rest ∨ s.inputs = .start w :: rest → s.inFlight = true → step s = .next t →
    t.inputs = s.inputs

/-- R301: with no command the engine does nothing; the clock runs. -/
def Obligations.IdleEngineOnlyCounts : Prop :=
  ∀ s : State, s.inputs = [] → s.inFlight = false →
    ∃ t, step s = .next t ∧ t = { s with cycle := t.cycle, time := t.time, draws := t.draws } ∧
      s.time ≤ t.time

/-- R14, R21: in every step `CYCLE` advances by the cycles that pass, modulo `2^CW`. -/
def Obligations.CycleCountsEveryCycle : Prop :=
  ∀ s t : State, s.Inv → step s = .next t →
    s.time ≤ t.time ∧ t.cycle.toNat = (s.cycle.toNat + (t.time - s.time)) % 2 ^ s.conf.cw

/-! ### Aborts -/

/-- R271: under a standing fault every command, legal or not, run whole or in rows, completes aborted, changes nothing
and emits nothing; the clock still counts. -/
def Obligations.StandingFaultRefusesEveryCommand : Prop :=
  (∀ (i : Instr) (s : State), s.fault ≠ none →
    exec i s = .next { s with completions := s.completions ++ [⟨.aborted, none⟩] } ∧
    startRow i s = .next { s with completions := s.completions ++ [⟨.aborted, none⟩] }) ∧
  (∀ (s : State) (w : CommandWord) (rest : List Input),
    s.inputs = .command w :: rest ∨ s.inputs = .start w :: rest → s.inFlight = false → s.fault ≠ none →
    ∃ t, step s = .next t ∧
      t = { s with
        inputs := rest, completions := s.completions ++ [⟨.aborted, none⟩]
        cycle := t.cycle, time := t.time, draws := t.draws, meter := t.meter })

/-- R272: no step clears `FAULT` or changes the first cause. -/
def Obligations.FaultIsSticky : Prop :=
  ∀ (s t : State) (c : Cause), s.fault = some c → step s = .next t → t.fault = some c

/-- R270, R274: a command that aborts records its cause, emits `Abort`, and changes nothing else, whichever
command it is. -/
def Obligations.AbortDoesNothingElse : Prop :=
  ∀ (i : Instr) (s t : State), s.fault = none → exec i s = .next t → t.fault ≠ none →
    ∃ c, s.Aborts t c

/-- R267, R273: a command that finds `PHASE != Idle` aborts with `Busy`, code 6, whatever else is wrong with
it. That `exec` looks, although one issuer cannot meet it, is the model's choice (log entry 12). -/
def Obligations.CommandDuringASendIsBusy : Prop :=
  ∀ (i : Instr) (s : State), s.fault = none → s.phase ≠ .idle →
    ∃ t, exec i s = .next t ∧ s.Aborts t .busy ∧ t.faultCode = 6

/-- R164, R265, R273: the four misuses of the lock abort with code 5; for `SEND` whether or not the pins are
configured. -/
def Obligations.LockMisuseAborts : Prop :=
  ∀ s : State, s.Ready →
    (s.lock = true → ∃ t, exec .lock s = .next t ∧ s.Aborts t .lockMisuse ∧ t.faultCode = 5) ∧
    (s.lock = false → ∃ t, exec .unlock s = .next t ∧ s.Aborts t .lockMisuse ∧ t.faultCode = 5) ∧
    (s.lock = true → ∃ t, exec .send s = .next t ∧ s.Aborts t .lockMisuse ∧ t.faultCode = 5) ∧
    (∀ d, s.lock = true → ∃ t, exec (.delayMs d) s = .next t ∧ s.Aborts t .lockMisuse ∧ t.faultCode = 5)

/-- R262: an index outside its bound aborts with code 1 before the buffer is touched. -/
def Obligations.IndexOutOfRangeAborts : Prop :=
  ∀ (s : State) (k : Word), s.Ready →
    (s.conf.pixels ≤ k.toNat → ∃ t, exec (.pixRd k) s = .next t ∧ s.Aborts t .indexOutOfRange ∧ t.faultCode = 1) ∧
    (s.conf.pixels ≤ k.toNat → ∀ c, ∃ t, exec (.pixWr k c) s = .next t ∧ s.Aborts t .indexOutOfRange ∧ t.faultCode = 1) ∧
    (s.conf.words ≤ k.toNat → ∃ t, exec (.wordRd k) s = .next t ∧ s.Aborts t .indexOutOfRange ∧ t.faultCode = 1)

/-- R242, R263: a factor outside `[0,255)`, read as signed, aborts with code 2 before `RES` is written. -/
def Obligations.ScaleOutOfRangeAborts : Prop :=
  ∀ (s : State) (c : Colour) (f : Word), s.Ready → (f.toInt < 0 ∨ 255 ≤ f.toInt) →
    ∃ t, exec (.scale c f) s = .next t ∧ s.Aborts t .scaleOutOfRange ∧ t.faultCode = 2 ∧ t.res = s.res

/-- R101: a non-zero bit above `CW` or `PW` aborts with code 4. -/
def Obligations.OperandAboveWidthAborts : Prop :=
  ∀ (s : State) (x : Word), s.Ready →
    (2 ^ s.conf.cw ≤ x.toNat → ∃ t, exec (.waitCycles x) s = .next t ∧ s.Aborts t .illegalCommand ∧ t.faultCode = 4) ∧
    (2 ^ s.conf.pw ≤ x.toNat → ∃ t, exec (.assert x) s = .next t ∧ s.Aborts t .illegalCommand ∧ t.faultCode = 4) ∧
    (2 ^ s.conf.pw ≤ x.toNat → ∃ t, exec (.deassert x) s = .next t ∧ s.Aborts t .illegalCommand ∧ t.faultCode = 4)

/-- R264: `SEND` with `CFG = 0` aborts with code 3 before step 1; it changes no pin, takes no lock and emits
nothing but its `Abort`. `ASSERT` and `DEASSERT` do not raise it. -/
def Obligations.UnconfiguredSendAborts : Prop :=
  ∀ s : State, s.Ready → s.lock = false → s.cfg = false →
    (∃ t, exec .send s = .next t ∧ s.Aborts t .notConfigured ∧ t.faultCode = 3) ∧
    (∀ m, m.toNat < 2 ^ s.conf.pw →
      (∃ t, exec (.assert m) s = .next t ∧ t.fault = none) ∧
      (∃ t, exec (.deassert m) s = .next t ∧ t.fault = none))

/-- R102, R39, R70, R212: in every state every command run whole completes with exactly one completion; it is
`aborted` exactly when `FAULT` is then set, and hands over `RES` exactly for the seven commands that write it; and from a
state at rest it leaves one, with nothing in flight. That a
`WAITCYCLES` with `LOCK = 0` completes is the assumption R319 names, which the model makes for a command run whole (log
entry 23), not for one run in rows; that commands are run whole is log entry 4. -/
def Obligations.EveryCommandCompletesOnce : Prop :=
  ∀ (i : Instr) (s : State), ∃ t x, exec i s = .next t ∧ t.completions = s.completions ++ [x] ∧
    (x.status = .aborted ↔ t.fault ≠ none) ∧
    x.value = (if t.fault = none ∧ returnsValue i = true then some t.res else none) ∧
    (s.AtRest → t.AtRest)

/-! ### Cycle timer -/

/-- R120: `NOW` returns the counter and changes nothing else. -/
def Obligations.NowReturnsTheCounter : Prop :=
  ∀ s : State, s.Ready → ∃ t, exec .now s = .next t ∧ s.Returns t s.cycle

/-- R69, R120: two reads of the counter one after the other differ by the cycles between them, at least 1, so they
return different values unless the counter has gone round. That a command is issued at least one cycle after the one
before it is the model's choice (log entry 5). -/
def Obligations.TwoReadsOfTheCounterDiffer : Prop :=
  ∀ (s : State) (w1 w2 : CommandWord) (rest : List Input),
    s.Inv → s.Ready → decode w1 = .ok .now → decode w2 = .ok .now →
    s.inputs = .command w1 :: .command w2 :: rest →
    ∃ s1 s2, step s = .next s1 ∧ step s1 = .next s2 ∧ s1.time < s2.time ∧
      s2.res.toNat = (s1.res.toNat + (s2.time - s1.time)) % 2 ^ s.conf.cw ∧
      (s2.time - s1.time < 2 ^ s.conf.cw → s2.res ≠ s1.res)

/-- R122, R123, R124: a wait lasts at least `n` cycles and ends when the exit test holds; under the lock it lasts
at most `WAIT_OVH` longer (R125; with no `NOW` before it log entry 6), and no pin changes. Its event, its registers, what
the environment does meanwhile with `LOCK = 0` (R16), and nothing else; what `RES` then holds is free (R39). That with
`LOCK = 0` it ends, for every `n`, is the assumption R319 names (log entry 23; log entry 6); how many steps the
environment takes is free (log entry 4). -/
def Obligations.WaitCyclesLastsAtLeastN : Prop :=
  ∀ (s : State) (n : Word), s.Inv → s.Ready → n.toNat < 2 ^ s.conf.cw →
    ∃ t, exec (.waitCycles n) s = .next t ∧
      s.time + n.toNat ≤ t.time ∧
      n.toNat ≤ (t.time - s.time) % 2 ^ s.conf.cw ∧
      t.cycle.toNat = (s.cycle.toNat + (t.time - s.time)) % 2 ^ s.conf.cw ∧
      waitDone s.conf.cw t.cycle s.cycle n = true ∧
      (s.lock = true → t.time ≤ s.time + n.toNat + s.conf.waitOvh ∧ t.out = s.out ∧ t.cfg = s.cfg) ∧
      s.EnvironmentActed t ∧
      t = { s with
        cycle := t.cycle, time := t.time, wstart := s.cycle, wn := n, wact := false, waitBegan := s.time
        trace := s.trace ++ [⟨s.time, .wait n.toNat⟩]
        completions := s.completions ++ [⟨.ok, none⟩]
        cfg := t.cfg, out := t.out, pend := t.pend, inputs := t.inputs
        res := t.res, draws := t.draws, meter := t.meter }

/-- R125: with `LOCK = 1`, the cycles from the `NOW` before a `WAITCYCLES n` to the `NOW` after it are in
`n .. n + WAIT_OVH`, and the difference of the two results is that number modulo `2^CW`. -/
def Obligations.LockedWaitMeasuresWithinOverhead : Prop :=
  ∀ (s : State) (n : Word) (w1 w2 w3 : CommandWord) (rest : List Input),
    s.Inv → s.Ready → s.lock = true → n.toNat < 2 ^ s.conf.cw →
    decode w1 = .ok .now → decode w2 = .ok (.waitCycles n) → decode w3 = .ok .now →
    s.inputs = .command w1 :: .command w2 :: .command w3 :: rest →
    ∃ s1 s2 s3, step s = .next s1 ∧ step s1 = .next s2 ∧ step s2 = .next s3 ∧
      s1.res = s1.cycle ∧ s3.res = s3.cycle ∧
      s1.time + n.toNat ≤ s3.time ∧ s3.time ≤ s1.time + n.toNat + s.conf.waitOvh ∧
      s3.res.toNat = (s1.res.toNat + (s3.time - s1.time)) % 2 ^ s.conf.cw

/-- R123, R124: a poll counts on from the entry sample, and one that ends the wait comes at least `n` cycles
after entry, whatever the gaps between polls; under the lock no poll carries a wait further past that than `WAIT_OVH`,
for `Wait(0)` too. R125 says so of a `WAITCYCLES` between two `NOW`s; of the waits of a send, and of a wait with no `NOW`
before it, it is the model's reading (log entry 6). A `WAITCYCLES` then completes; nothing else changes. -/
def Obligations.PollNeverEndsAWaitEarly : Prop :=
  ∀ s : State, s.Inv → s.wact = true →
    ∃ t, s.engineRow = .next t ∧ s.time ≤ t.time ∧
      t.cycle.toNat = (s.wstart.toNat + (t.time - s.waitBegan)) % 2 ^ s.conf.cw ∧
      (t.wact = false ↔ waitDone s.conf.cw t.cycle s.wstart s.wn = true) ∧
      (t.wact = false → s.waitBegan + s.wn.toNat ≤ t.time) ∧
      (s.lock = false → s.time < t.time) ∧
      (s.lock = true → s.time < s.waitBegan + s.wn.toNat → s.time < t.time) ∧
      (s.lock = true → s.time ≤ s.waitBegan + s.wn.toNat + s.conf.waitOvh →
        t.time ≤ s.waitBegan + s.wn.toNat + s.conf.waitOvh) ∧
      t.completions = s.completions ++ (if s.phase = .idle ∧ t.wact = false then [⟨.ok, none⟩] else []) ∧
      t = { s with
        cycle := t.cycle, time := t.time, wact := t.wact, completions := t.completions
        res := t.res, draws := t.draws, meter := t.meter }

/-- R124, R125, R166: begun in small steps, a `WAITCYCLES` under the lock ends after some number of polls, no sooner than
`n` cycles after its entry and no later than `WAIT_OVH` after that, and a `DELAYMS` ends after some number of rows, no
sooner than `d` milliseconds after its entry; they complete. That a wait with no `NOW` before it is bounded too, and that
a delay ends at the first look that finds its time past, is the model's choice (log entries 6 and 15). Of a wait with
`LOCK = 0` nothing of the kind is stated (R319). -/
def Obligations.RowsOfWaitsAndDelaysComplete : Prop :=
  (∀ (s : State) (n : Word), s.Inv → s.Ready → s.lock = true → n.toNat < 2 ^ s.conf.cw →
    ∃ k t u, startRow (.waitCycles n) s = .next t ∧ rows k t = .next u ∧ u.inFlight = false ∧
      s.time + n.toNat ≤ u.time ∧ u.time ≤ s.time + n.toNat + s.conf.waitOvh ∧
      u.cycle.toNat = (s.cycle.toNat + (u.time - s.time)) % 2 ^ s.conf.cw ∧
      u = { s with
        cycle := u.cycle, time := u.time, wstart := s.cycle, wn := n, waitBegan := s.time
        trace := s.trace ++ [⟨s.time, .wait n.toNat⟩], completions := s.completions ++ [⟨.ok, none⟩]
        res := u.res, draws := u.draws, meter := u.meter }) ∧
  (∀ (s : State) (d : Word), s.Ready → s.lock = false →
    ∃ k t u, startRow (.delayMs d) s = .next t ∧ rows k t = .next u ∧ u.inFlight = false ∧
      s.time ≤ u.time ∧ d.toNat * s.conf.clkHz ≤ 1000 * (u.time - s.time) ∧
      u = { s with
        cycle := u.cycle, time := u.time, trace := s.trace ++ [⟨s.time, .delayMs d.toNat⟩]
        completions := s.completions ++ [⟨.ok, none⟩], res := u.res, draws := u.draws, meter := .off })

/-! ### Pin driver -/

/-- R140 and R180: `MASK` returns `PIN_MASK`, `SIZE` the pixel count, and nothing else changes. -/
def Obligations.MaskAndSizeReadTheConfiguration : Prop :=
  ∀ s : State, s.Inv → s.Ready →
    (∃ t, exec .mask s = .next t ∧ s.Returns t s.conf.pinMask) ∧
    (∃ t v, exec .size s = .next t ∧ s.Returns t v ∧ v.toNat = s.conf.pixels)

/-- R142 to R146: `ASSERT m` sets exactly the pins of `m`, `DEASSERT m` clears them, for every `m` that fits
`PW`, `m = 0` among them; one event each; at most `PIN_OVH` cycles; nothing else, and `RES` is free (R39). That the
event carries the instant before the write's cycles pass is the model's choice (log entry 7). -/
def Obligations.PinWritesChangeTheirMask : Prop :=
  ∀ (s : State) (m : Word), s.Ready → m.toNat < 2 ^ s.conf.pw →
    (∃ t, exec (.assert m) s = .next t ∧
      s.time ≤ t.time ∧ t.time ≤ s.time + s.conf.pinOvh ∧
      t.cycle = s.conf.cutCycles (s.cycle.toNat + (t.time - s.time)) ∧
      t = { s with
        out := s.out ||| m, trace := s.trace ++ [⟨s.time, .high m⟩]
        cycle := t.cycle, time := t.time, completions := s.completions ++ [⟨.ok, none⟩]
        res := t.res, draws := t.draws, meter := t.meter }) ∧
    (∃ t, exec (.deassert m) s = .next t ∧
      s.time ≤ t.time ∧ t.time ≤ s.time + s.conf.pinOvh ∧
      t.cycle = s.conf.cutCycles (s.cycle.toNat + (t.time - s.time)) ∧
      t = { s with
        out := s.out &&& ~~~m, trace := s.trace ++ [⟨s.time, .low m⟩]
        cycle := t.cycle, time := t.time, completions := s.completions ++ [⟨.ok, none⟩]
        res := t.res, draws := t.draws, meter := t.meter })

/-- R146: a pin write takes "the same number on every call", set or clear, whatever the mask and the state, and that
is at most `PIN_OVH`: in `ASSERT` and `DEASSERT`, and of the two primitives, which every pin write of `SEND` is. -/
def Obligations.PinWritesTakeOneTime : Prop :=
  (∀ (s s' t t' : State) (m m' : Word), s.Ready → s'.Ready → s'.conf = s.conf →
    m.toNat < 2 ^ s.conf.pw → m'.toNat < 2 ^ s.conf.pw →
    (exec (.assert m) s = .next t ∨ exec (.deassert m) s = .next t) →
    (exec (.assert m') s' = .next t' ∨ exec (.deassert m') s' = .next t') →
    t.time - s.time = t'.time - s'.time ∧ t.time - s.time ≤ s.conf.pinOvh) ∧
  (∀ (s s' : State) (m m' : Word), s'.conf = s.conf →
    (s.pinSet m).time - s.time = (s'.pinClr m').time - s'.time ∧
    (s.pinSet m).time - s.time = (s'.pinSet m').time - s'.time ∧
    (s.pinSet m).time - s.time ≤ s.conf.pinOvh)

/-- R24, R76: a pin outside every mask the engine is given is not changed by any command; while a wait, a delay or a
send leaves `LOCK = 0` the environment may change pins outside `PIN_MASK`, if it has anything to do. -/
def Obligations.PinsOutsideTheMaskKeepTheirLevel : Prop :=
  ∀ (i : Instr) (s t : State) (p : Nat), exec i s = .next t → t.out.getLsbD p ≠ s.out.getLsbD p →
    (∃ m : Word, (i = .assert m ∨ i = .deassert m) ∧ m.getLsbD p = true) ∨
    (i = .send ∧ s.conf.pinMask.getLsbD p = true) ∨
    ((i = .send ∨ (∃ n, i = .waitCycles n) ∨ ∃ d, i = .delayMs d) ∧
      s.lock = false ∧ s.quiet = false ∧ s.conf.pinMask.getLsbD p = false)

/-! ### Critical section and delay -/

/-- R160, R161, R163, R165: `LOCK` from a free section and `UNLOCK` from a held one set and clear `LOCK`, emit
their event, and change nothing else; `RES` is free (R39). -/
def Obligations.LockAndUnlockSwitchTheSection : Prop :=
  ∀ s : State, s.Ready →
    (s.lock = false → ∃ t, exec .lock s = .next t ∧
      t = { s with
        lock := true, trace := s.trace ++ [⟨s.time, .lock⟩]
        completions := s.completions ++ [⟨.ok, none⟩], res := t.res, draws := t.draws, meter := t.meter }) ∧
    (s.lock = true → ∃ t, exec .unlock s = .next t ∧
      t = { s with
        lock := false, trace := s.trace ++ [⟨s.time, .unlock⟩]
        completions := s.completions ++ [⟨.ok, none⟩], res := t.res, draws := t.draws, meter := t.meter })

/-- R166, R167: `DELAYMS d` emits its event and completes no earlier than `d` milliseconds, `d * CLK_HZ / 1000`
cycles, later; the environment may step meanwhile, and nothing else changes; `RES` is free (R39). How many steps the
environment takes is free (log entry 4). -/
def Obligations.DelayLastsAtLeastItsTime : Prop :=
  ∀ (s : State) (d : Word), s.Inv → s.Ready → s.lock = false →
    ∃ t, exec (.delayMs d) s = .next t ∧
      s.time ≤ t.time ∧ d.toNat * s.conf.clkHz ≤ 1000 * (t.time - s.time) ∧
      t.cycle.toNat = (s.cycle.toNat + (t.time - s.time)) % 2 ^ s.conf.cw ∧
      s.EnvironmentActed t ∧
      t = { s with
        trace := s.trace ++ [⟨s.time, .delayMs d.toNat⟩]
        cycle := t.cycle, time := t.time, completions := s.completions ++ [⟨.ok, none⟩]
        cfg := t.cfg, out := t.out, pend := t.pend, inputs := t.inputs
        res := t.res, draws := t.draws, meter := t.meter }

/-- R36, R166: a row of a delay in flight ends it no sooner than `d` milliseconds after it began, and changes
neither the pins nor the buffer nor the lock nor anything else but the clock; a `DELAYMS` then completes. That a row
which keeps the delay takes at least one cycle is the model's choice (log entry 15), in the sense of R210's "between any
two rows the clock ticks", which R210 says of the rows of a send. -/
def Obligations.DelayInFlightNeverEndsEarly : Prop :=
  ∀ (s : State) (d : Delay), s.wact = false → s.drem = some d →
    ∃ t, s.engineRow = .next t ∧ s.time ≤ t.time ∧ (t.drem = none ∨ t.drem = some d) ∧
      (t.drem = none → d.ms * s.conf.clkHz ≤ 1000 * (t.time - d.began)) ∧
      (t.drem ≠ none → s.time < t.time) ∧
      t.completions = s.completions ++ (if s.phase = .idle ∧ t.drem = none then [⟨.ok, none⟩] else []) ∧
      t = { s with
        cycle := t.cycle, time := t.time, drem := t.drem, completions := t.completions
        res := t.res, draws := t.draws, meter := t.meter }

/-- R161, R163, R164, R168: the events of any command take the lock only when free and release it only when
held, delay only when free, and leave `LOCK` as the last of them says; a send releases what it takes. -/
def Obligations.CommandsKeepLockDiscipline : Prop :=
  ∀ (i : Instr) (s t : State), exec i s = .next t →
    (∃ new, t.events = s.events ++ new ∧ LockDiscipline s.lock new ∧ lockAfter s.lock new = t.lock) ∧
    (i = .send → t.lock = s.lock)

/-- R162, R32: with `LOCK = 1` what arises is added to `PEND`, which stays a set, what is asked to be served is not,
and nothing else changes. That the pin configurator's action and another agent's pin write wait in `PEND` like an
interrupt, and that what was asked to be served is let go, is the model's choice (log entry 10). -/
def Obligations.EnvironmentHasNoStepUnderTheLock : Prop :=
  ∀ (s : State) (rest : List Input), s.lock = true →
    (∀ e, s.inputs = .arise e :: rest → ∃ t, step s = .next t ∧
      t = { s with inputs := rest, pend := t.pend } ∧ (∀ x, x ∈ t.pend ↔ x = e ∨ x ∈ s.pend) ∧
      (s.pend.Nodup → t.pend.Nodup)) ∧
    (∀ k, s.inputs = .serve k :: rest → step s = .next { s with inputs := rest })

/-- R76, R276, R30, R147: with `LOCK = 0` a step of the environment takes time and changes at most `CFG` and pins
outside `PIN_MASK`; nothing of the buffer, the serializer, the lock, the fault, the port or the trace. Serving takes a
request out of `PEND`. The pin configurator sets `CFG` and no pin; another agent's pin write with a mask disjoint from
`PIN_MASK` sets or clears its pins, cut to `PW` bits, and not `CFG`; an interrupt changes neither; serving a request does
what it would have done when it arose. That all of them reach the machine through `inputs` is the model's form (log
entry 10). -/
def Obligations.EnvironmentChangesNothingTheEngineOwns : Prop :=
  (∀ (s t : State) (rest : List Input),
    ((∃ e, s.inputs = .arise e :: rest) ∨ ∃ k, s.inputs = .serve k :: rest) →
    s.lock = false → step s = .next t →
    t = { s with
      inputs := rest, cfg := t.cfg, out := t.out, pend := t.pend
      cycle := t.cycle, time := t.time, draws := t.draws } ∧
    s.time ≤ t.time ∧ t.out &&& s.conf.pinMask = s.out &&& s.conf.pinMask ∧
    (∀ k, s.inputs = .serve k :: rest → t.pend = s.pend.eraseIdx k) ∧
    (∀ e, s.inputs = .arise e :: rest → t.pend = s.pend)) ∧
  (∀ (s : State) (rest : List Input), s.lock = false →
    (∀ b, s.inputs = .arise (.configure b) :: rest →
      ∃ t, step s = .next t ∧ t.cfg = b ∧ t.out = s.out) ∧
    (∀ high m, s.inputs = .arise (.drive high m) :: rest → m &&& s.conf.pinMask = 0 →
      ∃ t, step s = .next t ∧ t.cfg = s.cfg ∧
        ∀ p, p < 32 → t.out.getLsbD p =
          if m.getLsbD p = true ∧ p < s.conf.pw then high else s.out.getLsbD p) ∧
    (∀ n, s.inputs = .arise (.interrupt n) :: rest →
      ∃ t, step s = .next t ∧ t.cfg = s.cfg ∧ t.out = s.out) ∧
    (∀ k e, s.inputs = .serve k :: rest → s.pend[k]? = some e →
      step s = step { s with inputs := .arise e :: rest, pend := s.pend.eraseIdx k }) ∧
    (∀ k, s.inputs = .serve k :: rest → s.pend[k]? = none →
      ∃ t, step s = .next t ∧ t.cfg = s.cfg ∧ t.out = s.out ∧ t.pend = s.pend))

/-- U3, R76 assign no behaviour to an environment that drives a pin of `PIN_MASK`, when that arises or when it is
served; that the model stops there, and under this name, is its choice (log entry 11). -/
def Obligations.DrivingTheEnginesPinsIsRefused : Prop :=
  ∀ (s : State) (high : Bool) (m : Word) (rest : List Input), s.lock = false → m &&& s.conf.pinMask ≠ 0 →
    (s.inputs = .arise (.drive high m) :: rest → step s = .refused (.sharedPin m)) ∧
    (∀ k, s.inputs = .serve k :: rest → s.pend[k]? = some (.drive high m) → step s = .refused (.sharedPin m))

/-! ### Pixel buffer -/

/-- R182: `PIXRD i` returns green, red and blue of pixel `i`, from bytes `3i`, `3i+1`, `3i+2`, and changes
nothing else. -/
def Obligations.PixRdReturnsThePixel : Prop :=
  ∀ (s : State) (k : Word), s.Ready → k.toNat < s.conf.pixels →
    ∃ t, exec (.pixRd k) s = .next t ∧
      s.Returns t ((Memory.read s.buf (3 * k.toNat) ++ Memory.read s.buf (3 * k.toNat + 1) ++
        Memory.read s.buf (3 * k.toNat + 2)).setWidth 32)

/-- R185: `PIXWR i, colour` changes exactly the three bytes of the pixel; every other byte of the buffer reads as
before, and nothing else changes but the completion; `RES` is free (R39). -/
def Obligations.PixWrWritesExactlyThePixel : Prop :=
  ∀ (s : State) (k : Word) (c : Colour), s.Inv → s.Ready → k.toNat < s.conf.pixels →
    ∃ t, exec (.pixWr k c) s = .next t ∧
      Memory.read t.buf (3 * k.toNat) = c.extractLsb' 16 8 ∧
      Memory.read t.buf (3 * k.toNat + 1) = c.extractLsb' 8 8 ∧
      Memory.read t.buf (3 * k.toNat + 2) = c.extractLsb' 0 8 ∧
      (∀ addr, addr < 3 * k.toNat ∨ 3 * k.toNat + 3 ≤ addr →
        Memory.read t.buf addr = Memory.read s.buf addr) ∧
      t = { s with
        buf := t.buf, completions := s.completions ++ [⟨.ok, none⟩]
        res := t.res, draws := t.draws, meter := t.meter }

/-- R187: a pixel written and read back is the colour written, and no other pixel's reading changes. -/
def Obligations.PixelRoundTripAndIndependence : Prop :=
  ∀ (s : State) (i j : Word) (c : Colour), s.Inv → s.Ready →
    i.toNat < s.conf.pixels → j.toNat < s.conf.pixels →
    ∃ t u v, exec (.pixWr i c) s = .next t ∧ exec (.pixRd j) t = .next u ∧ exec (.pixRd j) s = .next v ∧
      u.res = if j = i then c.setWidth 32 else v.res

/-- R188: after `BUFRESET` every byte of the buffer reads 0; no pin, no phase, no event, nothing else; `RES` is
free (R39). -/
def Obligations.BufResetZeroesTheBuffer : Prop :=
  ∀ s : State, s.Ready →
    ∃ t, exec .bufReset s = .next t ∧
      (∀ addr, addr < 4 * s.conf.words → Memory.read t.buf addr = 0) ∧
      (∀ addr, 4 * s.conf.words ≤ addr → Memory.read t.buf addr = Memory.read s.buf addr) ∧
      t = { s with
        buf := t.buf, completions := s.completions ++ [⟨.ok, none⟩]
        res := t.res, draws := t.draws, meter := t.meter }

/-- R191, R63: `WORDRD j` returns the four bytes from `4j` on, by lane, and changes nothing else. -/
def Obligations.WordRdReturnsTheWord : Prop :=
  ∀ (s : State) (k : Word), s.Ready → k.toNat < s.conf.words →
    ∃ t, exec (.wordRd k) s = .next t ∧
      s.Returns t (
        let b := fun n => Memory.read s.buf (4 * k.toNat + n)
        match s.conf.lane with
        | .be => b 0 ++ b 1 ++ b 2 ++ b 3
        | .le => b 3 ++ b 2 ++ b 1 ++ b 0)

/-- R61: of all commands only `PIXWR` and `BUFRESET` change the buffer. -/
def Obligations.OnlyPixWrAndBufResetWriteTheBuffer : Prop :=
  ∀ (i : Instr) (s t : State), exec i s = .next t → t.buf ≠ s.buf →
    i = .bufReset ∨ ∃ k c, i = .pixWr k c

/-! ### Serializer -/

/-- R209: a `SEND` that passes its checks adds to the trace exactly the frame. -/
def Obligations.SendEmitsTheFrame : Prop :=
  ∀ s : State, s.Inv → s.Ready → s.lock = false → s.cfg = true →
    ∃ t, exec .send s = .next t ∧ t.events = s.events ++ s.frame

/-- R216: the state after a send. The buffer is as it was and a second send would repeat the frame, every pin of
the mask is low, nothing is in flight, the lock is free, `SHIFT` holds the last word sent, `CYCLE` has advanced by the whole
duration. The other pins, `CFG`, `PEND` and what is still to come are as some steps of the environment left them after
step 1, under the lock and in the delay (R74, R75); with nothing for it to do, as they were. How many steps it takes
is free (log entry 4). -/
def Obligations.SendLeavesTheEngineAtRest : Prop :=
  ∀ s : State, s.Inv → s.Ready → s.lock = false → s.cfg = true →
    ∃ t, exec .send s = .next t ∧ t.AtRest ∧ t.fault = none ∧ t.lock = false ∧ t.pinsLow ∧
      (0 < s.conf.words → s.wordRead (s.conf.words - 1) = some t.shift) ∧ t.frame = s.frame ∧
      s.time ≤ t.time ∧ t.cycle.toNat = (s.cycle.toNat + (t.time - s.time)) % 2 ^ s.conf.cw ∧
      s.EnvironmentActedInSend t ∧
      (s.quiet = true → t.out = s.out &&& ~~~s.conf.pinMask ∧ t.cfg = s.cfg ∧ t.pend = s.pend ∧
        t.inputs = s.inputs) ∧
      t = { s with
        out := t.out, cfg := t.cfg, pend := t.pend, inputs := t.inputs, shift := t.shift
        cycle := t.cycle, time := t.time, wstart := t.wstart, wn := t.wn, waitBegan := t.waitBegan
        trace := t.trace, completions := s.completions ++ [⟨.ok, none⟩]
        res := t.res, draws := t.draws, meter := t.meter }

/-- R210: the rows "must agree with" the big-step code. From the first row on some number of rows, with no environment
step between them, completes the send, with the same events as `SEND` taken whole; and, where the environment has
nothing to do, with the same registers: only times, the entry sample, free values and their bookkeeping may differ. -/
def Obligations.RowsOfASendAgreeWithTheBigStep : Prop :=
  ∀ s : State, s.Inv → s.Ready → s.lock = false → s.cfg = true →
    ∃ k t b u, exec .send s = .next t ∧ startRow .send s = .next b ∧ rows k b = .next u ∧ u.inFlight = false ∧
      u.events = t.events ∧ u.completions = t.completions ∧
      (s.quiet = true → u = { t with
        cycle := u.cycle, time := u.time, trace := u.trace, wstart := u.wstart, waitBegan := u.waitBegan
        res := u.res, draws := u.draws })

/-- R96, R94, R64: with `LANE = BE` the frame carries green, red, blue of pixel 0, then of pixel 1 and so on, each
byte's bit 7 first; with `LANE = LE` the bytes of each group of four are reversed. -/
def Obligations.FrameCarriesTheBytesInLaneOrder : Prop :=
  ∀ (s : State) (addr k : Nat), addr < 4 * s.conf.words → k < 8 →
    s.frameBit (8 * addr + (7 - k)) =
      (Memory.read s.buf (match s.conf.lane with
        | .be => addr
        | .le => addr / 4 * 4 + (3 - addr % 4))).getLsbD k

/-- R33, R34, R35: what is true in each phase is kept by every step, of the engine, the issuer or the
environment. -/
def Obligations.EveryStepKeepsThePhaseInvariant : Prop :=
  ∀ s t : State, s.Inv → s.PhaseOk → step s = .next t → t.PhaseOk

/-! ### Colour arithmetic -/

/-- R240, R241: each channel times `f` over 255, truncated, for every `f` in `0 .. 254`; bits 31..24 are zero and
nothing else changes. -/
def Obligations.ScaleReturnsTheScaledColour : Prop :=
  ∀ (s : State) (c : Colour) (f : Word), s.Ready → f.toNat < 255 →
    ∃ t v, exec (.scale c f) s = .next t ∧ s.Returns t v ∧
      (v.extractLsb' 16 8).toNat = (c.extractLsb' 16 8).toNat * f.toNat / 255 ∧
      (v.extractLsb' 8 8).toNat = (c.extractLsb' 8 8).toNat * f.toNat / 255 ∧
      (v.extractLsb' 0 8).toNat = (c.extractLsb' 0 8).toNat * f.toNat / 255 ∧
      v.extractLsb' 24 8 = 0

/-- R243: scaling by 0 gives black; scaling by 254 takes 1 from every non-zero channel. -/
def Obligations.ScaleByZeroAndBy254 : Prop :=
  ∀ (s : State) (c : Colour), s.Ready →
    (∃ t, exec (.scale c 0) s = .next t ∧ t.res = 0) ∧
    (∃ t, exec (.scale c 254) s = .next t ∧
      (t.res.extractLsb' 16 8).toNat = (c.extractLsb' 16 8).toNat - 1 ∧
      (t.res.extractLsb' 8 8).toNat = (c.extractLsb' 8 8).toNat - 1 ∧
      (t.res.extractLsb' 0 8).toNat = (c.extractLsb' 0 8).toNat - 1)

/-- R245, R248: each channel plus the signed `d`, clamped to `0 .. 255`, on unbounded integers; bits 31..24 are
zero and nothing else changes. -/
def Obligations.OffsetReturnsTheClampedColour : Prop :=
  ∀ (s : State) (c : Colour) (d : Word), s.Ready →
    ∃ t v, exec (.offset c d) s = .next t ∧ s.Returns t v ∧
      ((v.extractLsb' 16 8).toNat : Int) = max 0 (min 255 (((c.extractLsb' 16 8).toNat : Int) + d.toInt)) ∧
      ((v.extractLsb' 8 8).toNat : Int) = max 0 (min 255 (((c.extractLsb' 8 8).toNat : Int) + d.toInt)) ∧
      ((v.extractLsb' 0 8).toNat : Int) = max 0 (min 255 (((c.extractLsb' 0 8).toNat : Int) + d.toInt)) ∧
      v.extractLsb' 24 8 = 0

/-! ### Invariants of every step -/

/-- Registers keep their widths, the buffer its canonical form and its zero padding (R189), `PEND` stays a set
(R32), the configuration stays valid (R268), and a wait in flight counts from its entry (R23). -/
def Obligations.EveryStepKeepsTheInvariant : Prop :=
  ∀ s t : State, s.Inv → step s = .next t → t.Inv

/-- The invariants hold after reset, for every configuration an engine can be built with; `State.reset` is the
reset of the one configuration log entry 1 names, which is the model's choice. -/
def Obligations.ResetMeetsTheInvariants : Prop :=
  (∀ (c : Config) (s : State), State.construct c = some s →
    s.Inv ∧ s.AtRest ∧ s.PhaseOk ∧ s.TraceOk) ∧
  State.construct Config.standard = some State.reset

/-- R15, R124, R166, R326: in the trace what follows a `Wait(n)` comes at least `n` cycles after it, what follows a
`DelayMs(d)` at least `d` milliseconds, whether commands run whole or in rows, with the wait or the delay in flight
too. -/
def Obligations.EveryStepKeepsTheTraceTimed : Prop :=
  ∀ s t : State, s.Inv → s.TraceOk → step s = .next t → t.TraceOk
end

