-- ==== Sys2Proof/Laws/Encoding.lean ====
section
/-! SUPPORT. The command word as a number: its three fields, the encoder, and the masks of 30_encoding.md R103. -/

namespace Sys2Proof

/-- Concatenation as a number (00_scope.md R12). -/
theorem toNat_concat {m n : Nat} (x : BitVec m) (y : BitVec n) :
    (x ++ y).toNat = x.toNat * 2 ^ n + y.toNat := by
  rw [BitVec.toNat_append, ← Nat.shiftLeft_add_eq_or_of_lt y.isLt, Nat.shiftLeft_eq]

/-- The word of a command as a number (R100). -/
theorem encode_toNat (i : Instr) :
    (encode i).toNat = i.opcode.toNat * 2 ^ 56 + i.operandB.toNat * 2 ^ 32 + i.operandA.toNat := by
  have h : (encode i).toNat = ((i.opcode ++ i.operandB) ++ i.operandA).toNat := rfl
  rw [h, toNat_concat, toNat_concat]
  omega

/-- Field `OP` as a number. -/
theorem opField_toNat (w : CommandWord) : (opField w).toNat = w.toNat / 2 ^ 56 := by
  have := w.isLt
  simp only [opField, BitVec.extractLsb'_toNat, Nat.shiftRight_eq_div_pow]
  omega

/-- Field `B` as a number. -/
theorem bField_toNat (w : CommandWord) : (bField w).toNat = w.toNat / 2 ^ 32 % 2 ^ 24 := by
  simp only [bField, BitVec.extractLsb'_toNat, Nat.shiftRight_eq_div_pow]

/-- Field `A` as a number. -/
theorem aField_toNat (w : CommandWord) : (aField w).toNat = w.toNat % 2 ^ 32 := by
  simp only [aField, BitVec.extractLsb'_toNat, Nat.shiftRight_eq_div_pow, Nat.pow_zero, Nat.div_one]

@[simp] theorem opField_encode (i : Instr) : opField (encode i) = i.opcode := by
  apply BitVec.eq_of_toNat_eq
  rw [opField_toNat, encode_toNat]
  have := i.operandA.isLt
  have := i.operandB.isLt
  omega

@[simp] theorem bField_encode (i : Instr) : bField (encode i) = i.operandB := by
  apply BitVec.eq_of_toNat_eq
  rw [bField_toNat, encode_toNat]
  have := i.operandA.isLt
  have := i.operandB.isLt
  omega

@[simp] theorem aField_encode (i : Instr) : aField (encode i) = i.operandA := by
  apply BitVec.eq_of_toNat_eq
  rw [aField_toNat, encode_toNat]
  have := i.operandA.isLt
  have := i.operandB.isLt
  omega

/-- A word is its three fields. -/
theorem word_of_fields (w : CommandWord) :
    w.toNat = (opField w).toNat * 2 ^ 56 + (bField w).toNat * 2 ^ 32 + (aField w).toNat := by
  rw [opField_toNat, bField_toNat, aField_toNat]
  have := w.isLt
  omega

/-- Keeping the bits from `k` on clears those below. -/
theorem and_top_toNat (w : CommandWord) (k : Nat) :
    (w &&& (BitVec.allOnes 64 <<< k)).toNat = w.toNat / 2 ^ k * 2 ^ k := by
  have h : w &&& (BitVec.allOnes 64 <<< k) = w >>> k <<< k := by
    apply BitVec.eq_of_getLsbD_eq
    intro i hi
    rw [BitVec.getLsbD_and, BitVec.getLsbD_shiftLeft, BitVec.getLsbD_shiftLeft, BitVec.getLsbD_ushiftRight,
      BitVec.getLsbD_allOnes]
    by_cases hk : i < k
    · simp [hk]
    · have h1 : k + (i - k) = i := by omega
      have h2 : i - k < 64 := by omega
      rw [h1, decide_eq_true hi, decide_eq_true h2, decide_eq_false hk]
      simp
  rw [h, BitVec.toNat_shiftLeft, BitVec.toNat_ushiftRight, Nat.shiftRight_eq_div_pow, Nat.shiftLeft_eq,
    Nat.mod_eq_of_lt]
  have := w.isLt
  have := Nat.div_mul_le_self w.toNat (2 ^ k)
  omega

/-- The mask of a format `Z` row. -/
theorem and_maskZ_toNat (w : CommandWord) : (w &&& 0xFFFFFFFFFFFFFFFF#64).toNat = w.toNat := by
  have h := and_top_toNat w 0
  simpa using h

/-- The mask of a format `A` row. -/
theorem and_maskA_toNat (w : CommandWord) :
    (w &&& 0xFFFFFFFF00000000#64).toNat = w.toNat / 2 ^ 32 * 2 ^ 32 := and_top_toNat w 32

/-- The mask of a format `AB` row. -/
theorem and_maskAB_toNat (w : CommandWord) :
    (w &&& 0xFF00000000000000#64).toNat = w.toNat / 2 ^ 56 * 2 ^ 56 := and_top_toNat w 56

end Sys2Proof
end

