-- ==== Sys2Proof/Laws/State.lean ====
section
/-! SUPPORT. One lemma per field and per update of State, each true by unfolding the update, so that no proof unfolds a record. -/

namespace Sys2Proof.Machine

/-! ### `State.pass` -/

@[simp] theorem State.pass_conf (s : State) (n : Nat) : (s.pass n).conf = s.conf := rfl
@[simp] theorem State.pass_cycle (s : State) (n : Nat) : (s.pass n).cycle = s.conf.cutCycles (s.cycle.toNat + n) := rfl
@[simp] theorem State.pass_out (s : State) (n : Nat) : (s.pass n).out = s.out := rfl
@[simp] theorem State.pass_cfg (s : State) (n : Nat) : (s.pass n).cfg = s.cfg := rfl
@[simp] theorem State.pass_buf (s : State) (n : Nat) : (s.pass n).buf = s.buf := rfl
@[simp] theorem State.pass_lock (s : State) (n : Nat) : (s.pass n).lock = s.lock := rfl
@[simp] theorem State.pass_pend (s : State) (n : Nat) : (s.pass n).pend = s.pend := rfl
@[simp] theorem State.pass_phase (s : State) (n : Nat) : (s.pass n).phase = s.phase := rfl
@[simp] theorem State.pass_widx (s : State) (n : Nat) : (s.pass n).widx = s.widx := rfl
@[simp] theorem State.pass_bidx (s : State) (n : Nat) : (s.pass n).bidx = s.bidx := rfl
@[simp] theorem State.pass_kidx (s : State) (n : Nat) : (s.pass n).kidx = s.kidx := rfl
@[simp] theorem State.pass_shift (s : State) (n : Nat) : (s.pass n).shift = s.shift := rfl
@[simp] theorem State.pass_wact (s : State) (n : Nat) : (s.pass n).wact = s.wact := rfl
@[simp] theorem State.pass_wstart (s : State) (n : Nat) : (s.pass n).wstart = s.wstart := rfl
@[simp] theorem State.pass_wn (s : State) (n : Nat) : (s.pass n).wn = s.wn := rfl
@[simp] theorem State.pass_drem (s : State) (n : Nat) : (s.pass n).drem = s.drem := rfl
@[simp] theorem State.pass_fault (s : State) (n : Nat) : (s.pass n).fault = s.fault := rfl
@[simp] theorem State.pass_a (s : State) (n : Nat) : (s.pass n).a = s.a := rfl
@[simp] theorem State.pass_b (s : State) (n : Nat) : (s.pass n).b = s.b := rfl
@[simp] theorem State.pass_res (s : State) (n : Nat) : (s.pass n).res = s.res := rfl
@[simp] theorem State.pass_waitBegan (s : State) (n : Nat) : (s.pass n).waitBegan = s.waitBegan := rfl
@[simp] theorem State.pass_time (s : State) (n : Nat) : (s.pass n).time = s.time + n := rfl
@[simp] theorem State.pass_trace (s : State) (n : Nat) : (s.pass n).trace = s.trace := rfl
@[simp] theorem State.pass_completions (s : State) (n : Nat) : (s.pass n).completions = s.completions := rfl
@[simp] theorem State.pass_inputs (s : State) (n : Nat) : (s.pass n).inputs = s.inputs := rfl
@[simp] theorem State.pass_draws (s : State) (n : Nat) : (s.pass n).draws = s.draws := rfl
@[simp] theorem State.pass_meter (s : State) (n : Nat) : (s.pass n).meter = s.meter := rfl

/-! ### `State.drift` -/

@[simp] theorem State.drift_conf (s : State) (limit : Option Nat) : (s.drift limit).conf = s.conf := rfl
@[simp] theorem State.drift_cycle (s : State) (limit : Option Nat) : (s.drift limit).cycle = s.conf.cutCycles (s.cycle.toNat + bounded limit (Config.freeCycles s.draws)) := rfl
@[simp] theorem State.drift_out (s : State) (limit : Option Nat) : (s.drift limit).out = s.out := rfl
@[simp] theorem State.drift_cfg (s : State) (limit : Option Nat) : (s.drift limit).cfg = s.cfg := rfl
@[simp] theorem State.drift_buf (s : State) (limit : Option Nat) : (s.drift limit).buf = s.buf := rfl
@[simp] theorem State.drift_lock (s : State) (limit : Option Nat) : (s.drift limit).lock = s.lock := rfl
@[simp] theorem State.drift_pend (s : State) (limit : Option Nat) : (s.drift limit).pend = s.pend := rfl
@[simp] theorem State.drift_phase (s : State) (limit : Option Nat) : (s.drift limit).phase = s.phase := rfl
@[simp] theorem State.drift_widx (s : State) (limit : Option Nat) : (s.drift limit).widx = s.widx := rfl
@[simp] theorem State.drift_bidx (s : State) (limit : Option Nat) : (s.drift limit).bidx = s.bidx := rfl
@[simp] theorem State.drift_kidx (s : State) (limit : Option Nat) : (s.drift limit).kidx = s.kidx := rfl
@[simp] theorem State.drift_shift (s : State) (limit : Option Nat) : (s.drift limit).shift = s.shift := rfl
@[simp] theorem State.drift_wact (s : State) (limit : Option Nat) : (s.drift limit).wact = s.wact := rfl
@[simp] theorem State.drift_wstart (s : State) (limit : Option Nat) : (s.drift limit).wstart = s.wstart := rfl
@[simp] theorem State.drift_wn (s : State) (limit : Option Nat) : (s.drift limit).wn = s.wn := rfl
@[simp] theorem State.drift_drem (s : State) (limit : Option Nat) : (s.drift limit).drem = s.drem := rfl
@[simp] theorem State.drift_fault (s : State) (limit : Option Nat) : (s.drift limit).fault = s.fault := rfl
@[simp] theorem State.drift_a (s : State) (limit : Option Nat) : (s.drift limit).a = s.a := rfl
@[simp] theorem State.drift_b (s : State) (limit : Option Nat) : (s.drift limit).b = s.b := rfl
@[simp] theorem State.drift_res (s : State) (limit : Option Nat) : (s.drift limit).res = s.res := rfl
@[simp] theorem State.drift_waitBegan (s : State) (limit : Option Nat) : (s.drift limit).waitBegan = s.waitBegan := rfl
@[simp] theorem State.drift_time (s : State) (limit : Option Nat) : (s.drift limit).time = s.time + bounded limit (Config.freeCycles s.draws) := rfl
@[simp] theorem State.drift_trace (s : State) (limit : Option Nat) : (s.drift limit).trace = s.trace := rfl
@[simp] theorem State.drift_completions (s : State) (limit : Option Nat) : (s.drift limit).completions = s.completions := rfl
@[simp] theorem State.drift_inputs (s : State) (limit : Option Nat) : (s.drift limit).inputs = s.inputs := rfl
@[simp] theorem State.drift_draws (s : State) (limit : Option Nat) : (s.drift limit).draws = s.draws + 1 := rfl
@[simp] theorem State.drift_meter (s : State) (limit : Option Nat) : (s.drift limit).meter = s.meter := rfl

/-! ### `State.emit` -/

@[simp] theorem State.emit_conf (s : State) (e : Event) : (s.emit e).conf = s.conf := rfl
@[simp] theorem State.emit_cycle (s : State) (e : Event) : (s.emit e).cycle = s.cycle := rfl
@[simp] theorem State.emit_out (s : State) (e : Event) : (s.emit e).out = s.out := rfl
@[simp] theorem State.emit_cfg (s : State) (e : Event) : (s.emit e).cfg = s.cfg := rfl
@[simp] theorem State.emit_buf (s : State) (e : Event) : (s.emit e).buf = s.buf := rfl
@[simp] theorem State.emit_lock (s : State) (e : Event) : (s.emit e).lock = s.lock := rfl
@[simp] theorem State.emit_pend (s : State) (e : Event) : (s.emit e).pend = s.pend := rfl
@[simp] theorem State.emit_phase (s : State) (e : Event) : (s.emit e).phase = s.phase := rfl
@[simp] theorem State.emit_widx (s : State) (e : Event) : (s.emit e).widx = s.widx := rfl
@[simp] theorem State.emit_bidx (s : State) (e : Event) : (s.emit e).bidx = s.bidx := rfl
@[simp] theorem State.emit_kidx (s : State) (e : Event) : (s.emit e).kidx = s.kidx := rfl
@[simp] theorem State.emit_shift (s : State) (e : Event) : (s.emit e).shift = s.shift := rfl
@[simp] theorem State.emit_wact (s : State) (e : Event) : (s.emit e).wact = s.wact := rfl
@[simp] theorem State.emit_wstart (s : State) (e : Event) : (s.emit e).wstart = s.wstart := rfl
@[simp] theorem State.emit_wn (s : State) (e : Event) : (s.emit e).wn = s.wn := rfl
@[simp] theorem State.emit_drem (s : State) (e : Event) : (s.emit e).drem = s.drem := rfl
@[simp] theorem State.emit_fault (s : State) (e : Event) : (s.emit e).fault = s.fault := rfl
@[simp] theorem State.emit_a (s : State) (e : Event) : (s.emit e).a = s.a := rfl
@[simp] theorem State.emit_b (s : State) (e : Event) : (s.emit e).b = s.b := rfl
@[simp] theorem State.emit_res (s : State) (e : Event) : (s.emit e).res = s.res := rfl
@[simp] theorem State.emit_waitBegan (s : State) (e : Event) : (s.emit e).waitBegan = s.waitBegan := rfl
@[simp] theorem State.emit_time (s : State) (e : Event) : (s.emit e).time = s.time := rfl
@[simp] theorem State.emit_trace (s : State) (e : Event) : (s.emit e).trace = s.trace ++ [Stamp.mk s.time e] := rfl
@[simp] theorem State.emit_completions (s : State) (e : Event) : (s.emit e).completions = s.completions := rfl
@[simp] theorem State.emit_inputs (s : State) (e : Event) : (s.emit e).inputs = s.inputs := rfl
@[simp] theorem State.emit_draws (s : State) (e : Event) : (s.emit e).draws = s.draws := rfl
@[simp] theorem State.emit_meter (s : State) (e : Event) : (s.emit e).meter = s.meter := rfl

/-! ### `State.pinSet` -/

@[simp] theorem State.pinSet_conf (s : State) (m : Word) : (s.pinSet m).conf = s.conf := rfl
@[simp] theorem State.pinSet_cycle (s : State) (m : Word) : (s.pinSet m).cycle = s.conf.cutCycles (s.cycle.toNat + s.conf.pinTime) := rfl
@[simp] theorem State.pinSet_out (s : State) (m : Word) : (s.pinSet m).out = s.out ||| m := rfl
@[simp] theorem State.pinSet_cfg (s : State) (m : Word) : (s.pinSet m).cfg = s.cfg := rfl
@[simp] theorem State.pinSet_buf (s : State) (m : Word) : (s.pinSet m).buf = s.buf := rfl
@[simp] theorem State.pinSet_lock (s : State) (m : Word) : (s.pinSet m).lock = s.lock := rfl
@[simp] theorem State.pinSet_pend (s : State) (m : Word) : (s.pinSet m).pend = s.pend := rfl
@[simp] theorem State.pinSet_phase (s : State) (m : Word) : (s.pinSet m).phase = s.phase := rfl
@[simp] theorem State.pinSet_widx (s : State) (m : Word) : (s.pinSet m).widx = s.widx := rfl
@[simp] theorem State.pinSet_bidx (s : State) (m : Word) : (s.pinSet m).bidx = s.bidx := rfl
@[simp] theorem State.pinSet_kidx (s : State) (m : Word) : (s.pinSet m).kidx = s.kidx := rfl
@[simp] theorem State.pinSet_shift (s : State) (m : Word) : (s.pinSet m).shift = s.shift := rfl
@[simp] theorem State.pinSet_wact (s : State) (m : Word) : (s.pinSet m).wact = s.wact := rfl
@[simp] theorem State.pinSet_wstart (s : State) (m : Word) : (s.pinSet m).wstart = s.wstart := rfl
@[simp] theorem State.pinSet_wn (s : State) (m : Word) : (s.pinSet m).wn = s.wn := rfl
@[simp] theorem State.pinSet_drem (s : State) (m : Word) : (s.pinSet m).drem = s.drem := rfl
@[simp] theorem State.pinSet_fault (s : State) (m : Word) : (s.pinSet m).fault = s.fault := rfl
@[simp] theorem State.pinSet_a (s : State) (m : Word) : (s.pinSet m).a = s.a := rfl
@[simp] theorem State.pinSet_b (s : State) (m : Word) : (s.pinSet m).b = s.b := rfl
@[simp] theorem State.pinSet_res (s : State) (m : Word) : (s.pinSet m).res = s.res := rfl
@[simp] theorem State.pinSet_waitBegan (s : State) (m : Word) : (s.pinSet m).waitBegan = s.waitBegan := rfl
@[simp] theorem State.pinSet_time (s : State) (m : Word) : (s.pinSet m).time = s.time + s.conf.pinTime := rfl
@[simp] theorem State.pinSet_trace (s : State) (m : Word) : (s.pinSet m).trace = s.trace ++ [Stamp.mk s.time (.high m)] := rfl
@[simp] theorem State.pinSet_completions (s : State) (m : Word) : (s.pinSet m).completions = s.completions := rfl
@[simp] theorem State.pinSet_inputs (s : State) (m : Word) : (s.pinSet m).inputs = s.inputs := rfl
@[simp] theorem State.pinSet_draws (s : State) (m : Word) : (s.pinSet m).draws = s.draws := rfl
@[simp] theorem State.pinSet_meter (s : State) (m : Word) : (s.pinSet m).meter = s.meter := rfl

/-! ### `State.pinClr` -/

@[simp] theorem State.pinClr_conf (s : State) (m : Word) : (s.pinClr m).conf = s.conf := rfl
@[simp] theorem State.pinClr_cycle (s : State) (m : Word) : (s.pinClr m).cycle = s.conf.cutCycles (s.cycle.toNat + s.conf.pinTime) := rfl
@[simp] theorem State.pinClr_out (s : State) (m : Word) : (s.pinClr m).out = s.out &&& ~~~m := rfl
@[simp] theorem State.pinClr_cfg (s : State) (m : Word) : (s.pinClr m).cfg = s.cfg := rfl
@[simp] theorem State.pinClr_buf (s : State) (m : Word) : (s.pinClr m).buf = s.buf := rfl
@[simp] theorem State.pinClr_lock (s : State) (m : Word) : (s.pinClr m).lock = s.lock := rfl
@[simp] theorem State.pinClr_pend (s : State) (m : Word) : (s.pinClr m).pend = s.pend := rfl
@[simp] theorem State.pinClr_phase (s : State) (m : Word) : (s.pinClr m).phase = s.phase := rfl
@[simp] theorem State.pinClr_widx (s : State) (m : Word) : (s.pinClr m).widx = s.widx := rfl
@[simp] theorem State.pinClr_bidx (s : State) (m : Word) : (s.pinClr m).bidx = s.bidx := rfl
@[simp] theorem State.pinClr_kidx (s : State) (m : Word) : (s.pinClr m).kidx = s.kidx := rfl
@[simp] theorem State.pinClr_shift (s : State) (m : Word) : (s.pinClr m).shift = s.shift := rfl
@[simp] theorem State.pinClr_wact (s : State) (m : Word) : (s.pinClr m).wact = s.wact := rfl
@[simp] theorem State.pinClr_wstart (s : State) (m : Word) : (s.pinClr m).wstart = s.wstart := rfl
@[simp] theorem State.pinClr_wn (s : State) (m : Word) : (s.pinClr m).wn = s.wn := rfl
@[simp] theorem State.pinClr_drem (s : State) (m : Word) : (s.pinClr m).drem = s.drem := rfl
@[simp] theorem State.pinClr_fault (s : State) (m : Word) : (s.pinClr m).fault = s.fault := rfl
@[simp] theorem State.pinClr_a (s : State) (m : Word) : (s.pinClr m).a = s.a := rfl
@[simp] theorem State.pinClr_b (s : State) (m : Word) : (s.pinClr m).b = s.b := rfl
@[simp] theorem State.pinClr_res (s : State) (m : Word) : (s.pinClr m).res = s.res := rfl
@[simp] theorem State.pinClr_waitBegan (s : State) (m : Word) : (s.pinClr m).waitBegan = s.waitBegan := rfl
@[simp] theorem State.pinClr_time (s : State) (m : Word) : (s.pinClr m).time = s.time + s.conf.pinTime := rfl
@[simp] theorem State.pinClr_trace (s : State) (m : Word) : (s.pinClr m).trace = s.trace ++ [Stamp.mk s.time (.low m)] := rfl
@[simp] theorem State.pinClr_completions (s : State) (m : Word) : (s.pinClr m).completions = s.completions := rfl
@[simp] theorem State.pinClr_inputs (s : State) (m : Word) : (s.pinClr m).inputs = s.inputs := rfl
@[simp] theorem State.pinClr_draws (s : State) (m : Word) : (s.pinClr m).draws = s.draws := rfl
@[simp] theorem State.pinClr_meter (s : State) (m : Word) : (s.pinClr m).meter = s.meter := rfl

/-! ### `State.acquire` -/

@[simp] theorem State.acquire_conf (s : State) : s.acquire.conf = s.conf := rfl
@[simp] theorem State.acquire_cycle (s : State) : s.acquire.cycle = s.cycle := rfl
@[simp] theorem State.acquire_out (s : State) : s.acquire.out = s.out := rfl
@[simp] theorem State.acquire_cfg (s : State) : s.acquire.cfg = s.cfg := rfl
@[simp] theorem State.acquire_buf (s : State) : s.acquire.buf = s.buf := rfl
@[simp] theorem State.acquire_lock (s : State) : s.acquire.lock = true := rfl
@[simp] theorem State.acquire_pend (s : State) : s.acquire.pend = s.pend := rfl
@[simp] theorem State.acquire_phase (s : State) : s.acquire.phase = s.phase := rfl
@[simp] theorem State.acquire_widx (s : State) : s.acquire.widx = s.widx := rfl
@[simp] theorem State.acquire_bidx (s : State) : s.acquire.bidx = s.bidx := rfl
@[simp] theorem State.acquire_kidx (s : State) : s.acquire.kidx = s.kidx := rfl
@[simp] theorem State.acquire_shift (s : State) : s.acquire.shift = s.shift := rfl
@[simp] theorem State.acquire_wact (s : State) : s.acquire.wact = s.wact := rfl
@[simp] theorem State.acquire_wstart (s : State) : s.acquire.wstart = s.wstart := rfl
@[simp] theorem State.acquire_wn (s : State) : s.acquire.wn = s.wn := rfl
@[simp] theorem State.acquire_drem (s : State) : s.acquire.drem = s.drem := rfl
@[simp] theorem State.acquire_fault (s : State) : s.acquire.fault = s.fault := rfl
@[simp] theorem State.acquire_a (s : State) : s.acquire.a = s.a := rfl
@[simp] theorem State.acquire_b (s : State) : s.acquire.b = s.b := rfl
@[simp] theorem State.acquire_res (s : State) : s.acquire.res = s.res := rfl
@[simp] theorem State.acquire_waitBegan (s : State) : s.acquire.waitBegan = s.waitBegan := rfl
@[simp] theorem State.acquire_time (s : State) : s.acquire.time = s.time := rfl
@[simp] theorem State.acquire_trace (s : State) : s.acquire.trace = s.trace ++ [Stamp.mk s.time .lock] := rfl
@[simp] theorem State.acquire_completions (s : State) : s.acquire.completions = s.completions := rfl
@[simp] theorem State.acquire_inputs (s : State) : s.acquire.inputs = s.inputs := rfl
@[simp] theorem State.acquire_draws (s : State) : s.acquire.draws = s.draws := rfl
@[simp] theorem State.acquire_meter (s : State) : s.acquire.meter = s.meter := rfl

/-! ### `State.release` -/

@[simp] theorem State.release_conf (s : State) : s.release.conf = s.conf := rfl
@[simp] theorem State.release_cycle (s : State) : s.release.cycle = s.cycle := rfl
@[simp] theorem State.release_out (s : State) : s.release.out = s.out := rfl
@[simp] theorem State.release_cfg (s : State) : s.release.cfg = s.cfg := rfl
@[simp] theorem State.release_buf (s : State) : s.release.buf = s.buf := rfl
@[simp] theorem State.release_lock (s : State) : s.release.lock = false := rfl
@[simp] theorem State.release_pend (s : State) : s.release.pend = s.pend := rfl
@[simp] theorem State.release_phase (s : State) : s.release.phase = s.phase := rfl
@[simp] theorem State.release_widx (s : State) : s.release.widx = s.widx := rfl
@[simp] theorem State.release_bidx (s : State) : s.release.bidx = s.bidx := rfl
@[simp] theorem State.release_kidx (s : State) : s.release.kidx = s.kidx := rfl
@[simp] theorem State.release_shift (s : State) : s.release.shift = s.shift := rfl
@[simp] theorem State.release_wact (s : State) : s.release.wact = s.wact := rfl
@[simp] theorem State.release_wstart (s : State) : s.release.wstart = s.wstart := rfl
@[simp] theorem State.release_wn (s : State) : s.release.wn = s.wn := rfl
@[simp] theorem State.release_drem (s : State) : s.release.drem = s.drem := rfl
@[simp] theorem State.release_fault (s : State) : s.release.fault = s.fault := rfl
@[simp] theorem State.release_a (s : State) : s.release.a = s.a := rfl
@[simp] theorem State.release_b (s : State) : s.release.b = s.b := rfl
@[simp] theorem State.release_res (s : State) : s.release.res = s.res := rfl
@[simp] theorem State.release_waitBegan (s : State) : s.release.waitBegan = s.waitBegan := rfl
@[simp] theorem State.release_time (s : State) : s.release.time = s.time := rfl
@[simp] theorem State.release_trace (s : State) : s.release.trace = s.trace ++ [Stamp.mk s.time .unlock] := rfl
@[simp] theorem State.release_completions (s : State) : s.release.completions = s.completions := rfl
@[simp] theorem State.release_inputs (s : State) : s.release.inputs = s.inputs := rfl
@[simp] theorem State.release_draws (s : State) : s.release.draws = s.draws := rfl
@[simp] theorem State.release_meter (s : State) : s.release.meter = s.meter := rfl

/-! ### `State.beginWait` -/

@[simp] theorem State.beginWait_conf (s : State) (n : Nat) : (s.beginWait n).conf = s.conf := rfl
@[simp] theorem State.beginWait_cycle (s : State) (n : Nat) : (s.beginWait n).cycle = s.cycle := rfl
@[simp] theorem State.beginWait_out (s : State) (n : Nat) : (s.beginWait n).out = s.out := rfl
@[simp] theorem State.beginWait_cfg (s : State) (n : Nat) : (s.beginWait n).cfg = s.cfg := rfl
@[simp] theorem State.beginWait_buf (s : State) (n : Nat) : (s.beginWait n).buf = s.buf := rfl
@[simp] theorem State.beginWait_lock (s : State) (n : Nat) : (s.beginWait n).lock = s.lock := rfl
@[simp] theorem State.beginWait_pend (s : State) (n : Nat) : (s.beginWait n).pend = s.pend := rfl
@[simp] theorem State.beginWait_phase (s : State) (n : Nat) : (s.beginWait n).phase = s.phase := rfl
@[simp] theorem State.beginWait_widx (s : State) (n : Nat) : (s.beginWait n).widx = s.widx := rfl
@[simp] theorem State.beginWait_bidx (s : State) (n : Nat) : (s.beginWait n).bidx = s.bidx := rfl
@[simp] theorem State.beginWait_kidx (s : State) (n : Nat) : (s.beginWait n).kidx = s.kidx := rfl
@[simp] theorem State.beginWait_shift (s : State) (n : Nat) : (s.beginWait n).shift = s.shift := rfl
@[simp] theorem State.beginWait_wact (s : State) (n : Nat) : (s.beginWait n).wact = true := rfl
@[simp] theorem State.beginWait_wstart (s : State) (n : Nat) : (s.beginWait n).wstart = s.cycle := rfl
@[simp] theorem State.beginWait_wn (s : State) (n : Nat) : (s.beginWait n).wn = s.conf.cutCycles n := rfl
@[simp] theorem State.beginWait_drem (s : State) (n : Nat) : (s.beginWait n).drem = s.drem := rfl
@[simp] theorem State.beginWait_fault (s : State) (n : Nat) : (s.beginWait n).fault = s.fault := rfl
@[simp] theorem State.beginWait_a (s : State) (n : Nat) : (s.beginWait n).a = s.a := rfl
@[simp] theorem State.beginWait_b (s : State) (n : Nat) : (s.beginWait n).b = s.b := rfl
@[simp] theorem State.beginWait_res (s : State) (n : Nat) : (s.beginWait n).res = s.res := rfl
@[simp] theorem State.beginWait_waitBegan (s : State) (n : Nat) : (s.beginWait n).waitBegan = s.time := rfl
@[simp] theorem State.beginWait_time (s : State) (n : Nat) : (s.beginWait n).time = s.time := rfl
@[simp] theorem State.beginWait_trace (s : State) (n : Nat) : (s.beginWait n).trace = s.trace ++ [Stamp.mk s.time (.wait n)] := rfl
@[simp] theorem State.beginWait_completions (s : State) (n : Nat) : (s.beginWait n).completions = s.completions := rfl
@[simp] theorem State.beginWait_inputs (s : State) (n : Nat) : (s.beginWait n).inputs = s.inputs := rfl
@[simp] theorem State.beginWait_draws (s : State) (n : Nat) : (s.beginWait n).draws = s.draws := rfl
@[simp] theorem State.beginWait_meter (s : State) (n : Nat) : (s.beginWait n).meter = s.meter := rfl

/-! ### `State.finishWait` -/

@[simp] theorem State.finishWait_conf (s : State) (n : Nat) (room : Option Nat) : (s.finishWait n room).conf = s.conf := rfl
@[simp] theorem State.finishWait_cycle (s : State) (n : Nat) (room : Option Nat) : (s.finishWait n room).cycle = s.conf.cutCycles (s.cycle.toNat + (s.waitLength n room (s.time - s.waitBegan) - (s.time - s.waitBegan))) := rfl
@[simp] theorem State.finishWait_out (s : State) (n : Nat) (room : Option Nat) : (s.finishWait n room).out = s.out := rfl
@[simp] theorem State.finishWait_cfg (s : State) (n : Nat) (room : Option Nat) : (s.finishWait n room).cfg = s.cfg := rfl
@[simp] theorem State.finishWait_buf (s : State) (n : Nat) (room : Option Nat) : (s.finishWait n room).buf = s.buf := rfl
@[simp] theorem State.finishWait_lock (s : State) (n : Nat) (room : Option Nat) : (s.finishWait n room).lock = s.lock := rfl
@[simp] theorem State.finishWait_pend (s : State) (n : Nat) (room : Option Nat) : (s.finishWait n room).pend = s.pend := rfl
@[simp] theorem State.finishWait_phase (s : State) (n : Nat) (room : Option Nat) : (s.finishWait n room).phase = s.phase := rfl
@[simp] theorem State.finishWait_widx (s : State) (n : Nat) (room : Option Nat) : (s.finishWait n room).widx = s.widx := rfl
@[simp] theorem State.finishWait_bidx (s : State) (n : Nat) (room : Option Nat) : (s.finishWait n room).bidx = s.bidx := rfl
@[simp] theorem State.finishWait_kidx (s : State) (n : Nat) (room : Option Nat) : (s.finishWait n room).kidx = s.kidx := rfl
@[simp] theorem State.finishWait_shift (s : State) (n : Nat) (room : Option Nat) : (s.finishWait n room).shift = s.shift := rfl
@[simp] theorem State.finishWait_wact (s : State) (n : Nat) (room : Option Nat) : (s.finishWait n room).wact = false := rfl
@[simp] theorem State.finishWait_wstart (s : State) (n : Nat) (room : Option Nat) : (s.finishWait n room).wstart = s.wstart := rfl
@[simp] theorem State.finishWait_wn (s : State) (n : Nat) (room : Option Nat) : (s.finishWait n room).wn = s.wn := rfl
@[simp] theorem State.finishWait_drem (s : State) (n : Nat) (room : Option Nat) : (s.finishWait n room).drem = s.drem := rfl
@[simp] theorem State.finishWait_fault (s : State) (n : Nat) (room : Option Nat) : (s.finishWait n room).fault = s.fault := rfl
@[simp] theorem State.finishWait_a (s : State) (n : Nat) (room : Option Nat) : (s.finishWait n room).a = s.a := rfl
@[simp] theorem State.finishWait_b (s : State) (n : Nat) (room : Option Nat) : (s.finishWait n room).b = s.b := rfl
@[simp] theorem State.finishWait_res (s : State) (n : Nat) (room : Option Nat) : (s.finishWait n room).res = s.res := rfl
@[simp] theorem State.finishWait_waitBegan (s : State) (n : Nat) (room : Option Nat) : (s.finishWait n room).waitBegan = s.waitBegan := rfl
@[simp] theorem State.finishWait_time (s : State) (n : Nat) (room : Option Nat) : (s.finishWait n room).time = s.time + (s.waitLength n room (s.time - s.waitBegan) - (s.time - s.waitBegan)) := rfl
@[simp] theorem State.finishWait_trace (s : State) (n : Nat) (room : Option Nat) : (s.finishWait n room).trace = s.trace := rfl
@[simp] theorem State.finishWait_completions (s : State) (n : Nat) (room : Option Nat) : (s.finishWait n room).completions = s.completions := rfl
@[simp] theorem State.finishWait_inputs (s : State) (n : Nat) (room : Option Nat) : (s.finishWait n room).inputs = s.inputs := rfl
@[simp] theorem State.finishWait_draws (s : State) (n : Nat) (room : Option Nat) : (s.finishWait n room).draws = s.draws + 1 := rfl
@[simp] theorem State.finishWait_meter (s : State) (n : Nat) (room : Option Nat) : (s.finishWait n room).meter = s.meter := rfl

/-! ### `State.beginDelay` -/

@[simp] theorem State.beginDelay_conf (s : State) (d : Nat) : (s.beginDelay d).conf = s.conf := rfl
@[simp] theorem State.beginDelay_cycle (s : State) (d : Nat) : (s.beginDelay d).cycle = s.cycle := rfl
@[simp] theorem State.beginDelay_out (s : State) (d : Nat) : (s.beginDelay d).out = s.out := rfl
@[simp] theorem State.beginDelay_cfg (s : State) (d : Nat) : (s.beginDelay d).cfg = s.cfg := rfl
@[simp] theorem State.beginDelay_buf (s : State) (d : Nat) : (s.beginDelay d).buf = s.buf := rfl
@[simp] theorem State.beginDelay_lock (s : State) (d : Nat) : (s.beginDelay d).lock = s.lock := rfl
@[simp] theorem State.beginDelay_pend (s : State) (d : Nat) : (s.beginDelay d).pend = s.pend := rfl
@[simp] theorem State.beginDelay_phase (s : State) (d : Nat) : (s.beginDelay d).phase = s.phase := rfl
@[simp] theorem State.beginDelay_widx (s : State) (d : Nat) : (s.beginDelay d).widx = s.widx := rfl
@[simp] theorem State.beginDelay_bidx (s : State) (d : Nat) : (s.beginDelay d).bidx = s.bidx := rfl
@[simp] theorem State.beginDelay_kidx (s : State) (d : Nat) : (s.beginDelay d).kidx = s.kidx := rfl
@[simp] theorem State.beginDelay_shift (s : State) (d : Nat) : (s.beginDelay d).shift = s.shift := rfl
@[simp] theorem State.beginDelay_wact (s : State) (d : Nat) : (s.beginDelay d).wact = s.wact := rfl
@[simp] theorem State.beginDelay_wstart (s : State) (d : Nat) : (s.beginDelay d).wstart = s.wstart := rfl
@[simp] theorem State.beginDelay_wn (s : State) (d : Nat) : (s.beginDelay d).wn = s.wn := rfl
@[simp] theorem State.beginDelay_drem (s : State) (d : Nat) : (s.beginDelay d).drem = some ⟨d, s.time⟩ := rfl
@[simp] theorem State.beginDelay_fault (s : State) (d : Nat) : (s.beginDelay d).fault = s.fault := rfl
@[simp] theorem State.beginDelay_a (s : State) (d : Nat) : (s.beginDelay d).a = s.a := rfl
@[simp] theorem State.beginDelay_b (s : State) (d : Nat) : (s.beginDelay d).b = s.b := rfl
@[simp] theorem State.beginDelay_res (s : State) (d : Nat) : (s.beginDelay d).res = s.res := rfl
@[simp] theorem State.beginDelay_waitBegan (s : State) (d : Nat) : (s.beginDelay d).waitBegan = s.waitBegan := rfl
@[simp] theorem State.beginDelay_time (s : State) (d : Nat) : (s.beginDelay d).time = s.time := rfl
@[simp] theorem State.beginDelay_trace (s : State) (d : Nat) : (s.beginDelay d).trace = s.trace ++ [Stamp.mk s.time (.delayMs d)] := rfl
@[simp] theorem State.beginDelay_completions (s : State) (d : Nat) : (s.beginDelay d).completions = s.completions := rfl
@[simp] theorem State.beginDelay_inputs (s : State) (d : Nat) : (s.beginDelay d).inputs = s.inputs := rfl
@[simp] theorem State.beginDelay_draws (s : State) (d : Nat) : (s.beginDelay d).draws = s.draws := rfl
@[simp] theorem State.beginDelay_meter (s : State) (d : Nat) : (s.beginDelay d).meter = s.meter := rfl

/-! ### `State.finishDelay` -/

@[simp] theorem State.finishDelay_conf (s : State) (d began : Nat) : (s.finishDelay d began).conf = s.conf := rfl
@[simp] theorem State.finishDelay_cycle (s : State) (d began : Nat) : (s.finishDelay d began).cycle = s.conf.cutCycles (s.cycle.toNat + (began + s.conf.msCycles d - s.time + Config.freeCycles s.draws)) := rfl
@[simp] theorem State.finishDelay_out (s : State) (d began : Nat) : (s.finishDelay d began).out = s.out := rfl
@[simp] theorem State.finishDelay_cfg (s : State) (d began : Nat) : (s.finishDelay d began).cfg = s.cfg := rfl
@[simp] theorem State.finishDelay_buf (s : State) (d began : Nat) : (s.finishDelay d began).buf = s.buf := rfl
@[simp] theorem State.finishDelay_lock (s : State) (d began : Nat) : (s.finishDelay d began).lock = s.lock := rfl
@[simp] theorem State.finishDelay_pend (s : State) (d began : Nat) : (s.finishDelay d began).pend = s.pend := rfl
@[simp] theorem State.finishDelay_phase (s : State) (d began : Nat) : (s.finishDelay d began).phase = s.phase := rfl
@[simp] theorem State.finishDelay_widx (s : State) (d began : Nat) : (s.finishDelay d began).widx = s.widx := rfl
@[simp] theorem State.finishDelay_bidx (s : State) (d began : Nat) : (s.finishDelay d began).bidx = s.bidx := rfl
@[simp] theorem State.finishDelay_kidx (s : State) (d began : Nat) : (s.finishDelay d began).kidx = s.kidx := rfl
@[simp] theorem State.finishDelay_shift (s : State) (d began : Nat) : (s.finishDelay d began).shift = s.shift := rfl
@[simp] theorem State.finishDelay_wact (s : State) (d began : Nat) : (s.finishDelay d began).wact = s.wact := rfl
@[simp] theorem State.finishDelay_wstart (s : State) (d began : Nat) : (s.finishDelay d began).wstart = s.wstart := rfl
@[simp] theorem State.finishDelay_wn (s : State) (d began : Nat) : (s.finishDelay d began).wn = s.wn := rfl
@[simp] theorem State.finishDelay_drem (s : State) (d began : Nat) : (s.finishDelay d began).drem = none := rfl
@[simp] theorem State.finishDelay_fault (s : State) (d began : Nat) : (s.finishDelay d began).fault = s.fault := rfl
@[simp] theorem State.finishDelay_a (s : State) (d began : Nat) : (s.finishDelay d began).a = s.a := rfl
@[simp] theorem State.finishDelay_b (s : State) (d began : Nat) : (s.finishDelay d began).b = s.b := rfl
@[simp] theorem State.finishDelay_res (s : State) (d began : Nat) : (s.finishDelay d began).res = s.res := rfl
@[simp] theorem State.finishDelay_waitBegan (s : State) (d began : Nat) : (s.finishDelay d began).waitBegan = s.waitBegan := rfl
@[simp] theorem State.finishDelay_time (s : State) (d began : Nat) : (s.finishDelay d began).time = s.time + (began + s.conf.msCycles d - s.time + Config.freeCycles s.draws) := rfl
@[simp] theorem State.finishDelay_trace (s : State) (d began : Nat) : (s.finishDelay d began).trace = s.trace := rfl
@[simp] theorem State.finishDelay_completions (s : State) (d began : Nat) : (s.finishDelay d began).completions = s.completions := rfl
@[simp] theorem State.finishDelay_inputs (s : State) (d began : Nat) : (s.finishDelay d began).inputs = s.inputs := rfl
@[simp] theorem State.finishDelay_draws (s : State) (d began : Nat) : (s.finishDelay d began).draws = s.draws + 1 := rfl
@[simp] theorem State.finishDelay_meter (s : State) (d began : Nat) : (s.finishDelay d began).meter = s.meter := rfl

/-! ### `State.setSeq` -/

@[simp] theorem State.setSeq_conf (s : State) (p : Phase) (w : Word) (i : BitVec 2) (k : BitVec 3) : (s.setSeq p w i k).conf = s.conf := rfl
@[simp] theorem State.setSeq_cycle (s : State) (p : Phase) (w : Word) (i : BitVec 2) (k : BitVec 3) : (s.setSeq p w i k).cycle = s.cycle := rfl
@[simp] theorem State.setSeq_out (s : State) (p : Phase) (w : Word) (i : BitVec 2) (k : BitVec 3) : (s.setSeq p w i k).out = s.out := rfl
@[simp] theorem State.setSeq_cfg (s : State) (p : Phase) (w : Word) (i : BitVec 2) (k : BitVec 3) : (s.setSeq p w i k).cfg = s.cfg := rfl
@[simp] theorem State.setSeq_buf (s : State) (p : Phase) (w : Word) (i : BitVec 2) (k : BitVec 3) : (s.setSeq p w i k).buf = s.buf := rfl
@[simp] theorem State.setSeq_lock (s : State) (p : Phase) (w : Word) (i : BitVec 2) (k : BitVec 3) : (s.setSeq p w i k).lock = s.lock := rfl
@[simp] theorem State.setSeq_pend (s : State) (p : Phase) (w : Word) (i : BitVec 2) (k : BitVec 3) : (s.setSeq p w i k).pend = s.pend := rfl
@[simp] theorem State.setSeq_phase (s : State) (p : Phase) (w : Word) (i : BitVec 2) (k : BitVec 3) : (s.setSeq p w i k).phase = p := rfl
@[simp] theorem State.setSeq_widx (s : State) (p : Phase) (w : Word) (i : BitVec 2) (k : BitVec 3) : (s.setSeq p w i k).widx = w := rfl
@[simp] theorem State.setSeq_bidx (s : State) (p : Phase) (w : Word) (i : BitVec 2) (k : BitVec 3) : (s.setSeq p w i k).bidx = i := rfl
@[simp] theorem State.setSeq_kidx (s : State) (p : Phase) (w : Word) (i : BitVec 2) (k : BitVec 3) : (s.setSeq p w i k).kidx = k := rfl
@[simp] theorem State.setSeq_shift (s : State) (p : Phase) (w : Word) (i : BitVec 2) (k : BitVec 3) : (s.setSeq p w i k).shift = s.shift := rfl
@[simp] theorem State.setSeq_wact (s : State) (p : Phase) (w : Word) (i : BitVec 2) (k : BitVec 3) : (s.setSeq p w i k).wact = s.wact := rfl
@[simp] theorem State.setSeq_wstart (s : State) (p : Phase) (w : Word) (i : BitVec 2) (k : BitVec 3) : (s.setSeq p w i k).wstart = s.wstart := rfl
@[simp] theorem State.setSeq_wn (s : State) (p : Phase) (w : Word) (i : BitVec 2) (k : BitVec 3) : (s.setSeq p w i k).wn = s.wn := rfl
@[simp] theorem State.setSeq_drem (s : State) (p : Phase) (w : Word) (i : BitVec 2) (k : BitVec 3) : (s.setSeq p w i k).drem = s.drem := rfl
@[simp] theorem State.setSeq_fault (s : State) (p : Phase) (w : Word) (i : BitVec 2) (k : BitVec 3) : (s.setSeq p w i k).fault = s.fault := rfl
@[simp] theorem State.setSeq_a (s : State) (p : Phase) (w : Word) (i : BitVec 2) (k : BitVec 3) : (s.setSeq p w i k).a = s.a := rfl
@[simp] theorem State.setSeq_b (s : State) (p : Phase) (w : Word) (i : BitVec 2) (k : BitVec 3) : (s.setSeq p w i k).b = s.b := rfl
@[simp] theorem State.setSeq_res (s : State) (p : Phase) (w : Word) (i : BitVec 2) (k : BitVec 3) : (s.setSeq p w i k).res = s.res := rfl
@[simp] theorem State.setSeq_waitBegan (s : State) (p : Phase) (w : Word) (i : BitVec 2) (k : BitVec 3) : (s.setSeq p w i k).waitBegan = s.waitBegan := rfl
@[simp] theorem State.setSeq_time (s : State) (p : Phase) (w : Word) (i : BitVec 2) (k : BitVec 3) : (s.setSeq p w i k).time = s.time := rfl
@[simp] theorem State.setSeq_trace (s : State) (p : Phase) (w : Word) (i : BitVec 2) (k : BitVec 3) : (s.setSeq p w i k).trace = s.trace := rfl
@[simp] theorem State.setSeq_completions (s : State) (p : Phase) (w : Word) (i : BitVec 2) (k : BitVec 3) : (s.setSeq p w i k).completions = s.completions := rfl
@[simp] theorem State.setSeq_inputs (s : State) (p : Phase) (w : Word) (i : BitVec 2) (k : BitVec 3) : (s.setSeq p w i k).inputs = s.inputs := rfl
@[simp] theorem State.setSeq_draws (s : State) (p : Phase) (w : Word) (i : BitVec 2) (k : BitVec 3) : (s.setSeq p w i k).draws = s.draws := rfl
@[simp] theorem State.setSeq_meter (s : State) (p : Phase) (w : Word) (i : BitVec 2) (k : BitVec 3) : (s.setSeq p w i k).meter = s.meter := rfl

/-! ### `State.returnValue` -/

@[simp] theorem State.returnValue_conf (s : State) (v : Word) : (s.returnValue v).conf = s.conf := rfl
@[simp] theorem State.returnValue_cycle (s : State) (v : Word) : (s.returnValue v).cycle = s.cycle := rfl
@[simp] theorem State.returnValue_out (s : State) (v : Word) : (s.returnValue v).out = s.out := rfl
@[simp] theorem State.returnValue_cfg (s : State) (v : Word) : (s.returnValue v).cfg = s.cfg := rfl
@[simp] theorem State.returnValue_buf (s : State) (v : Word) : (s.returnValue v).buf = s.buf := rfl
@[simp] theorem State.returnValue_lock (s : State) (v : Word) : (s.returnValue v).lock = s.lock := rfl
@[simp] theorem State.returnValue_pend (s : State) (v : Word) : (s.returnValue v).pend = s.pend := rfl
@[simp] theorem State.returnValue_phase (s : State) (v : Word) : (s.returnValue v).phase = s.phase := rfl
@[simp] theorem State.returnValue_widx (s : State) (v : Word) : (s.returnValue v).widx = s.widx := rfl
@[simp] theorem State.returnValue_bidx (s : State) (v : Word) : (s.returnValue v).bidx = s.bidx := rfl
@[simp] theorem State.returnValue_kidx (s : State) (v : Word) : (s.returnValue v).kidx = s.kidx := rfl
@[simp] theorem State.returnValue_shift (s : State) (v : Word) : (s.returnValue v).shift = s.shift := rfl
@[simp] theorem State.returnValue_wact (s : State) (v : Word) : (s.returnValue v).wact = s.wact := rfl
@[simp] theorem State.returnValue_wstart (s : State) (v : Word) : (s.returnValue v).wstart = s.wstart := rfl
@[simp] theorem State.returnValue_wn (s : State) (v : Word) : (s.returnValue v).wn = s.wn := rfl
@[simp] theorem State.returnValue_drem (s : State) (v : Word) : (s.returnValue v).drem = s.drem := rfl
@[simp] theorem State.returnValue_fault (s : State) (v : Word) : (s.returnValue v).fault = s.fault := rfl
@[simp] theorem State.returnValue_a (s : State) (v : Word) : (s.returnValue v).a = s.a := rfl
@[simp] theorem State.returnValue_b (s : State) (v : Word) : (s.returnValue v).b = s.b := rfl
@[simp] theorem State.returnValue_res (s : State) (v : Word) : (s.returnValue v).res = v := rfl
@[simp] theorem State.returnValue_waitBegan (s : State) (v : Word) : (s.returnValue v).waitBegan = s.waitBegan := rfl
@[simp] theorem State.returnValue_time (s : State) (v : Word) : (s.returnValue v).time = s.time := rfl
@[simp] theorem State.returnValue_trace (s : State) (v : Word) : (s.returnValue v).trace = s.trace := rfl
@[simp] theorem State.returnValue_completions (s : State) (v : Word) : (s.returnValue v).completions = s.completions ++ [Completion.mk .ok (some v)] := rfl
@[simp] theorem State.returnValue_inputs (s : State) (v : Word) : (s.returnValue v).inputs = s.inputs := rfl
@[simp] theorem State.returnValue_draws (s : State) (v : Word) : (s.returnValue v).draws = s.draws := rfl
@[simp] theorem State.returnValue_meter (s : State) (v : Word) : (s.returnValue v).meter = .off := rfl

/-! ### `State.returnNothing` -/

@[simp] theorem State.returnNothing_conf (s : State) : s.returnNothing.conf = s.conf := rfl
@[simp] theorem State.returnNothing_cycle (s : State) : s.returnNothing.cycle = s.cycle := rfl
@[simp] theorem State.returnNothing_out (s : State) : s.returnNothing.out = s.out := rfl
@[simp] theorem State.returnNothing_cfg (s : State) : s.returnNothing.cfg = s.cfg := rfl
@[simp] theorem State.returnNothing_buf (s : State) : s.returnNothing.buf = s.buf := rfl
@[simp] theorem State.returnNothing_lock (s : State) : s.returnNothing.lock = s.lock := rfl
@[simp] theorem State.returnNothing_pend (s : State) : s.returnNothing.pend = s.pend := rfl
@[simp] theorem State.returnNothing_phase (s : State) : s.returnNothing.phase = s.phase := rfl
@[simp] theorem State.returnNothing_widx (s : State) : s.returnNothing.widx = s.widx := rfl
@[simp] theorem State.returnNothing_bidx (s : State) : s.returnNothing.bidx = s.bidx := rfl
@[simp] theorem State.returnNothing_kidx (s : State) : s.returnNothing.kidx = s.kidx := rfl
@[simp] theorem State.returnNothing_shift (s : State) : s.returnNothing.shift = s.shift := rfl
@[simp] theorem State.returnNothing_wact (s : State) : s.returnNothing.wact = s.wact := rfl
@[simp] theorem State.returnNothing_wstart (s : State) : s.returnNothing.wstart = s.wstart := rfl
@[simp] theorem State.returnNothing_wn (s : State) : s.returnNothing.wn = s.wn := rfl
@[simp] theorem State.returnNothing_drem (s : State) : s.returnNothing.drem = s.drem := rfl
@[simp] theorem State.returnNothing_fault (s : State) : s.returnNothing.fault = s.fault := rfl
@[simp] theorem State.returnNothing_a (s : State) : s.returnNothing.a = s.a := rfl
@[simp] theorem State.returnNothing_b (s : State) : s.returnNothing.b = s.b := rfl
@[simp] theorem State.returnNothing_res (s : State) : s.returnNothing.res = Config.freeResult s.draws := rfl
@[simp] theorem State.returnNothing_waitBegan (s : State) : s.returnNothing.waitBegan = s.waitBegan := rfl
@[simp] theorem State.returnNothing_time (s : State) : s.returnNothing.time = s.time := rfl
@[simp] theorem State.returnNothing_trace (s : State) : s.returnNothing.trace = s.trace := rfl
@[simp] theorem State.returnNothing_completions (s : State) : s.returnNothing.completions = s.completions ++ [Completion.mk .ok none] := rfl
@[simp] theorem State.returnNothing_inputs (s : State) : s.returnNothing.inputs = s.inputs := rfl
@[simp] theorem State.returnNothing_draws (s : State) : s.returnNothing.draws = s.draws + 1 := rfl
@[simp] theorem State.returnNothing_meter (s : State) : s.returnNothing.meter = .off := rfl

/-! ### `State.completeWait` -/

@[simp] theorem State.completeWait_conf (s : State) : s.completeWait.conf = s.conf := rfl
@[simp] theorem State.completeWait_cycle (s : State) : s.completeWait.cycle = s.cycle := rfl
@[simp] theorem State.completeWait_out (s : State) : s.completeWait.out = s.out := rfl
@[simp] theorem State.completeWait_cfg (s : State) : s.completeWait.cfg = s.cfg := rfl
@[simp] theorem State.completeWait_buf (s : State) : s.completeWait.buf = s.buf := rfl
@[simp] theorem State.completeWait_lock (s : State) : s.completeWait.lock = s.lock := rfl
@[simp] theorem State.completeWait_pend (s : State) : s.completeWait.pend = s.pend := rfl
@[simp] theorem State.completeWait_phase (s : State) : s.completeWait.phase = s.phase := rfl
@[simp] theorem State.completeWait_widx (s : State) : s.completeWait.widx = s.widx := rfl
@[simp] theorem State.completeWait_bidx (s : State) : s.completeWait.bidx = s.bidx := rfl
@[simp] theorem State.completeWait_kidx (s : State) : s.completeWait.kidx = s.kidx := rfl
@[simp] theorem State.completeWait_shift (s : State) : s.completeWait.shift = s.shift := rfl
@[simp] theorem State.completeWait_wact (s : State) : s.completeWait.wact = s.wact := rfl
@[simp] theorem State.completeWait_wstart (s : State) : s.completeWait.wstart = s.wstart := rfl
@[simp] theorem State.completeWait_wn (s : State) : s.completeWait.wn = s.wn := rfl
@[simp] theorem State.completeWait_drem (s : State) : s.completeWait.drem = s.drem := rfl
@[simp] theorem State.completeWait_fault (s : State) : s.completeWait.fault = s.fault := rfl
@[simp] theorem State.completeWait_a (s : State) : s.completeWait.a = s.a := rfl
@[simp] theorem State.completeWait_b (s : State) : s.completeWait.b = s.b := rfl
@[simp] theorem State.completeWait_res (s : State) : s.completeWait.res = Config.freeResult s.draws := rfl
@[simp] theorem State.completeWait_waitBegan (s : State) : s.completeWait.waitBegan = s.waitBegan := rfl
@[simp] theorem State.completeWait_time (s : State) : s.completeWait.time = s.time := rfl
@[simp] theorem State.completeWait_trace (s : State) : s.completeWait.trace = s.trace := rfl
@[simp] theorem State.completeWait_completions (s : State) : s.completeWait.completions = s.completions ++ [Completion.mk .ok none] := rfl
@[simp] theorem State.completeWait_inputs (s : State) : s.completeWait.inputs = s.inputs := rfl
@[simp] theorem State.completeWait_draws (s : State) : s.completeWait.draws = s.draws + 1 := rfl
@[simp] theorem State.completeWait_meter (s : State) : s.completeWait.meter = s.meter.afterWaitOf (s.time - s.waitBegan - s.wn.toNat) := rfl

/-! ### `State.drop` -/

@[simp] theorem State.drop_conf (s : State) : s.drop.conf = s.conf := rfl
@[simp] theorem State.drop_cycle (s : State) : s.drop.cycle = s.cycle := rfl
@[simp] theorem State.drop_out (s : State) : s.drop.out = s.out := rfl
@[simp] theorem State.drop_cfg (s : State) : s.drop.cfg = s.cfg := rfl
@[simp] theorem State.drop_buf (s : State) : s.drop.buf = s.buf := rfl
@[simp] theorem State.drop_lock (s : State) : s.drop.lock = s.lock := rfl
@[simp] theorem State.drop_pend (s : State) : s.drop.pend = s.pend := rfl
@[simp] theorem State.drop_phase (s : State) : s.drop.phase = s.phase := rfl
@[simp] theorem State.drop_widx (s : State) : s.drop.widx = s.widx := rfl
@[simp] theorem State.drop_bidx (s : State) : s.drop.bidx = s.bidx := rfl
@[simp] theorem State.drop_kidx (s : State) : s.drop.kidx = s.kidx := rfl
@[simp] theorem State.drop_shift (s : State) : s.drop.shift = s.shift := rfl
@[simp] theorem State.drop_wact (s : State) : s.drop.wact = s.wact := rfl
@[simp] theorem State.drop_wstart (s : State) : s.drop.wstart = s.wstart := rfl
@[simp] theorem State.drop_wn (s : State) : s.drop.wn = s.wn := rfl
@[simp] theorem State.drop_drem (s : State) : s.drop.drem = s.drem := rfl
@[simp] theorem State.drop_fault (s : State) : s.drop.fault = s.fault := rfl
@[simp] theorem State.drop_a (s : State) : s.drop.a = s.a := rfl
@[simp] theorem State.drop_b (s : State) : s.drop.b = s.b := rfl
@[simp] theorem State.drop_res (s : State) : s.drop.res = s.res := rfl
@[simp] theorem State.drop_waitBegan (s : State) : s.drop.waitBegan = s.waitBegan := rfl
@[simp] theorem State.drop_time (s : State) : s.drop.time = s.time := rfl
@[simp] theorem State.drop_trace (s : State) : s.drop.trace = s.trace := rfl
@[simp] theorem State.drop_completions (s : State) : s.drop.completions = s.completions ++ [Completion.mk .aborted none] := rfl
@[simp] theorem State.drop_inputs (s : State) : s.drop.inputs = s.inputs := rfl
@[simp] theorem State.drop_draws (s : State) : s.drop.draws = s.draws := rfl
@[simp] theorem State.drop_meter (s : State) : s.drop.meter = s.meter := rfl

/-! ### `State.abort` -/

@[simp] theorem State.abort_conf (s : State) (c : Cause) : (s.abort c).conf = s.conf := rfl
@[simp] theorem State.abort_cycle (s : State) (c : Cause) : (s.abort c).cycle = s.cycle := rfl
@[simp] theorem State.abort_out (s : State) (c : Cause) : (s.abort c).out = s.out := rfl
@[simp] theorem State.abort_cfg (s : State) (c : Cause) : (s.abort c).cfg = s.cfg := rfl
@[simp] theorem State.abort_buf (s : State) (c : Cause) : (s.abort c).buf = s.buf := rfl
@[simp] theorem State.abort_lock (s : State) (c : Cause) : (s.abort c).lock = s.lock := rfl
@[simp] theorem State.abort_pend (s : State) (c : Cause) : (s.abort c).pend = s.pend := rfl
@[simp] theorem State.abort_phase (s : State) (c : Cause) : (s.abort c).phase = s.phase := rfl
@[simp] theorem State.abort_widx (s : State) (c : Cause) : (s.abort c).widx = s.widx := rfl
@[simp] theorem State.abort_bidx (s : State) (c : Cause) : (s.abort c).bidx = s.bidx := rfl
@[simp] theorem State.abort_kidx (s : State) (c : Cause) : (s.abort c).kidx = s.kidx := rfl
@[simp] theorem State.abort_shift (s : State) (c : Cause) : (s.abort c).shift = s.shift := rfl
@[simp] theorem State.abort_wact (s : State) (c : Cause) : (s.abort c).wact = s.wact := rfl
@[simp] theorem State.abort_wstart (s : State) (c : Cause) : (s.abort c).wstart = s.wstart := rfl
@[simp] theorem State.abort_wn (s : State) (c : Cause) : (s.abort c).wn = s.wn := rfl
@[simp] theorem State.abort_drem (s : State) (c : Cause) : (s.abort c).drem = s.drem := rfl
@[simp] theorem State.abort_fault (s : State) (c : Cause) : (s.abort c).fault = some c := rfl
@[simp] theorem State.abort_a (s : State) (c : Cause) : (s.abort c).a = s.a := rfl
@[simp] theorem State.abort_b (s : State) (c : Cause) : (s.abort c).b = s.b := rfl
@[simp] theorem State.abort_res (s : State) (c : Cause) : (s.abort c).res = s.res := rfl
@[simp] theorem State.abort_waitBegan (s : State) (c : Cause) : (s.abort c).waitBegan = s.waitBegan := rfl
@[simp] theorem State.abort_time (s : State) (c : Cause) : (s.abort c).time = s.time := rfl
@[simp] theorem State.abort_trace (s : State) (c : Cause) : (s.abort c).trace = s.trace ++ [Stamp.mk s.time (.abort c)] := rfl
@[simp] theorem State.abort_completions (s : State) (c : Cause) : (s.abort c).completions = s.completions ++ [Completion.mk .aborted none] := rfl
@[simp] theorem State.abort_inputs (s : State) (c : Cause) : (s.abort c).inputs = s.inputs := rfl
@[simp] theorem State.abort_draws (s : State) (c : Cause) : (s.abort c).draws = s.draws := rfl
@[simp] theorem State.abort_meter (s : State) (c : Cause) : (s.abort c).meter = s.meter := rfl

/-! ### `State.startMeter` -/

@[simp] theorem State.startMeter_conf (s : State) : s.startMeter.conf = s.conf := rfl
@[simp] theorem State.startMeter_cycle (s : State) : s.startMeter.cycle = s.cycle := rfl
@[simp] theorem State.startMeter_out (s : State) : s.startMeter.out = s.out := rfl
@[simp] theorem State.startMeter_cfg (s : State) : s.startMeter.cfg = s.cfg := rfl
@[simp] theorem State.startMeter_buf (s : State) : s.startMeter.buf = s.buf := rfl
@[simp] theorem State.startMeter_lock (s : State) : s.startMeter.lock = s.lock := rfl
@[simp] theorem State.startMeter_pend (s : State) : s.startMeter.pend = s.pend := rfl
@[simp] theorem State.startMeter_phase (s : State) : s.startMeter.phase = s.phase := rfl
@[simp] theorem State.startMeter_widx (s : State) : s.startMeter.widx = s.widx := rfl
@[simp] theorem State.startMeter_bidx (s : State) : s.startMeter.bidx = s.bidx := rfl
@[simp] theorem State.startMeter_kidx (s : State) : s.startMeter.kidx = s.kidx := rfl
@[simp] theorem State.startMeter_shift (s : State) : s.startMeter.shift = s.shift := rfl
@[simp] theorem State.startMeter_wact (s : State) : s.startMeter.wact = s.wact := rfl
@[simp] theorem State.startMeter_wstart (s : State) : s.startMeter.wstart = s.wstart := rfl
@[simp] theorem State.startMeter_wn (s : State) : s.startMeter.wn = s.wn := rfl
@[simp] theorem State.startMeter_drem (s : State) : s.startMeter.drem = s.drem := rfl
@[simp] theorem State.startMeter_fault (s : State) : s.startMeter.fault = s.fault := rfl
@[simp] theorem State.startMeter_a (s : State) : s.startMeter.a = s.a := rfl
@[simp] theorem State.startMeter_b (s : State) : s.startMeter.b = s.b := rfl
@[simp] theorem State.startMeter_res (s : State) : s.startMeter.res = s.res := rfl
@[simp] theorem State.startMeter_waitBegan (s : State) : s.startMeter.waitBegan = s.waitBegan := rfl
@[simp] theorem State.startMeter_time (s : State) : s.startMeter.time = s.time := rfl
@[simp] theorem State.startMeter_trace (s : State) : s.startMeter.trace = s.trace := rfl
@[simp] theorem State.startMeter_completions (s : State) : s.startMeter.completions = s.completions := rfl
@[simp] theorem State.startMeter_inputs (s : State) : s.startMeter.inputs = s.inputs := rfl
@[simp] theorem State.startMeter_draws (s : State) : s.startMeter.draws = s.draws := rfl
@[simp] theorem State.startMeter_meter (s : State) : s.startMeter.meter = if s.lock then .afterNow s.conf.waitOvh else .off := rfl

/-! ### `State.loadShift` -/

@[simp] theorem State.loadShift_conf (s : State) (w : Nat) (v : Word) : (s.loadShift w v).conf = s.conf := rfl
@[simp] theorem State.loadShift_cycle (s : State) (w : Nat) (v : Word) : (s.loadShift w v).cycle = s.conf.cutCycles (s.cycle.toNat + bounded none (Config.freeCycles s.draws)) := rfl
@[simp] theorem State.loadShift_out (s : State) (w : Nat) (v : Word) : (s.loadShift w v).out = s.out := rfl
@[simp] theorem State.loadShift_cfg (s : State) (w : Nat) (v : Word) : (s.loadShift w v).cfg = s.cfg := rfl
@[simp] theorem State.loadShift_buf (s : State) (w : Nat) (v : Word) : (s.loadShift w v).buf = s.buf := rfl
@[simp] theorem State.loadShift_lock (s : State) (w : Nat) (v : Word) : (s.loadShift w v).lock = s.lock := rfl
@[simp] theorem State.loadShift_pend (s : State) (w : Nat) (v : Word) : (s.loadShift w v).pend = s.pend := rfl
@[simp] theorem State.loadShift_phase (s : State) (w : Nat) (v : Word) : (s.loadShift w v).phase = s.phase := rfl
@[simp] theorem State.loadShift_widx (s : State) (w : Nat) (v : Word) : (s.loadShift w v).widx = BitVec.ofNat 32 w := rfl
@[simp] theorem State.loadShift_bidx (s : State) (w : Nat) (v : Word) : (s.loadShift w v).bidx = s.bidx := rfl
@[simp] theorem State.loadShift_kidx (s : State) (w : Nat) (v : Word) : (s.loadShift w v).kidx = s.kidx := rfl
@[simp] theorem State.loadShift_shift (s : State) (w : Nat) (v : Word) : (s.loadShift w v).shift = v := rfl
@[simp] theorem State.loadShift_wact (s : State) (w : Nat) (v : Word) : (s.loadShift w v).wact = s.wact := rfl
@[simp] theorem State.loadShift_wstart (s : State) (w : Nat) (v : Word) : (s.loadShift w v).wstart = s.wstart := rfl
@[simp] theorem State.loadShift_wn (s : State) (w : Nat) (v : Word) : (s.loadShift w v).wn = s.wn := rfl
@[simp] theorem State.loadShift_drem (s : State) (w : Nat) (v : Word) : (s.loadShift w v).drem = s.drem := rfl
@[simp] theorem State.loadShift_fault (s : State) (w : Nat) (v : Word) : (s.loadShift w v).fault = s.fault := rfl
@[simp] theorem State.loadShift_a (s : State) (w : Nat) (v : Word) : (s.loadShift w v).a = s.a := rfl
@[simp] theorem State.loadShift_b (s : State) (w : Nat) (v : Word) : (s.loadShift w v).b = s.b := rfl
@[simp] theorem State.loadShift_res (s : State) (w : Nat) (v : Word) : (s.loadShift w v).res = s.res := rfl
@[simp] theorem State.loadShift_waitBegan (s : State) (w : Nat) (v : Word) : (s.loadShift w v).waitBegan = s.waitBegan := rfl
@[simp] theorem State.loadShift_time (s : State) (w : Nat) (v : Word) : (s.loadShift w v).time = s.time + bounded none (Config.freeCycles s.draws) := rfl
@[simp] theorem State.loadShift_trace (s : State) (w : Nat) (v : Word) : (s.loadShift w v).trace = s.trace := rfl
@[simp] theorem State.loadShift_completions (s : State) (w : Nat) (v : Word) : (s.loadShift w v).completions = s.completions := rfl
@[simp] theorem State.loadShift_inputs (s : State) (w : Nat) (v : Word) : (s.loadShift w v).inputs = s.inputs := rfl
@[simp] theorem State.loadShift_draws (s : State) (w : Nat) (v : Word) : (s.loadShift w v).draws = s.draws + 1 := rfl
@[simp] theorem State.loadShift_meter (s : State) (w : Nat) (v : Word) : (s.loadShift w v).meter = s.meter := rfl

/-! ### `State.otherPins` -/

@[simp] theorem State.otherPins_conf (s : State) (high : Bool) (m : Word) : (s.otherPins high m).conf = s.conf := rfl
@[simp] theorem State.otherPins_cycle (s : State) (high : Bool) (m : Word) : (s.otherPins high m).cycle = s.cycle := rfl
@[simp] theorem State.otherPins_out (s : State) (high : Bool) (m : Word) : (s.otherPins high m).out = if high then s.out ||| s.conf.cutPins m else s.out &&& ~~~(s.conf.cutPins m) := rfl
@[simp] theorem State.otherPins_cfg (s : State) (high : Bool) (m : Word) : (s.otherPins high m).cfg = s.cfg := rfl
@[simp] theorem State.otherPins_buf (s : State) (high : Bool) (m : Word) : (s.otherPins high m).buf = s.buf := rfl
@[simp] theorem State.otherPins_lock (s : State) (high : Bool) (m : Word) : (s.otherPins high m).lock = s.lock := rfl
@[simp] theorem State.otherPins_pend (s : State) (high : Bool) (m : Word) : (s.otherPins high m).pend = s.pend := rfl
@[simp] theorem State.otherPins_phase (s : State) (high : Bool) (m : Word) : (s.otherPins high m).phase = s.phase := rfl
@[simp] theorem State.otherPins_widx (s : State) (high : Bool) (m : Word) : (s.otherPins high m).widx = s.widx := rfl
@[simp] theorem State.otherPins_bidx (s : State) (high : Bool) (m : Word) : (s.otherPins high m).bidx = s.bidx := rfl
@[simp] theorem State.otherPins_kidx (s : State) (high : Bool) (m : Word) : (s.otherPins high m).kidx = s.kidx := rfl
@[simp] theorem State.otherPins_shift (s : State) (high : Bool) (m : Word) : (s.otherPins high m).shift = s.shift := rfl
@[simp] theorem State.otherPins_wact (s : State) (high : Bool) (m : Word) : (s.otherPins high m).wact = s.wact := rfl
@[simp] theorem State.otherPins_wstart (s : State) (high : Bool) (m : Word) : (s.otherPins high m).wstart = s.wstart := rfl
@[simp] theorem State.otherPins_wn (s : State) (high : Bool) (m : Word) : (s.otherPins high m).wn = s.wn := rfl
@[simp] theorem State.otherPins_drem (s : State) (high : Bool) (m : Word) : (s.otherPins high m).drem = s.drem := rfl
@[simp] theorem State.otherPins_fault (s : State) (high : Bool) (m : Word) : (s.otherPins high m).fault = s.fault := rfl
@[simp] theorem State.otherPins_a (s : State) (high : Bool) (m : Word) : (s.otherPins high m).a = s.a := rfl
@[simp] theorem State.otherPins_b (s : State) (high : Bool) (m : Word) : (s.otherPins high m).b = s.b := rfl
@[simp] theorem State.otherPins_res (s : State) (high : Bool) (m : Word) : (s.otherPins high m).res = s.res := rfl
@[simp] theorem State.otherPins_waitBegan (s : State) (high : Bool) (m : Word) : (s.otherPins high m).waitBegan = s.waitBegan := rfl
@[simp] theorem State.otherPins_time (s : State) (high : Bool) (m : Word) : (s.otherPins high m).time = s.time := rfl
@[simp] theorem State.otherPins_trace (s : State) (high : Bool) (m : Word) : (s.otherPins high m).trace = s.trace := rfl
@[simp] theorem State.otherPins_completions (s : State) (high : Bool) (m : Word) : (s.otherPins high m).completions = s.completions := rfl
@[simp] theorem State.otherPins_inputs (s : State) (high : Bool) (m : Word) : (s.otherPins high m).inputs = s.inputs := rfl
@[simp] theorem State.otherPins_draws (s : State) (high : Bool) (m : Word) : (s.otherPins high m).draws = s.draws := rfl
@[simp] theorem State.otherPins_meter (s : State) (high : Bool) (m : Word) : (s.otherPins high m).meter = s.meter := rfl

end Sys2Proof.Machine
end

