-- ==== Sys2Proof/Laws/Environment.lean ====
section
/-! SUPPORT. Everything the environment can do, between commands and while one waits (00_scope.md R16, 20_memory.md R75 and R76). -/

namespace Sys2Proof.Machine

/-- `t` differs from `s` at most in what the environment may change, and the clock. -/
def State.OnlyEnvironment (s t : State) : Prop :=
  t = { s with
    cfg := t.cfg, out := t.out, pend := t.pend, inputs := t.inputs
    cycle := t.cycle, time := t.time, draws := t.draws }

theorem State.OnlyEnvironment.refl (s : State) : s.OnlyEnvironment s := rfl

theorem State.OnlyEnvironment.trans {s t u : State} (h : s.OnlyEnvironment t) (k : t.OnlyEnvironment u) :
    s.OnlyEnvironment u := by
  unfold State.OnlyEnvironment at *
  rw [k, h]

/-! ### One step -/

theorem State.perform_only {s t : State} {e : EnvStep} (h : s.perform e = .next t) : s.OnlyEnvironment t := by
  cases e with
  | configure outputs => cases h; rfl
  | drive high m =>
    simp only [State.perform] at h
    split at h
    · cases h; rfl
    · cases h
  | interrupt n => cases h; rfl

theorem State.arise_only {s t : State} {e : EnvStep} (h : s.arise e = .next t) : s.OnlyEnvironment t := by
  unfold State.arise at h
  split at h
  · cases h; rfl
  · exact State.perform_only h

theorem State.serve_only {s t : State} {k : Nat} (h : s.serve k = .next t) : s.OnlyEnvironment t := by
  unfold State.serve at h
  split at h
  · cases h; rfl
  · split at h
    · cases h; rfl
    · exact State.OnlyEnvironment.trans (t := { s with pend := s.pend.eraseIdx k }) rfl (State.perform_only h)

/-- Under the lock what arises goes to `PEND` (R32). -/
theorem State.arise_of_locked {s : State} (h : s.lock = true) (e : EnvStep) :
    s.arise e = .next { s with pend := addRequest s.pend e } := if_pos h

/-- Under the lock nothing is served (R162). -/
theorem State.serve_of_locked {s : State} (h : s.lock = true) (k : Nat) : s.serve k = .next s := if_pos h

theorem State.perform_mono {s t : State} {e : EnvStep} (h : s.perform e = .next t) : s.time ≤ t.time := by
  cases e with
  | configure outputs => cases h; exact Nat.le_add_right _ _
  | drive high m =>
    simp only [State.perform] at h
    split at h
    · cases h; exact Nat.le_add_right _ _
    · cases h
  | interrupt n => cases h; exact Nat.le_add_right _ _

theorem State.arise_mono {s t : State} {e : EnvStep} (h : s.arise e = .next t) : s.time ≤ t.time := by
  unfold State.arise at h
  split at h
  · cases h; exact Nat.le_refl _
  · exact State.perform_mono h

theorem State.serve_mono {s t : State} {k : Nat} (h : s.serve k = .next t) : s.time ≤ t.time := by
  unfold State.serve at h
  split at h
  · cases h; exact Nat.le_refl _
  · split at h
    · cases h; exact Nat.le_add_right _ _
    · exact State.perform_mono (s := { s with pend := s.pend.eraseIdx k }) h

/-! ### Some steps, while a command waits -/

/-- A property that every step of the environment keeps is kept by any number of them. -/
theorem State.interlude_keeps {P : State → Prop}
    (arise : ∀ (s t : State) e rest, P s → State.arise e { s with inputs := rest } = .next t → P t)
    (serve : ∀ (s t : State) k rest, P s → State.serve k { s with inputs := rest } = .next t → P t)
    (n : Nat) (ins : List Input) (s : State) (h : P s) : P (State.interlude n ins s) := by
  induction ins generalizing n s with
  | nil => exact h
  | cons x rest ih =>
    cases x with
    | command w => exact h
    | start w => exact h
    | engine => exact h
    | arise e =>
      cases n with
      | zero => exact h
      | succ n =>
        simp only [State.interlude]
        split
        · next t ht => exact ih n t (arise s t e rest h ht)
        · exact h
        · exact h
    | serve k =>
      cases n with
      | zero => exact h
      | succ n =>
        simp only [State.interlude]
        split
        · next t ht => exact ih n t (serve s t k rest h ht)
        · exact h
        · exact h

theorem State.interlude_only (n : Nat) (ins : List Input) (s : State) :
    s.OnlyEnvironment (State.interlude n ins s) :=
  State.interlude_keeps (P := s.OnlyEnvironment)
    (fun u _ _ rest h ht => (h.trans (u := { u with inputs := rest }) rfl).trans (State.arise_only ht))
    (fun u _ _ rest h ht => (h.trans (u := { u with inputs := rest }) rfl).trans (State.serve_only ht))
    n ins s rfl

theorem State.environment_only (s : State) : s.OnlyEnvironment s.environment :=
  State.OnlyEnvironment.trans (t := { s with draws := s.draws + 1 }) rfl (State.interlude_only _ _ _)

/-! ### What is left alone, field by field -/

@[simp] theorem State.environment_conf (s : State) : s.environment.conf = s.conf := by rw [s.environment_only]
@[simp] theorem State.environment_buf (s : State) : s.environment.buf = s.buf := by rw [s.environment_only]
@[simp] theorem State.environment_lock (s : State) : s.environment.lock = s.lock := by rw [s.environment_only]
@[simp] theorem State.environment_phase (s : State) : s.environment.phase = s.phase := by rw [s.environment_only]
@[simp] theorem State.environment_widx (s : State) : s.environment.widx = s.widx := by rw [s.environment_only]
@[simp] theorem State.environment_bidx (s : State) : s.environment.bidx = s.bidx := by rw [s.environment_only]
@[simp] theorem State.environment_kidx (s : State) : s.environment.kidx = s.kidx := by rw [s.environment_only]
@[simp] theorem State.environment_shift (s : State) : s.environment.shift = s.shift := by rw [s.environment_only]
@[simp] theorem State.environment_wact (s : State) : s.environment.wact = s.wact := by rw [s.environment_only]
@[simp] theorem State.environment_wstart (s : State) : s.environment.wstart = s.wstart := by rw [s.environment_only]
@[simp] theorem State.environment_wn (s : State) : s.environment.wn = s.wn := by rw [s.environment_only]
@[simp] theorem State.environment_drem (s : State) : s.environment.drem = s.drem := by rw [s.environment_only]
@[simp] theorem State.environment_fault (s : State) : s.environment.fault = s.fault := by rw [s.environment_only]
@[simp] theorem State.environment_a (s : State) : s.environment.a = s.a := by rw [s.environment_only]
@[simp] theorem State.environment_b (s : State) : s.environment.b = s.b := by rw [s.environment_only]
@[simp] theorem State.environment_res (s : State) : s.environment.res = s.res := by rw [s.environment_only]
@[simp] theorem State.environment_waitBegan (s : State) : s.environment.waitBegan = s.waitBegan := by rw [s.environment_only]
@[simp] theorem State.environment_trace (s : State) : s.environment.trace = s.trace := by rw [s.environment_only]
@[simp] theorem State.environment_completions (s : State) : s.environment.completions = s.completions := by rw [s.environment_only]
@[simp] theorem State.environment_meter (s : State) : s.environment.meter = s.meter := by rw [s.environment_only]

@[simp] theorem State.wait_conf (s : State) (n : Nat) (room : Option Nat) :
    (s.wait n room).conf = s.conf := by simp [State.wait]
@[simp] theorem State.wait_buf (s : State) (n : Nat) (room : Option Nat) :
    (s.wait n room).buf = s.buf := by simp [State.wait]
@[simp] theorem State.wait_lock (s : State) (n : Nat) (room : Option Nat) :
    (s.wait n room).lock = s.lock := by simp [State.wait]
@[simp] theorem State.wait_phase (s : State) (n : Nat) (room : Option Nat) :
    (s.wait n room).phase = s.phase := by simp [State.wait]
@[simp] theorem State.wait_widx (s : State) (n : Nat) (room : Option Nat) :
    (s.wait n room).widx = s.widx := by simp [State.wait]
@[simp] theorem State.wait_bidx (s : State) (n : Nat) (room : Option Nat) :
    (s.wait n room).bidx = s.bidx := by simp [State.wait]
@[simp] theorem State.wait_kidx (s : State) (n : Nat) (room : Option Nat) :
    (s.wait n room).kidx = s.kidx := by simp [State.wait]
@[simp] theorem State.wait_shift (s : State) (n : Nat) (room : Option Nat) :
    (s.wait n room).shift = s.shift := by simp [State.wait]
@[simp] theorem State.wait_wact (s : State) (n : Nat) (room : Option Nat) :
    (s.wait n room).wact = false := by simp [State.wait]
@[simp] theorem State.wait_wstart (s : State) (n : Nat) (room : Option Nat) :
    (s.wait n room).wstart = s.cycle := by simp [State.wait]
@[simp] theorem State.wait_wn (s : State) (n : Nat) (room : Option Nat) :
    (s.wait n room).wn = s.conf.cutCycles n := by simp [State.wait]
@[simp] theorem State.wait_drem (s : State) (n : Nat) (room : Option Nat) :
    (s.wait n room).drem = s.drem := by simp [State.wait]
@[simp] theorem State.wait_fault (s : State) (n : Nat) (room : Option Nat) :
    (s.wait n room).fault = s.fault := by simp [State.wait]
@[simp] theorem State.wait_a (s : State) (n : Nat) (room : Option Nat) :
    (s.wait n room).a = s.a := by simp [State.wait]
@[simp] theorem State.wait_b (s : State) (n : Nat) (room : Option Nat) :
    (s.wait n room).b = s.b := by simp [State.wait]
@[simp] theorem State.wait_res (s : State) (n : Nat) (room : Option Nat) :
    (s.wait n room).res = s.res := by simp [State.wait]
@[simp] theorem State.wait_waitBegan (s : State) (n : Nat) (room : Option Nat) :
    (s.wait n room).waitBegan = s.time := by simp [State.wait]
@[simp] theorem State.wait_trace (s : State) (n : Nat) (room : Option Nat) :
    (s.wait n room).trace = s.trace ++ [Stamp.mk s.time (.wait n)] := by simp [State.wait]
@[simp] theorem State.wait_completions (s : State) (n : Nat) (room : Option Nat) :
    (s.wait n room).completions = s.completions := by simp [State.wait]
@[simp] theorem State.wait_meter (s : State) (n : Nat) (room : Option Nat) :
    (s.wait n room).meter = s.meter := by simp [State.wait]

@[simp] theorem State.delay_conf (s : State) (d : Nat) :
    (s.delay d).conf = s.conf := by simp [State.delay]
@[simp] theorem State.delay_buf (s : State) (d : Nat) :
    (s.delay d).buf = s.buf := by simp [State.delay]
@[simp] theorem State.delay_lock (s : State) (d : Nat) :
    (s.delay d).lock = s.lock := by simp [State.delay]
@[simp] theorem State.delay_phase (s : State) (d : Nat) :
    (s.delay d).phase = s.phase := by simp [State.delay]
@[simp] theorem State.delay_widx (s : State) (d : Nat) :
    (s.delay d).widx = s.widx := by simp [State.delay]
@[simp] theorem State.delay_bidx (s : State) (d : Nat) :
    (s.delay d).bidx = s.bidx := by simp [State.delay]
@[simp] theorem State.delay_kidx (s : State) (d : Nat) :
    (s.delay d).kidx = s.kidx := by simp [State.delay]
@[simp] theorem State.delay_shift (s : State) (d : Nat) :
    (s.delay d).shift = s.shift := by simp [State.delay]
@[simp] theorem State.delay_wact (s : State) (d : Nat) :
    (s.delay d).wact = s.wact := by simp [State.delay]
@[simp] theorem State.delay_wstart (s : State) (d : Nat) :
    (s.delay d).wstart = s.wstart := by simp [State.delay]
@[simp] theorem State.delay_wn (s : State) (d : Nat) :
    (s.delay d).wn = s.wn := by simp [State.delay]
@[simp] theorem State.delay_drem (s : State) (d : Nat) :
    (s.delay d).drem = none := by simp [State.delay]
@[simp] theorem State.delay_fault (s : State) (d : Nat) :
    (s.delay d).fault = s.fault := by simp [State.delay]
@[simp] theorem State.delay_a (s : State) (d : Nat) :
    (s.delay d).a = s.a := by simp [State.delay]
@[simp] theorem State.delay_b (s : State) (d : Nat) :
    (s.delay d).b = s.b := by simp [State.delay]
@[simp] theorem State.delay_res (s : State) (d : Nat) :
    (s.delay d).res = s.res := by simp [State.delay]
@[simp] theorem State.delay_waitBegan (s : State) (d : Nat) :
    (s.delay d).waitBegan = s.waitBegan := by simp [State.delay]
@[simp] theorem State.delay_trace (s : State) (d : Nat) :
    (s.delay d).trace = s.trace ++ [Stamp.mk s.time (.delayMs d)] := by simp [State.delay]
@[simp] theorem State.delay_completions (s : State) (d : Nat) :
    (s.delay d).completions = s.completions := by simp [State.delay]
@[simp] theorem State.delay_meter (s : State) (d : Nat) :
    (s.delay d).meter = s.meter := by simp [State.delay]

/-! ### Nothing to do, and the lock -/

/-- With nothing for the environment to do, nothing is done. -/
theorem State.interlude_of_quiet {s : State} (h : s.quiet = true) (k : Nat) (t : State) :
    State.interlude k s.inputs t = t := by
  cases hi : s.inputs with
  | nil => rfl
  | cons x rest => cases x <;> simp [State.quiet, hi] at h <;> rfl

theorem State.environment_of_quiet {s : State} (h : s.quiet = true) :
    s.environment = { s with draws := s.draws + 1 } :=
  State.interlude_of_quiet h _ _

/-- The environment takes no time back. -/
theorem State.environment_mono (s : State) : s.time ≤ s.environment.time :=
  State.interlude_keeps (P := fun t => s.time ≤ t.time)
    (fun u _ _ rest h ht => Nat.le_trans h (State.arise_mono (s := { u with inputs := rest }) ht))
    (fun u _ _ rest h ht => Nat.le_trans h (State.serve_mono (s := { u with inputs := rest }) ht))
    _ _ { s with draws := s.draws + 1 } (Nat.le_refl _)

/-- Under the lock the environment takes no time and changes only `PEND` (R32, R162). -/
theorem State.interlude_locked (n : Nat) (ins : List Input) {s : State} (h : s.lock = true) :
    State.interlude n ins s = { s with
      pend := (State.interlude n ins s).pend, inputs := (State.interlude n ins s).inputs } := by
  refine State.interlude_keeps (P := fun t => t.lock = true ∧ t = { s with pend := t.pend, inputs := t.inputs })
    (fun u t e rest hu ht => ?_) (fun u t k rest hu ht => ?_) n ins s ⟨h, rfl⟩ |>.2
  · rw [State.arise_of_locked (s := { u with inputs := rest }) hu.1] at ht
    cases ht
    exact ⟨hu.1, by rw [hu.2]⟩
  · rw [State.serve_of_locked (s := { u with inputs := rest }) hu.1] at ht
    cases ht
    exact ⟨hu.1, by rw [hu.2]⟩

theorem State.environment_of_locked {s : State} (h : s.lock = true) :
    s.environment = { s with
      pend := s.environment.pend, inputs := s.environment.inputs, draws := s.environment.draws } := by
  have k := State.interlude_locked (Config.freeSteps s.draws) s.inputs (s := { s with draws := s.draws + 1 }) h
  unfold State.environment
  rw [k]

/-! ### Some steps after some steps -/

theorem State.perform_inputs {s t : State} {e : EnvStep} (h : s.perform e = .next t) : t.inputs = s.inputs := by
  cases e with
  | configure outputs => cases h; rfl
  | drive high m =>
    simp only [State.perform] at h
    split at h <;> cases h
    rfl
  | interrupt n => cases h; rfl

theorem State.arise_inputs {s t : State} {e : EnvStep} (h : s.arise e = .next t) : t.inputs = s.inputs := by
  unfold State.arise at h
  split at h
  · cases h; rfl
  · exact State.perform_inputs h

theorem State.serve_inputs {s t : State} {k : Nat} (h : s.serve k = .next t) : t.inputs = s.inputs := by
  unfold State.serve at h
  split at h
  · cases h; rfl
  · split at h
    · cases h; rfl
    · exact State.perform_inputs (s := { s with pend := s.pend.eraseIdx k }) h

/-- No step. -/
@[simp] theorem State.interlude_zero (ins : List Input) (s : State) : State.interlude 0 ins s = s := by
  cases ins with
  | nil => rfl
  | cons x rest => cases x <;> rfl

/-- `k` steps of the environment after `j` of them are `j + k`. -/
theorem State.interlude_interlude (j k : Nat) (ins : List Input) {s : State} (h : s.inputs = ins) :
    State.interlude k (State.interlude j ins s).inputs (State.interlude j ins s) =
      State.interlude (j + k) ins s := by
  induction ins generalizing j s with
  | nil => simp only [State.interlude, h]
  | cons x rest ih =>
    cases x with
    | command w => simp only [State.interlude, h]
    | start w => simp only [State.interlude, h]
    | engine => simp only [State.interlude, h]
    | arise e =>
      cases j with
      | zero => rw [State.interlude_zero, h, Nat.zero_add]
      | succ j =>
        rw [Nat.succ_add]
        simp only [State.interlude]
        split
        · next t ht => exact ih j (State.arise_inputs ht)
        · next r ht =>
          rw [h]
          cases k <;> simp only [State.interlude, ht]
        · next r ht =>
          rw [h]
          cases k <;> simp only [State.interlude, ht]
    | serve i =>
      cases j with
      | zero => rw [State.interlude_zero, h, Nat.zero_add]
      | succ j =>
        rw [Nat.succ_add]
        simp only [State.interlude]
        split
        · next t ht => exact ih j (State.serve_inputs ht)
        · next r ht =>
          rw [h]
          cases k <;> simp only [State.interlude, ht]
        · next r ht =>
          rw [h]
          cases k <;> simp only [State.interlude, ht]

/-- Under the lock what the environment does depends on `PEND` and what is listed alone. -/
theorem State.interlude_of_locked (n : Nat) (ins : List Input) {s t : State} (hs : s.lock = true)
    (ht : t.lock = true) (hp : t.pend = s.pend) (hi : t.inputs = s.inputs) :
    (State.interlude n ins t).pend = (State.interlude n ins s).pend ∧
    (State.interlude n ins t).inputs = (State.interlude n ins s).inputs := by
  induction ins generalizing n s t with
  | nil => exact ⟨hp, hi⟩
  | cons x rest ih =>
    cases x with
    | command w => exact ⟨hp, hi⟩
    | start w => exact ⟨hp, hi⟩
    | engine => exact ⟨hp, hi⟩
    | arise e =>
      cases n with
      | zero => exact ⟨hp, hi⟩
      | succ n =>
        simp only [State.interlude, State.arise_of_locked (s := { s with inputs := rest }) hs,
          State.arise_of_locked (s := { t with inputs := rest }) ht]
        exact ih n hs ht (congrArg (addRequest · e) hp) rfl
    | serve k =>
      cases n with
      | zero => exact ⟨hp, hi⟩
      | succ n =>
        simp only [State.interlude, State.serve_of_locked (s := { s with inputs := rest }) hs,
          State.serve_of_locked (s := { t with inputs := rest }) ht]
        exact ih n hs ht hp rfl

end Sys2Proof.Machine
end

