-- ==== Sys2Proof/Laws/Memory.lean ====
section
/-! SUPPORT. The pixel buffer's laws: read after write, writes leave other places alone, every operation keeps the canonical form. -/

namespace Sys2Proof.Machine

@[simp] theorem Memory.read_nil (addr : Nat) : Memory.read [] addr = 0 := rfl

/-- An address below every listed one reads 0. -/
theorem Memory.read_of_lt_all {m : Memory} {addr : Nat} (h : ∀ c ∈ m, addr < c.1) :
    Memory.read m addr = 0 := by
  induction m with
  | nil => rfl
  | cons c rest ih =>
    have hc := h c (by simp)
    rw [Memory.read, if_neg (by omega)]
    exact ih (fun d hd => h d (by simp [hd]))

/-- Read after write, at the address written and at any other. -/
theorem Memory.read_write {m : Memory} (h : m.Pairwise (fun x y => x.1 < y.1)) (addr : Nat) (v : Byte)
    (at' : Nat) :
    Memory.read (Memory.write m addr v) at' = if at' = addr then v else Memory.read m at' := by
  induction m with
  | nil =>
    by_cases hv : v = 0
    · simp [Memory.write, hv]
    · simp only [Memory.write, hv, if_false, Memory.read]
      split <;> split <;> first | rfl | omega
  | cons c rest ih =>
    obtain ⟨hlt, hrest⟩ := List.pairwise_cons.mp h
    have hsmall : ∀ b, b ≤ c.1 → Memory.read rest b = 0 := fun b hb =>
      Memory.read_of_lt_all (fun d hd => by have := hlt d hd; omega)
    unfold Memory.write
    by_cases h1 : addr < c.1
    · rw [if_pos h1]
      by_cases hv : v = 0
      · rw [if_pos hv]
        split
        · next heq => rw [heq, hv, Memory.read, if_neg (by omega)]; exact hsmall _ (by omega)
        · rfl
      · rw [if_neg hv, Memory.read]
        split <;> split <;> first | rfl | omega
    · rw [if_neg h1]
      by_cases h2 : addr = c.1
      · rw [if_pos h2]
        by_cases hv : v = 0
        · rw [if_pos hv]
          split
          · next heq => rw [heq, hv]; exact hsmall _ (by omega)
          · next hne => rw [Memory.read, if_neg (by omega)]
        · rw [if_neg hv, Memory.read, Memory.read]
          split <;> split <;> first | rfl | omega | skip
          all_goals split <;> first | rfl | omega
      · rw [if_neg h2, Memory.read, Memory.read, ih hrest]
        split <;> split <;> first | rfl | omega

/-- What a write lists: the address written, or what was listed before. -/
theorem Memory.mem_write {m : Memory} {addr : Nat} {v : Byte} {c : Host.Cell}
    (h : c ∈ Memory.write m addr v) : c.1 = addr ∨ c ∈ m := by
  induction m with
  | nil =>
    unfold Memory.write at h
    split at h <;> simp_all
  | cons d rest ih =>
    unfold Memory.write at h
    split at h
    · split at h
      · exact .inr h
      · rcases List.mem_cons.mp h with rfl | h
        · exact .inl rfl
        · exact .inr h
    · split at h
      · split at h
        · exact .inr (by simp [h])
        · rcases List.mem_cons.mp h with rfl | h
          · exact .inl rfl
          · exact .inr (by simp [h])
      · rcases List.mem_cons.mp h with rfl | h
        · exact .inr (by simp)
        · rcases ih h with h | h
          · exact .inl h
          · exact .inr (by simp [h])

/-- A write keeps the canonical form. -/
theorem Memory.write_wf {m : Memory} (h : Memory.wf m) (addr : Nat) (v : Byte) :
    Memory.wf (Memory.write m addr v) := by
  induction m with
  | nil =>
    unfold Memory.write
    split <;> simp_all [Memory.wf]
  | cons c rest ih =>
    obtain ⟨hsort, hnz⟩ := h
    obtain ⟨hlt, hrest⟩ := List.pairwise_cons.mp hsort
    have hwf : Memory.wf rest := ⟨hrest, fun d hd => hnz d (by simp [hd])⟩
    have hc : c.2 ≠ 0 := hnz c (by simp)
    unfold Memory.write
    split
    · next h1 =>
      split
      · exact ⟨hsort, hnz⟩
      · next hv =>
        refine ⟨List.pairwise_cons.mpr ⟨fun d hd => ?_, hsort⟩, fun d hd => ?_⟩
        · rcases List.mem_cons.mp hd with rfl | hd
          · exact h1
          · have := hlt d hd; omega
        · rcases List.mem_cons.mp hd with rfl | hd
          · exact hv
          · exact hnz d hd
    · next h1 =>
      split
      · next h2 =>
        split
        · exact hwf
        · next hv =>
          refine ⟨List.pairwise_cons.mpr ⟨fun d hd => ?_, hrest⟩, fun d hd => ?_⟩
          · have := hlt d hd; omega
          · rcases List.mem_cons.mp hd with rfl | hd
            · exact hv
            · exact hnz d (by simp [hd])
      · next h2 =>
        obtain ⟨hs, hz⟩ := ih hwf
        refine ⟨List.pairwise_cons.mpr ⟨fun d hd => ?_, hs⟩, fun d hd => ?_⟩
        · rcases Memory.mem_write hd with heq | hmem
          · omega
          · exact hlt d hmem
        · rcases List.mem_cons.mp hd with rfl | hd
          · exact hc
          · exact hz d hd

/-- Writing bytes keeps the canonical form. -/
theorem Memory.writeBytes_wf {m : Memory} (h : Memory.wf m) (addr : Nat) (bytes : List Byte) :
    Memory.wf (Memory.writeBytes m addr bytes) := by
  induction bytes generalizing m addr with
  | nil => exact h
  | cons v rest ih => exact ih (Memory.write_wf h addr v) (addr + 1)

/-- What writing bytes lists: the addresses written, or what was listed before. -/
theorem Memory.mem_writeBytes {m : Memory} {addr : Nat} {bytes : List Byte} {c : Host.Cell}
    (h : c ∈ Memory.writeBytes m addr bytes) :
    (addr ≤ c.1 ∧ c.1 < addr + bytes.length) ∨ c ∈ m := by
  induction bytes generalizing m addr with
  | nil => exact .inr h
  | cons v rest ih =>
    rcases ih h with ⟨h1, h2⟩ | hm
    · exact .inl ⟨by omega, by simp only [List.length_cons]; omega⟩
    · rcases Memory.mem_write hm with heq | hm
      · exact .inl ⟨by omega, by simp only [List.length_cons]; omega⟩
      · exact .inr hm

/-- Writing bytes leaves every other address alone, and puts each byte at its address. -/
theorem Memory.read_writeBytes {m : Memory} (h : Memory.wf m) (addr : Nat) (bytes : List Byte) (b : Nat) :
    Memory.read (Memory.writeBytes m addr bytes) b =
      if addr ≤ b then (bytes[b - addr]?).getD (Memory.read m b) else Memory.read m b := by
  induction bytes generalizing m addr with
  | nil => simp [Memory.writeBytes]
  | cons v rest ih =>
    rw [Memory.writeBytes, ih (Memory.write_wf h addr v), Memory.read_write h.1]
    rcases Nat.lt_trichotomy b addr with hlt | heq | hgt
    · rw [if_neg (by omega), if_neg (by omega), if_neg (by omega)]
    · subst heq
      rw [if_neg (by omega), if_pos rfl, if_pos (by omega)]
      simp
    · rw [if_pos (by omega), if_neg (by omega), if_pos (by omega)]
      obtain ⟨d, rfl⟩ : ∃ d, b = addr + 1 + d := ⟨b - addr - 1, by omega⟩
      rw [show addr + 1 + d - (addr + 1) = d by omega, show addr + 1 + d - addr = d + 1 by omega]
      simp

/-- Clearing keeps the canonical form. -/
theorem Memory.clearBelow_wf {m : Memory} (h : Memory.wf m) (n : Nat) :
    Memory.wf (Memory.clearBelow m n) :=
  ⟨h.1.filter _, fun c hc => h.2 c (List.mem_filter.mp hc).1⟩

/-- Clearing zeroes every address below `n` and leaves every other alone. -/
theorem Memory.read_clearBelow (m : Memory) (n b : Nat) :
    Memory.read (Memory.clearBelow m n) b = if b < n then 0 else Memory.read m b := by
  induction m with
  | nil => simp [Memory.clearBelow, Memory.read]
  | cons c rest ih =>
    unfold Memory.clearBelow at ih ⊢
    by_cases hc : n ≤ c.1
    · rw [List.filter_cons_of_pos (by simpa using hc), Memory.read, Memory.read, ih]
      split <;> split <;> first | rfl | omega
    · rw [List.filter_cons_of_neg (by simpa using hc), ih, Memory.read]
      split <;> first | rfl | (rw [if_neg (by omega)])

/-- Memory at reset is in canonical form. -/
theorem Memory.reset_wf : Memory.wf State.reset.buf := by
  simp [State.reset, State.init, Memory.wf]

/-- Two canonical memories that read alike are equal. -/
theorem Memory.eq_of_read {m n : Memory} (hm : Memory.wf m) (hn : Memory.wf n)
    (h : ∀ b, Memory.read m b = Memory.read n b) : m = n := by
  induction m generalizing n with
  | nil =>
    cases n with
    | nil => rfl
    | cons d rest =>
      have h1 := h d.1
      simp only [Memory.read, if_true] at h1
      exact absurd h1.symm (hn.2 d (by simp))
  | cons c ms ih =>
    obtain ⟨hcl, hcs⟩ := List.pairwise_cons.mp hm.1
    have hc : c.2 ≠ 0 := hm.2 c (by simp)
    cases n with
    | nil =>
      have h1 := h c.1
      simp only [Memory.read, if_true] at h1
      exact absurd h1 hc
    | cons d ns =>
      obtain ⟨hdl, hds⟩ := List.pairwise_cons.mp hn.1
      have hd : d.2 ≠ 0 := hn.2 d (by simp)
      have hms : ∀ b, b ≤ c.1 → Memory.read ms b = 0 := fun b hb =>
        Memory.read_of_lt_all (fun e he => by have := hcl e he; omega)
      have hns : ∀ b, b ≤ d.1 → Memory.read ns b = 0 := fun b hb =>
        Memory.read_of_lt_all (fun e he => by have := hdl e he; omega)
      have hkey : c.1 = d.1 := by
        rcases Nat.lt_trichotomy c.1 d.1 with hlt | heq | hgt
        · have h1 := h c.1
          rw [Memory.read, if_pos rfl, Memory.read, if_neg (by omega), hns _ (by omega)] at h1
          exact absurd h1 hc
        · exact heq
        · have h1 := h d.1
          rw [Memory.read, if_neg (by omega), hms _ (by omega), Memory.read, if_pos rfl] at h1
          exact absurd h1.symm hd
      have hval : c.2 = d.2 := by
        have h1 := h c.1
        rw [Memory.read, if_pos rfl, Memory.read, if_pos hkey.symm] at h1
        exact h1
      have hrest : ms = ns := by
        refine ih ⟨hcs, fun e he => hm.2 e (by simp [he])⟩ ⟨hds, fun e he => hn.2 e (by simp [he])⟩
          (fun b => ?_)
        by_cases hb : b = c.1
        · rw [hms b (by omega), hns b (by omega)]
        · have h1 := h b
          rw [Memory.read, if_neg (by omega), Memory.read, if_neg (by omega)] at h1
          exact h1
      rw [Prod.ext hkey hval, hrest]

end Sys2Proof.Machine
end

