-- ==== Sys2Proof/Laws/Ops.lean ====
section
/-! SUPPORT. One lemma per shared operation: what it answers and everything it can do. -/

namespace Sys2Proof

/-! ### Parameters and arithmetic -/

/-- What validity gives (R268). -/
theorem Config.valid_widths {c : Config} (h : c.valid = true) :
    1 ≤ c.cw ∧ c.cw ≤ 32 ∧ 1 ≤ c.pw ∧ c.pw ≤ 32 := by
  simp [Config.valid] at h
  omega

/-- What validity gives for the mask (R268). -/
theorem Config.valid_pinMask {c : Config} (h : c.valid = true) :
    c.pinMask ≠ 0 ∧ c.pinMask.toNat < 2 ^ c.pw := by
  simp only [Config.valid, Bool.and_eq_true, decide_eq_true_eq] at h
  exact ⟨h.1.1.1.1.1.1.2, h.1.1.1.1.1.2⟩

/-- What validity gives for the buffer (R268). -/
theorem Config.valid_bytes {c : Config} (h : c.valid = true) : c.bufBytes < 2 ^ 32 := by
  simp only [Config.valid, Bool.and_eq_true, decide_eq_true_eq] at h
  exact h.1.1.1.2

/-- What validity gives for the four durations (R268). -/
theorem Config.valid_times {c : Config} (h : c.valid = true) (v : Bool) :
    c.highTime v < 2 ^ (c.cw - 1) ∧ c.lowTime v < 2 ^ (c.cw - 1) := by
  simp only [Config.valid, Config.durationOk, Bool.and_eq_true, decide_eq_true_eq] at h
  cases v <;> simp [Config.highTime, Config.lowTime, Config.t0H, Config.t0L, Config.t1H, Config.t1L] <;>
    omega

/-- The words hold the pixels (R10). -/
theorem Config.words_bounds (c : Config) :
    3 * c.pixels ≤ 4 * c.words ∧ 4 * c.words < 3 * c.pixels + 4 := by
  unfold Config.words
  omega

/-- A value cut to `CW` bits. -/
theorem Config.toNat_cutCycles {c : Config} (h : c.cw ≤ 32) (n : Nat) :
    (c.cutCycles n).toNat = n % 2 ^ c.cw := by
  have h1 : n % 2 ^ c.cw < 2 ^ c.cw := Nat.mod_lt _ (Nat.two_pow_pos _)
  have h2 : 2 ^ c.cw ≤ 2 ^ 32 := Nat.pow_le_pow_right (by omega) h
  rw [Config.cutCycles, BitVec.toNat_ofNat, Nat.mod_eq_of_lt (by omega)]

/-- A value that fits is not cut. -/
theorem Config.cutCycles_of_lt {c : Config} {x : Word} (h : x.toNat < 2 ^ c.cw) :
    c.cutCycles x.toNat = x := by
  rw [Config.cutCycles, Nat.mod_eq_of_lt h, BitVec.ofNat_toNat, BitVec.setWidth_eq]

/-- Cutting twice is cutting once, also after adding. -/
theorem Config.cutCycles_add {c : Config} (h : c.cw ≤ 32) (a n : Nat) :
    c.cutCycles ((c.cutCycles a).toNat + n) = c.cutCycles (a + n) := by
  apply BitVec.eq_of_toNat_eq
  rw [Config.toNat_cutCycles h, Config.toNat_cutCycles h, Config.toNat_cutCycles h, Nat.mod_add_mod]

/-- The fewest cycles of a delay are enough (R167). -/
theorem Config.msCycles_spec (c : Config) (d : Nat) : d * c.clkHz ≤ 1000 * c.msCycles d := by
  unfold Config.msCycles
  omega

/-- A pin write takes at most `PIN_OVH` (R146). -/
theorem Config.pinTime_le (c : Config) : c.pinTime ≤ c.pinOvh := Nat.min_le_right _ _

/-- A pixel inside the bound lies in the buffer (R66, R70). -/
theorem Config.pixel_fits {c : Config} {i : Nat} (h : i < c.pixels) : 3 * i + 3 ≤ c.bufBytes := by
  have := c.words_bounds
  simp only [Config.bufBytes]
  omega

end Sys2Proof

namespace Sys2Proof.Machine

/-! ### Outcomes -/

@[simp] theorem andThen_next (s : State) (k : State → Host.Outcome State Fault Refusal) :
    andThen (.next s) k = k s := rfl

@[simp] theorem andThen_fault (r : Fault) (k : State → Host.Outcome State Fault Refusal) :
    andThen (.fault r) k = .fault r := rfl

/-- Two outcomes in a row answer a next state through a state between them. -/
theorem andThen_eq_next {o : Host.Outcome State Fault Refusal}
    {k : State → Host.Outcome State Fault Refusal} {t : State} (h : andThen o k = .next t) :
    ∃ u, o = .next u ∧ k u = .next t := by
  cases o with
  | next u => exact ⟨u, rfl, h⟩
  | fault r => cases h
  | refused r => cases h

/-- `failIf` and `firstOf` on their conditions. -/
@[simp] theorem failIf_true (c : Cause) : failIf true c = some c := rfl

@[simp] theorem failIf_false (c : Cause) : failIf false c = none := rfl

@[simp] theorem firstOf_none (d : Option Cause) : firstOf none d = d := rfl

@[simp] theorem firstOf_some (c : Cause) (d : Option Cause) : firstOf (some c) d = some c := rfl

/-! ### Commands -/

/-- A command under a standing fault (R271). -/
theorem State.command_of_fault {s : State} (h : s.fault ≠ none) (check : Option Cause)
    (effect : State → Host.Outcome State Fault Refusal) : s.command check effect = .next s.drop := by
  unfold State.command
  cases hf : s.fault with
  | none => exact absurd hf h
  | some c => rfl

/-- A command while a send is in progress (R267). -/
theorem State.command_of_busy {s : State} (h : s.fault = none) (hb : s.phase ≠ .idle)
    (check : Option Cause) (effect : State → Host.Outcome State Fault Refusal) :
    s.command check effect = .next (s.abort .busy) := by
  simp [State.command, h, State.busy, hb]

/-- A command whose own check fails. -/
theorem State.command_of_check {s : State} (h : s.Ready) (c : Cause)
    (effect : State → Host.Outcome State Fault Refusal) :
    s.command (some c) effect = .next (s.abort c) := by
  simp [State.command, h.fault, State.busy, h.phase]

/-- A command whose checks all pass. -/
theorem State.command_of_ready {s : State} (h : s.Ready)
    (effect : State → Host.Outcome State Fault Refusal) : s.command none effect = effect s := by
  simp [State.command, h.fault, State.busy, h.phase]

/-- Everything a command can do: it is dropped under a standing fault, it aborts, or it has its effect. -/
theorem State.command_cases (s : State) (check : Option Cause)
    (effect : State → Host.Outcome State Fault Refusal) :
    (s.fault ≠ none ∧ s.command check effect = .next s.drop) ∨
    (s.fault = none ∧ ∃ c, s.command check effect = .next (s.abort c)) ∨
    (s.fault = none ∧ s.phase = .idle ∧ check = none ∧ s.command check effect = effect s) := by
  by_cases hf : s.fault = none
  · by_cases hb : s.phase = .idle
    · cases check with
      | none => exact .inr (.inr ⟨hf, hb, rfl, by simp [State.command, hf, State.busy, hb]⟩)
      | some c => exact .inr (.inl ⟨hf, c, by simp [State.command, hf, State.busy, hb]⟩)
    · exact .inr (.inl ⟨hf, .busy, State.command_of_busy hf hb _ _⟩)
  · exact .inl ⟨hf, State.command_of_fault hf _ _⟩

/-- An abort is what R270 says. -/
theorem State.aborts_abort (s : State) (c : Cause) : s.Aborts (s.abort c) c := rfl

/-- Returning a value is what R102 says. -/
theorem State.returns_returnValue (s : State) (v : Word) : s.Returns (s.returnValue v) v := rfl

/-! ### Events -/

@[simp] theorem State.events_pass (s : State) (n : Nat) : (s.pass n).events = s.events := rfl

@[simp] theorem State.events_drift (s : State) (l : Option Nat) : (s.drift l).events = s.events := rfl

@[simp] theorem State.events_pinSet (s : State) (m : Word) :
    (s.pinSet m).events = s.events ++ [.high m] := by simp [State.events]

@[simp] theorem State.events_pinClr (s : State) (m : Word) :
    (s.pinClr m).events = s.events ++ [.low m] := by simp [State.events]

@[simp] theorem State.events_acquire (s : State) : s.acquire.events = s.events ++ [.lock] := by
  simp [State.events]

@[simp] theorem State.events_release (s : State) : s.release.events = s.events ++ [.unlock] := by
  simp [State.events]

@[simp] theorem State.events_beginWait (s : State) (n : Nat) :
    (s.beginWait n).events = s.events ++ [.wait n] := by simp [State.events]

@[simp] theorem State.events_environment (s : State) : s.environment.events = s.events := by
  simp [State.events]

@[simp] theorem State.events_wait (s : State) (n : Nat) (room : Option Nat) :
    (s.wait n room).events = s.events ++ [.wait n] := by simp [State.events, State.wait]

@[simp] theorem State.events_beginDelay (s : State) (d : Nat) :
    (s.beginDelay d).events = s.events ++ [.delayMs d] := by simp [State.events]

@[simp] theorem State.events_delay (s : State) (d : Nat) :
    (s.delay d).events = s.events ++ [.delayMs d] := by simp [State.events, State.delay]

@[simp] theorem State.events_setSeq (s : State) (p : Phase) (w : Word) (i : BitVec 2) (k : BitVec 3) :
    (s.setSeq p w i k).events = s.events := rfl

@[simp] theorem State.events_returnValue (s : State) (v : Word) : (s.returnValue v).events = s.events := rfl

@[simp] theorem State.events_returnNothing (s : State) : s.returnNothing.events = s.events := rfl

@[simp] theorem State.events_drop (s : State) : s.drop.events = s.events := rfl

@[simp] theorem State.events_abort (s : State) (c : Cause) :
    (s.abort c).events = s.events ++ [.abort c] := by simp [State.events]

@[simp] theorem State.events_startMeter (s : State) : s.startMeter.events = s.events := rfl

@[simp] theorem State.events_loadShift (s : State) (w : Nat) (v : Word) :
    (s.loadShift w v).events = s.events := rfl

/-! ### Order in the trace (00_scope.md R15) -/

/-- A trace stays in order as time passes. -/
theorem Timed.mono {conf : Config} {trace : List Stamp} {m n : Nat} (h : Timed conf trace m) (hmn : m ≤ n) :
    Timed conf trace n := by
  induction trace with
  | nil => trivial
  | cons x rest ih =>
    cases rest with
    | nil => exact Nat.le_trans h hmn
    | cons y rest => exact ⟨h.1, ih h.2⟩

/-- One more event at the end. -/
theorem Timed.append {conf : Config} {trace : List Stamp} {x : Stamp} {now : Nat}
    (h : Timed conf trace x.time) (hx : x.earliestNext conf ≤ now) : Timed conf (trace ++ [x]) now := by
  induction trace with
  | nil => exact hx
  | cons y rest ih =>
    cases rest with
    | nil => exact ⟨h, hx⟩
    | cons z rest => exact ⟨h.1, ih h.2⟩

/-- Nothing is in flight at rest. -/
theorem State.AtRest.inFlight {s : State} (h : s.AtRest) : s.inFlight = false := by
  simp [State.inFlight, State.busy, h.phase, h.wact, h.drem]

/-! ### The counter -/

/-- The difference of two counter values `e` cycles apart (R121, R124). -/
theorem cycleDiff_of_elapsed {cw : Nat} {c start : Word} {e : Nat} (hs : start.toNat < 2 ^ cw)
    (hc : c.toNat = (start.toNat + e) % 2 ^ cw) : cycleDiff cw c start = e % 2 ^ cw := by
  have hp := Nat.two_pow_pos cw
  rw [cycleDiff, hc]
  have h1 := Nat.mod_lt (start.toNat + e) hp
  have h2 := Nat.mod_add_div (start.toNat + e) (2 ^ cw)
  generalize 2 ^ cw = m at *
  generalize (start.toNat + e) % m = r at *
  generalize (start.toNat + e) / m = q at *
  have h3 : e + m * 1 = (r + m - start.toNat) + m * q := by rw [Nat.mul_one]; omega
  have h4 : (e + m * 1) % m = e % m := Nat.add_mul_mod_self_left e m 1
  have h5 : ((r + m - start.toNat) + m * q) % m = (r + m - start.toNat) % m :=
    Nat.add_mul_mod_self_left _ m q
  rw [← h5, ← h3, h4]

/-- The exit test as an inequality (R123). -/
theorem waitDone_iff {cw : Nat} {c start n : Word} :
    waitDone cw c start n = true ↔ n.toNat ≤ cycleDiff cw c start := by
  simp [waitDone]

/-- A wait's length: at least `n` and what the environment took, at most `room` more than `n` where that took nothing,
and the exit test holds (R123 to R125). -/
theorem State.waitLength_spec (s : State) (n : Nat) (room : Option Nat) (past : Nat) :
    n ≤ s.waitLength n room past ∧ past ≤ s.waitLength n room past ∧
    (∀ r, room = some r → past ≤ n → s.waitLength n room past ≤ n + r) ∧
    (n < 2 ^ s.conf.cw → n ≤ s.waitLength n room past % 2 ^ s.conf.cw) := by
  unfold State.waitLength
  dsimp only
  split
  · next h =>
    refine ⟨by omega, by omega, fun r hr hp => ?_, fun _ => h⟩
    subst hr
    simp only [bounded]
    omega
  · split
    · exact ⟨Nat.le_refl n, by omega, fun r _ _ => by omega, fun hn => by rw [Nat.mod_eq_of_lt hn]⟩
    · next h1 h2 =>
      have h0 : past ≤ max n past + bounded room (Config.freeCycles s.draws) := by omega
      generalize max n past + bounded room (Config.freeCycles s.draws) = t at *
      have ht := Nat.mod_add_div t (2 ^ s.conf.cw)
      have e : t - t % 2 ^ s.conf.cw = 2 ^ s.conf.cw * (t / 2 ^ s.conf.cw) := by omega
      refine ⟨by omega, by omega, fun r _ hp => absurd hp h2, fun hn => ?_⟩
      rw [e, Nat.mul_add_mod, Nat.mod_eq_of_lt hn]

/-- Everything the rest of a wait does but end it: the clock, to an instant `n` cycles or more after the entry, within
`room` of that under the lock, at which the exit test holds (R123 to R125). -/
theorem State.finishWait_spec (s : State) (n : Nat) (room : Option Nat) (h : s.waitBegan ≤ s.time) :
    s.time ≤ (s.finishWait n room).time ∧ s.waitBegan + n ≤ (s.finishWait n room).time ∧
    (∀ r, room = some r → s.time ≤ s.waitBegan + n → (s.finishWait n room).time ≤ s.waitBegan + n + r) ∧
    (n < 2 ^ s.conf.cw → n ≤ ((s.finishWait n room).time - s.waitBegan) % 2 ^ s.conf.cw) ∧
    (s.finishWait n room).cycle =
      s.conf.cutCycles (s.cycle.toNat + ((s.finishWait n room).time - s.time)) := by
  obtain ⟨h1, h2, h3, h4⟩ := s.waitLength_spec n room (s.time - s.waitBegan)
  simp only [State.finishWait_time, State.finishWait_cycle]
  refine ⟨by omega, by omega, fun r hr hp => ?_, fun hn => ?_, ?_⟩
  · have := h3 r hr (by omega)
    omega
  · have e : s.time + (s.waitLength n room (s.time - s.waitBegan) - (s.time - s.waitBegan)) - s.waitBegan =
        s.waitLength n room (s.time - s.waitBegan) := by omega
    rw [e]
    exact h4 hn
  · rw [Nat.add_sub_cancel_left]

/-! ### Pins of another agent -/

/-- Another agent's write that meets no pin of the mask changes none (R147). -/
theorem State.otherPins_and {s : State} {m : Word} (high : Bool) (h : m &&& s.conf.pinMask = 0) :
    (s.otherPins high m).out &&& s.conf.pinMask = s.out &&& s.conf.pinMask := by
  have key : ∀ i (hi : i < 32), s.conf.pinMask[i] = true → (s.conf.cutPins m)[i] = false := by
    intro i hi hp
    have h1 := congrArg (fun v : Word => v.getLsbD i) h
    have h2 : (s.conf.cutPins m).getLsbD i = true → m.getLsbD i = true := by
      intro h2
      simp [Config.cutPins, BitVec.getLsbD_ofNat, Nat.testBit_mod_two_pow] at h2
      exact h2.2.2
    simp [hi, hp] at h1 h2
    cases hq : (s.conf.cutPins m)[i]
    · rfl
    · rw [h2 hq] at h1
      cases h1
  ext i hi
  have k := key i hi
  cases hp : s.conf.pinMask[i] <;> cases high <;> simp [State.otherPins, hp] at k ⊢ <;> simp [k]

/-! ### The environment: the clock and the pins -/

/-- From `s` to `t` time passes and `CYCLE` counts it (R14, R21). -/
def State.Clocked (s t : State) : Prop :=
  s.time ≤ t.time ∧ t.cycle.toNat = (s.cycle.toNat + (t.time - s.time)) % 2 ^ s.conf.cw

theorem State.Clocked.refl {s : State} (h : s.cycle.toNat < 2 ^ s.conf.cw) : s.Clocked s :=
  ⟨Nat.le_refl _, by rw [Nat.sub_self, Nat.add_zero, Nat.mod_eq_of_lt h]⟩

theorem State.Clocked.trans {s t u : State} (hc : t.conf = s.conf) (h : s.Clocked t) (k : t.Clocked u) :
    s.Clocked u := by
  obtain ⟨h1, h2⟩ := h
  obtain ⟨k1, k2⟩ := k
  refine ⟨Nat.le_trans h1 k1, ?_⟩
  rw [k2, hc, h2, Nat.mod_add_mod]
  congr 1
  omega

theorem State.Clocked.pass {s : State} (hw : s.conf.cw ≤ 32) (n : Nat) : s.Clocked (s.pass n) :=
  ⟨Nat.le_add_right _ _, by simp [Config.toNat_cutCycles hw]⟩

/-- The counter keeps its width. -/
theorem State.Clocked.lt {s t : State} (h : s.Clocked t) : t.cycle.toNat < 2 ^ s.conf.cw := by
  rw [h.2]
  exact Nat.mod_lt _ (Nat.two_pow_pos _)

theorem State.perform_clocked {s t : State} {e : EnvStep} (hw : s.conf.cw ≤ 32) (h : s.perform e = .next t) :
    s.Clocked t := by
  cases e with
  | configure outputs => cases h; exact State.Clocked.pass hw _
  | drive high m =>
    simp only [State.perform] at h
    split at h
    · cases h; exact State.Clocked.pass hw _
    · cases h
  | interrupt n => cases h; exact State.Clocked.pass hw _

theorem State.arise_clocked {s t : State} {e : EnvStep} (hw : s.conf.cw ≤ 32)
    (hc : s.cycle.toNat < 2 ^ s.conf.cw) (h : s.arise e = .next t) : s.Clocked t := by
  unfold State.arise at h
  split at h
  · cases h; exact State.Clocked.refl hc
  · exact State.perform_clocked hw h

theorem State.serve_clocked {s t : State} {k : Nat} (hw : s.conf.cw ≤ 32)
    (hc : s.cycle.toNat < 2 ^ s.conf.cw) (h : s.serve k = .next t) : s.Clocked t := by
  unfold State.serve at h
  split at h
  · cases h; exact State.Clocked.refl hc
  · split at h
    · cases h; exact State.Clocked.pass hw _
    · next e _ => exact State.perform_clocked (s := { s with pend := s.pend.eraseIdx k }) hw h

/-- The environment takes time, and the clock counts it. -/
theorem State.environment_clocked {s : State} (hw : s.conf.cw ≤ 32) (hc : s.cycle.toNat < 2 ^ s.conf.cw) :
    s.Clocked s.environment := by
  refine State.interlude_keeps (P := fun t => t.conf = s.conf ∧ s.Clocked t)
    (fun u t e rest hu ht => ?_) (fun u t k rest hu ht => ?_) _ _ { s with draws := s.draws + 1 }
    ⟨rfl, State.Clocked.refl hc⟩ |>.2
  · refine ⟨by rw [State.arise_only ht, hu.1], hu.2.trans hu.1 ?_⟩
    exact State.arise_clocked (s := { u with inputs := rest }) (hu.1 ▸ hw) (hu.1 ▸ hu.2.lt) ht
  · refine ⟨by rw [State.serve_only ht, hu.1], hu.2.trans hu.1 ?_⟩
    exact State.serve_clocked (s := { u with inputs := rest }) (hu.1 ▸ hw) (hu.1 ▸ hu.2.lt) ht

theorem State.perform_pins {s t : State} {e : EnvStep} (h : s.perform e = .next t) :
    t.out &&& s.conf.pinMask = s.out &&& s.conf.pinMask := by
  cases e with
  | configure outputs => cases h; rfl
  | drive high m =>
    simp only [State.perform] at h
    split at h
    · next hm => cases h; exact State.otherPins_and high hm
    · cases h
  | interrupt n => cases h; rfl

theorem State.arise_pins {s t : State} {e : EnvStep} (h : s.arise e = .next t) :
    t.out &&& s.conf.pinMask = s.out &&& s.conf.pinMask := by
  unfold State.arise at h
  split at h
  · cases h; rfl
  · exact State.perform_pins h

theorem State.serve_pins {s t : State} {k : Nat} (h : s.serve k = .next t) :
    t.out &&& s.conf.pinMask = s.out &&& s.conf.pinMask := by
  unfold State.serve at h
  split at h
  · cases h; rfl
  · split at h
    · cases h; rfl
    · exact State.perform_pins (s := { s with pend := s.pend.eraseIdx k }) h

/-- The environment changes no pin of `PIN_MASK` (R76). -/
theorem State.environment_pins (s : State) :
    s.environment.out &&& s.conf.pinMask = s.out &&& s.conf.pinMask := by
  refine State.interlude_keeps (P := fun t => t.conf = s.conf ∧
      t.out &&& s.conf.pinMask = s.out &&& s.conf.pinMask)
    (fun u t e rest hu ht => ?_) (fun u t k rest hu ht => ?_) _ _ { s with draws := s.draws + 1 } ⟨rfl, rfl⟩ |>.2
  · exact ⟨by rw [State.arise_only ht, hu.1], (hu.1 ▸ State.arise_pins ht).trans hu.2⟩
  · exact ⟨by rw [State.serve_only ht, hu.1], (hu.1 ▸ State.serve_pins ht).trans hu.2⟩

/-- `s` and `t` agree in all the environment looks at. -/
structure State.SameOutside (s t : State) : Prop where
  conf : t.conf = s.conf
  lock : t.lock = s.lock
  cfg : t.cfg = s.cfg
  out : t.out = s.out
  pend : t.pend = s.pend
  inputs : t.inputs = s.inputs

theorem State.SameOutside.trans {s t u : State} (h : s.SameOutside t) (k : t.SameOutside u) : s.SameOutside u :=
  ⟨k.conf.trans h.conf, k.lock.trans h.lock, k.cfg.trans h.cfg, k.out.trans h.out, k.pend.trans h.pend,
    k.inputs.trans h.inputs⟩

/-- Two outcomes that are the same to the environment. -/
def sameOutcome (o p : Host.Outcome State Fault Refusal) : Prop :=
  (∃ s t, o = .next s ∧ p = .next t ∧ s.SameOutside t) ∨ ∃ r, o = .refused r ∧ p = .refused r

theorem State.SameOutside.perform {s t : State} (h : s.SameOutside t) (e : EnvStep) :
    sameOutcome (s.perform e) (t.perform e) := by
  cases e with
  | configure outputs =>
    exact .inl ⟨_, _, rfl, rfl, ⟨h.conf, h.lock, rfl, h.out, h.pend, h.inputs⟩⟩
  | drive high m =>
    simp only [State.perform, h.conf]
    split
    · refine .inl ⟨_, _, rfl, rfl, ⟨h.conf, h.lock, h.cfg, ?_, h.pend, h.inputs⟩⟩
      simp [State.otherPins, h.conf, h.out]
    · exact .inr ⟨_, rfl, rfl⟩
  | interrupt n => exact .inl ⟨_, _, rfl, rfl, ⟨h.conf, h.lock, h.cfg, h.out, h.pend, h.inputs⟩⟩

theorem State.SameOutside.arise {s t : State} (h : s.SameOutside t) (e : EnvStep) :
    sameOutcome (s.arise e) (t.arise e) := by
  unfold State.arise
  by_cases hl : s.lock = true
  · rw [if_pos hl, if_pos (h.lock.trans hl)]
    exact .inl ⟨_, _, rfl, rfl, ⟨h.conf, h.lock, h.cfg, h.out, congrArg (addRequest · e) h.pend, h.inputs⟩⟩
  · rw [if_neg hl, if_neg (by rwa [h.lock])]
    exact h.perform e

theorem State.SameOutside.serve {s t : State} (h : s.SameOutside t) (k : Nat) :
    sameOutcome (s.serve k) (t.serve k) := by
  unfold State.serve
  by_cases hl : s.lock = true
  · rw [if_pos hl, if_pos (h.lock.trans hl)]
    exact .inl ⟨_, _, rfl, rfl, h⟩
  · rw [if_neg hl, if_neg (by rwa [h.lock]), h.pend]
    split
    · exact .inl ⟨_, _, rfl, rfl, ⟨h.conf, h.lock, h.cfg, h.out, h.pend, h.inputs⟩⟩
    · exact State.SameOutside.perform (s := { s with pend := s.pend.eraseIdx k })
        (t := { t with pend := s.pend.eraseIdx k }) ⟨h.conf, h.lock, h.cfg, h.out, rfl, h.inputs⟩ _

/-- What the environment does to `CFG`, `OUT`, `PEND` and `inputs` depends on these, `LOCK` and the configuration
alone, not on the clock. -/
theorem State.SameOutside.interlude {s t : State} (n : Nat) (ins : List Input) (h : s.SameOutside t) :
    (State.interlude n ins s).SameOutside (State.interlude n ins t) := by
  induction ins generalizing n s t with
  | nil => exact h
  | cons x rest ih =>
    have h' : State.SameOutside { s with inputs := rest } { t with inputs := rest } :=
      ⟨h.conf, h.lock, h.cfg, h.out, h.pend, rfl⟩
    cases x with
    | command w => exact h
    | start w => exact h
    | engine => exact h
    | arise e =>
      cases n with
      | zero => exact h
      | succ n =>
        rcases h'.arise e with ⟨u, v, hu, hv, k⟩ | ⟨r, hu, hv⟩ <;> simp only [State.interlude, hu, hv]
        · exact ih n k
        · exact h
    | serve k =>
      cases n with
      | zero => exact h
      | succ n =>
        rcases h'.serve k with ⟨u, v, hu, hv, k⟩ | ⟨r, hu, hv⟩ <;> simp only [State.interlude, hu, hv]
        · exact ih n k
        · exact h

/-- What the environment does while a command waits is some number of its steps. -/
theorem State.SameOutside.environment {s t : State} (h : s.SameOutside t) :
    ∃ k, (State.interlude k s.inputs s).SameOutside t.environment := by
  have k : s.SameOutside { t with draws := t.draws + 1 } :=
    ⟨h.conf, h.lock, h.cfg, h.out, h.pend, h.inputs⟩
  have i := k.interlude (Config.freeSteps t.draws) t.inputs
  rw [h.inputs] at i
  refine ⟨Config.freeSteps t.draws, ?_⟩
  rw [State.environment, h.inputs]
  exact i

/-- The same, `s` being the state before the wait or the delay began. -/
theorem State.environmentActed {s t : State} (h : s.SameOutside t) : s.EnvironmentActed t.environment :=
  h.environment.imp fun _ i => ⟨i.cfg, i.out, i.pend, i.inputs⟩

/-! ### A wait and a delay as one step -/

/-- Everything a wait does to the clock and the environment: it ends at least `n` cycles after its entry, at an instant
at which the exit test holds, and within its limit under the lock (R123 to R125). -/
theorem State.wait_spec {s : State} (n : Nat) (room : Option Nat) (hw : s.conf.cw ≤ 32)
    (hc : s.cycle.toNat < 2 ^ s.conf.cw) :
    s.Clocked (s.wait n room) ∧ s.time + n ≤ (s.wait n room).time ∧ s.EnvironmentActed (s.wait n room) ∧
    (n < 2 ^ s.conf.cw → n ≤ ((s.wait n room).time - s.time) % 2 ^ s.conf.cw) ∧
    (s.lock = true → (∀ r, room = some r → (s.wait n room).time ≤ s.time + n + r) ∧
      (s.wait n room).out = s.out ∧ (s.wait n room).cfg = s.cfg) := by
  have h1 := State.environment_clocked (s := s.beginWait n) hw hc
  have h2 : (s.beginWait n).environment.conf = s.conf := by simp
  have h3 : s.EnvironmentActed (s.beginWait n).environment := State.environmentActed ⟨rfl, rfl, rfl, rfl, rfl, rfl⟩
  have h4 : (s.beginWait n).environment.waitBegan = s.time := by simp
  have h5 : s.lock = true → (s.beginWait n).environment.time = s.time ∧
      (s.beginWait n).environment.out = s.out ∧ (s.beginWait n).environment.cfg = s.cfg := by
    intro hl
    rw [State.environment_of_locked (s := s.beginWait n) hl]
    exact ⟨rfl, rfl, rfl⟩
  unfold State.wait
  generalize (s.beginWait n).environment = u at *
  have h0 : s.time ≤ u.time := h1.1
  obtain ⟨f1, f2, f3, f4, f5⟩ := u.finishWait_spec n room (by omega)
  rw [h2] at f4 f5
  rw [h4] at f2 f3 f4
  refine ⟨State.Clocked.trans (s := s) h2 h1 ⟨f1, ?_⟩, f2, h3, f4, fun hl => ⟨fun r hr => f3 r hr ?_, (h5 hl).2⟩⟩
  · rw [f5, Config.toNat_cutCycles hw, h2]
  · have := (h5 hl).1
    omega

/-- Everything a delay does to the clock and the environment: it ends at least `d` milliseconds after its entry
(R166). -/
theorem State.delay_spec {s : State} (d : Nat) (hw : s.conf.cw ≤ 32) (hc : s.cycle.toNat < 2 ^ s.conf.cw) :
    s.Clocked (s.delay d) ∧ s.time + s.conf.msCycles d ≤ (s.delay d).time ∧ s.EnvironmentActed (s.delay d) := by
  have h1 := State.environment_clocked (s := s.beginDelay d) hw hc
  have h2 : (s.beginDelay d).environment.conf = s.conf := by simp
  have h3 : s.EnvironmentActed (s.beginDelay d).environment := State.environmentActed ⟨rfl, rfl, rfl, rfl, rfl, rfl⟩
  unfold State.delay
  generalize (s.beginDelay d).environment = u at *
  refine ⟨State.Clocked.trans (s := s) h2 h1 (State.Clocked.pass (s := u) (h2 ▸ hw) _), ?_, h3⟩
  show s.time + s.conf.msCycles d ≤ u.time + (s.time + u.conf.msCycles d - u.time + _)
  rw [h2]
  omega

/-! ### The buffer -/

/-- A read inside the buffer. -/
theorem State.memRead_of_le {s : State} {addr n : Nat} (h : addr + n ≤ s.conf.bufBytes) :
    s.memRead addr n = some ((List.range n).map (fun k => Memory.read s.buf (addr + k))) := by
  simp [State.memRead, h]

/-- The three bytes of a pixel. -/
theorem State.memRead_pixel {s : State} {i : Nat} (h : i < s.conf.pixels) :
    s.memRead (3 * i) 3 = some [Memory.read s.buf (3 * i), Memory.read s.buf (3 * i + 1),
      Memory.read s.buf (3 * i + 2)] := by
  rw [State.memRead_of_le (Config.pixel_fits h)]
  rfl

/-- Writing the three bytes of a pixel. -/
theorem State.memWrite_pixel {s : State} {i : Nat} (h : i < s.conf.pixels) (c : Colour) :
    s.memWrite (3 * i) (wireBytes c) =
      some { s with buf := Memory.writeBytes s.buf (3 * i) (wireBytes c) } := by
  have := Config.pixel_fits h
  simp [State.memWrite, wireBytes, this]

/-- `WordRead(j)` inside the buffer (R63). -/
theorem State.wordRead_of_lt {s : State} {j : Nat} (h : j < s.conf.words) :
    s.wordRead j = some (assembleWord s.conf.lane (Memory.read s.buf (4 * j))
      (Memory.read s.buf (4 * j + 1)) (Memory.read s.buf (4 * j + 2)) (Memory.read s.buf (4 * j + 3))) := by
  have h1 : 4 * j + 4 ≤ s.conf.bufBytes := by simp only [Config.bufBytes]; omega
  unfold State.wordRead
  rw [State.memRead_of_le h1]
  rfl

/-- `WordRead(j)` outside it. -/
theorem State.wordRead_of_ge {s : State} {j : Nat} (h : s.conf.words ≤ j) : s.wordRead j = none := by
  have h1 : ¬4 * j + 4 ≤ s.conf.bufBytes := by simp only [Config.bufBytes]; omega
  unfold State.wordRead State.memRead
  rw [if_neg h1]

/-- `WordRead` sees only the configuration and the buffer. -/
theorem State.wordRead_congr {s t : State} (hc : t.conf = s.conf) (hb : t.buf = s.buf) (j : Nat) :
    t.wordRead j = s.wordRead j := by
  simp only [State.wordRead, State.memRead, hc, hb]

/-- The bits of a word, most significant byte first (R63). -/
theorem getLsbD_bytes (b0 b1 b2 b3 : Byte) {k : Nat} (hk : k < 8) :
    (b0 ++ b1 ++ b2 ++ b3).getLsbD (24 + k) = b0.getLsbD k ∧
    (b0 ++ b1 ++ b2 ++ b3).getLsbD (16 + k) = b1.getLsbD k ∧
    (b0 ++ b1 ++ b2 ++ b3).getLsbD (8 + k) = b2.getLsbD k ∧
    (b0 ++ b1 ++ b2 ++ b3).getLsbD k = b3.getLsbD k := by
  refine ⟨?_, ?_, ?_, ?_⟩ <;> simp only [BitVec.getLsbD_append]
  · rw [if_neg (by omega), if_neg (by omega), if_neg (by omega)]
    congr 1
    omega
  · rw [if_neg (by omega), if_neg (by omega), if_pos (by omega)]
    congr 1
    omega
  · rw [if_neg (by omega), if_pos (by omega)]
    congr 1
    omega
  · rw [if_pos hk]

end Sys2Proof.Machine
end

