-- ==== Sys2Proof/Laws/Exec.lean ====
section
/-! SUPPORT. Every command is its check and its effect under the shared checks of 60_exceptions.md R273: one case split over instructions for all statements about `exec`. -/

namespace Sys2Proof.Machine

/-- The command's own check. -/
def checkOf (i : Instr) (s : State) : Option Cause :=
  match i with
  | .now => none
  | .waitCycles n => s.waitCheck n
  | .mask => none
  | .assert m => failIf (!operandFits s.conf.pw m) .illegalCommand
  | .deassert m => failIf (!operandFits s.conf.pw m) .illegalCommand
  | .lock => failIf s.lock .lockMisuse
  | .unlock => failIf (!s.lock) .lockMisuse
  | .delayMs _ => s.delayCheck
  | .size => none
  | .pixRd idx => failIf (decide (s.conf.pixels ≤ idx.toNat)) .indexOutOfRange
  | .pixWr idx _ => failIf (decide (s.conf.pixels ≤ idx.toNat)) .indexOutOfRange
  | .bufReset => none
  | .wordRd idx => failIf (decide (s.conf.words ≤ idx.toNat)) .indexOutOfRange
  | .send => s.sendCheck
  | .scale _ f => failIf (!scaleInRange f) .scaleOutOfRange
  | .offset _ _ => none

/-- The command's effect once its checks have passed. -/
def effectOf (i : Instr) (s : State) : Host.Outcome State Fault Refusal :=
  match i with
  | .now => .next (s.returnValue s.cycle).startMeter
  | .waitCycles n => .next (s.wait n.toNat s.commandRoom).completeWait
  | .mask => .next (s.returnValue s.conf.pinMask)
  | .assert m => .next (s.pinSet m).returnNothing
  | .deassert m => .next (s.pinClr m).returnNothing
  | .lock => .next s.acquire.returnNothing
  | .unlock => .next s.release.returnNothing
  | .delayMs d => .next (s.delay d.toNat).returnNothing
  | .size => .next (s.returnValue (BitVec.ofNat 32 s.conf.pixels))
  | .pixRd idx =>
    match s.memRead (3 * idx.toNat) 3 with
    | some [g, r, b] => .next (s.returnValue (colourResult g r b))
    | _ => .fault (.noSuchAddress (3 * idx.toNat))
  | .pixWr idx colour =>
    match s.memWrite (3 * idx.toNat) (wireBytes colour) with
    | some t => .next t.returnNothing
    | none => .fault (.noSuchAddress (3 * idx.toNat))
  | .bufReset => .next { s with buf := Memory.clearBelow s.buf s.conf.bufBytes }.returnNothing
  | .wordRd idx =>
    match s.wordRead idx.toNat with
    | some v => .next (s.returnValue v)
    | none => .fault (.noSuchAddress (4 * idx.toNat))
  | .send => andThen (State.emitWords s.conf.words 0 s.openFrame) (fun s => .next s.closeFrame.returnNothing)
  | .scale colour f => .next (s.returnValue (scaleColour colour f.toNat))
  | .offset colour d => .next (s.returnValue (offsetColour colour (signed d)))

/-- What the first row of a command does once its checks have passed: the entry of a wait, of a delay or of a send,
or the whole effect (44_serializer.md R210). -/
def startOf (i : Instr) (s : State) : Host.Outcome State Fault Refusal :=
  match i with
  | .waitCycles n => .next (s.beginWait n.toNat)
  | .delayMs d => .next (s.beginDelay d.toNat)
  | .send => .next s.beginSend
  | .now | .mask | .assert _ | .deassert _ | .lock | .unlock | .size | .pixRd _ | .pixWr _ _ | .bufReset
  | .wordRd _ | .scale _ _ | .offset _ _ => effectOf i s

/-- Every command is its check, then its effect. -/
theorem exec_eq_command (i : Instr) (s : State) : exec i s = s.command (checkOf i s) (effectOf i) := by
  cases i <;> rfl

/-- The first row of every command is the same check, then its entry. -/
theorem startRow_eq_command (i : Instr) (s : State) : startRow i s = s.command (checkOf i s) (startOf i) := by
  cases i <;> rfl

/-- Everything the first row can do. -/
theorem startRow_cases (i : Instr) (s : State) :
    (s.fault ≠ none ∧ startRow i s = .next s.drop) ∨
    (s.fault = none ∧ ∃ c, startRow i s = .next (s.abort c)) ∨
    (s.fault = none ∧ s.phase = .idle ∧ checkOf i s = none ∧ startRow i s = startOf i s) := by
  rw [startRow_eq_command]
  exact State.command_cases _ _ _

/-- Everything `exec` can do: the command is dropped under a standing fault, it aborts, or its checks have passed
and it has its effect. -/
theorem exec_cases (i : Instr) (s : State) :
    (s.fault ≠ none ∧ exec i s = .next s.drop) ∨
    (s.fault = none ∧ ∃ c, exec i s = .next (s.abort c)) ∨
    (s.fault = none ∧ s.phase = .idle ∧ checkOf i s = none ∧ exec i s = effectOf i s) := by
  rw [exec_eq_command]
  exact State.command_cases _ _ _

/-- A command issued at rest whose check passes has its effect. -/
theorem exec_of_ready {i : Instr} {s : State} (h : s.Ready) (hc : checkOf i s = none) :
    exec i s = effectOf i s := by
  rw [exec_eq_command, hc, State.command_of_ready h]

/-- A command issued at rest whose check fails aborts. -/
theorem exec_of_check {i : Instr} {s : State} {c : Cause} (h : s.Ready) (hc : checkOf i s = some c) :
    exec i s = .next (s.abort c) := by
  rw [exec_eq_command, hc, State.command_of_check h]

/-- `PIXRD` inside its bound. -/
theorem effectOf_pixRd {s : State} {idx : Word} (h : idx.toNat < s.conf.pixels) :
    effectOf (.pixRd idx) s = .next (s.returnValue (colourResult (Memory.read s.buf (3 * idx.toNat))
      (Memory.read s.buf (3 * idx.toNat + 1)) (Memory.read s.buf (3 * idx.toNat + 2)))) := by
  simp only [effectOf, State.memRead_pixel h]

/-- `PIXWR` inside its bound. -/
theorem effectOf_pixWr {s : State} {idx : Word} (h : idx.toNat < s.conf.pixels) (colour : Colour) :
    effectOf (.pixWr idx colour) s =
      .next { s with buf := Memory.writeBytes s.buf (3 * idx.toNat) (wireBytes colour) }.returnNothing := by
  simp only [effectOf, State.memWrite_pixel h]

/-- `WORDRD` inside its bound. -/
theorem effectOf_wordRd {s : State} {idx : Word} (h : idx.toNat < s.conf.words) :
    effectOf (.wordRd idx) s = .next (s.returnValue (assembleWord s.conf.lane
      (Memory.read s.buf (4 * idx.toNat)) (Memory.read s.buf (4 * idx.toNat + 1))
      (Memory.read s.buf (4 * idx.toNat + 2)) (Memory.read s.buf (4 * idx.toNat + 3)))) := by
  simp only [effectOf, State.wordRead_of_lt h]

/-- The index checks that pass give the bound. -/
theorem failIf_eq_none {b : Bool} {c : Cause} : failIf b c = none ↔ b = false := by
  cases b <;> simp [failIf]

end Sys2Proof.Machine
end

