-- ==== Sys2Proof/Laws/Serializer.lean ====
section
/-! SUPPORT. What each part of a send does (44_serializer.md R205 to R209): what it leaves alone, the pins, the events, the position. -/

namespace Sys2Proof.Machine

/-- `t` differs from `s` at most in what a send in progress changes, `PEND` taking what arises meanwhile. -/
def State.OnlySends (s t : State) : Prop :=
  t = { s with
    cycle := t.cycle, out := t.out, phase := t.phase, widx := t.widx, bidx := t.bidx, kidx := t.kidx
    shift := t.shift, wact := t.wact, wstart := t.wstart, wn := t.wn, waitBegan := t.waitBegan
    time := t.time, trace := t.trace, draws := t.draws, pend := t.pend, inputs := t.inputs }

theorem State.OnlySends.refl (s : State) : s.OnlySends s := rfl

theorem State.OnlySends.trans {s t u : State} (h : s.OnlySends t) (k : t.OnlySends u) : s.OnlySends u := by
  unfold State.OnlySends at *
  rw [k, h]

theorem State.OnlySends.conf {s t : State} (h : s.OnlySends t) : t.conf = s.conf := by rw [h]
theorem State.OnlySends.buf {s t : State} (h : s.OnlySends t) : t.buf = s.buf := by rw [h]
theorem State.OnlySends.lock {s t : State} (h : s.OnlySends t) : t.lock = s.lock := by rw [h]
theorem State.OnlySends.drem {s t : State} (h : s.OnlySends t) : t.drem = s.drem := by rw [h]
theorem State.OnlySends.fault {s t : State} (h : s.OnlySends t) : t.fault = s.fault := by rw [h]
theorem State.OnlySends.wordRead {s t : State} (h : s.OnlySends t) (j : Nat) :
    t.wordRead j = s.wordRead j := State.wordRead_congr h.conf h.buf j

/-! ### One bit -/

/-- The first half of `EmitBit` (R205). -/
def State.emitHigh (v : Bool) (s : State) : State :=
  let s := { s with phase := .bitHigh }.pinSet s.conf.pinMask
  s.wait (s.conf.highTime v) s.waitRoom

/-- The second half of `EmitBit` (R205). -/
def State.emitLow (v : Bool) (s : State) : State :=
  let s := { s with phase := .bitLow }.pinClr s.conf.pinMask
  s.wait (s.conf.lowTime v) s.waitRoom

theorem State.emitBit_eq (s : State) (v : Bool) : s.emitBit v = (s.emitHigh v).emitLow v := rfl

/-- A wait under the lock: the environment has no step (R162). -/
theorem State.wait_of_locked {s : State} (h : s.lock = true) (n : Nat) (room : Option Nat) :
    s.OnlySends (s.wait n room) ∧ (s.wait n room).out = s.out := by
  unfold State.wait
  rw [State.environment_of_locked (s := s.beginWait n) h]
  exact ⟨rfl, rfl⟩

theorem State.drift_only (s : State) (limit : Option Nat) : s.OnlySends (s.drift limit) := rfl

theorem State.emitHigh_only {s : State} (h : s.lock = true) (v : Bool) : s.OnlySends (s.emitHigh v) :=
  State.OnlySends.trans (t := ({ s with phase := .bitHigh } : State).pinSet s.conf.pinMask) rfl
    (State.wait_of_locked (s := ({ s with phase := .bitHigh } : State).pinSet s.conf.pinMask) h _ _).1

theorem State.emitLow_only {s : State} (h : s.lock = true) (v : Bool) : s.OnlySends (s.emitLow v) :=
  State.OnlySends.trans (t := ({ s with phase := .bitLow } : State).pinClr s.conf.pinMask) rfl
    (State.wait_of_locked (s := ({ s with phase := .bitLow } : State).pinClr s.conf.pinMask) h _ _).1

/-- The events depend on the trace alone. -/
theorem State.events_congr {s t : State} (h : t.trace = s.trace) : t.events = s.events := by
  rw [State.events, State.events, h]

/-- Everything the first half does. -/
theorem State.emitHigh_spec {s : State} (hl : s.lock = true) (v : Bool) :
    (s.emitHigh v).out = s.out ||| s.conf.pinMask ∧
    (s.emitHigh v).events = s.events ++ [.high s.conf.pinMask, .wait (s.conf.highTime v)] ∧
    (s.emitHigh v).phase = .bitHigh ∧ (s.emitHigh v).wact = false ∧ (s.emitHigh v).widx = s.widx ∧
    (s.emitHigh v).bidx = s.bidx ∧ (s.emitHigh v).kidx = s.kidx ∧ (s.emitHigh v).shift = s.shift := by
  have h : ({ s with phase := .bitHigh } : State).events = s.events := rfl
  refine ⟨(State.wait_of_locked (s := ({ s with phase := .bitHigh } : State).pinSet s.conf.pinMask) hl _ _).2, ?_,
    by simp [State.emitHigh], by simp [State.emitHigh], by simp [State.emitHigh], by simp [State.emitHigh],
    by simp [State.emitHigh], by simp [State.emitHigh]⟩
  simp only [State.emitHigh, State.events_wait, State.events_pinSet, h, State.pinSet_conf,
    List.append_assoc, List.cons_append, List.nil_append]

/-- Everything the second half does. -/
theorem State.emitLow_spec {s : State} (hl : s.lock = true) (v : Bool) :
    (s.emitLow v).out = s.out &&& ~~~s.conf.pinMask ∧
    (s.emitLow v).events = s.events ++ [.low s.conf.pinMask, .wait (s.conf.lowTime v)] ∧
    (s.emitLow v).phase = .bitLow ∧ (s.emitLow v).wact = false ∧ (s.emitLow v).widx = s.widx ∧
    (s.emitLow v).bidx = s.bidx ∧ (s.emitLow v).kidx = s.kidx ∧ (s.emitLow v).shift = s.shift := by
  have h : ({ s with phase := .bitLow } : State).events = s.events := rfl
  refine ⟨(State.wait_of_locked (s := ({ s with phase := .bitLow } : State).pinClr s.conf.pinMask) hl _ _).2, ?_,
    by simp [State.emitLow], by simp [State.emitLow], by simp [State.emitLow], by simp [State.emitLow],
    by simp [State.emitLow], by simp [State.emitLow]⟩
  simp only [State.emitLow, State.events_wait, State.events_pinClr, h, State.pinClr_conf,
    List.append_assoc, List.cons_append, List.nil_append]

/-- Set and clear leave the pins outside the mask and clear the others. -/
theorem or_and_not (x m : Word) : (x ||| m) &&& ~~~m = x &&& ~~~m := by
  ext i hi
  simp
  cases m[i] <;> simp

theorem State.emitBit_only {s : State} (h : s.lock = true) (v : Bool) : s.OnlySends (s.emitBit v) :=
  (State.emitHigh_only h v).trans (State.emitLow_only ((State.emitHigh_only h v).lock.trans h) v)

/-- Everything `EmitBit` does (R205): the pins of the mask end low. -/
theorem State.emitBit_spec {s : State} (h : s.lock = true) (v : Bool) :
    (s.emitBit v).out = s.out &&& ~~~s.conf.pinMask ∧
    (s.emitBit v).events = s.events ++ cell s.conf v ∧
    (s.emitBit v).phase = .bitLow ∧ (s.emitBit v).wact = false ∧ (s.emitBit v).widx = s.widx ∧
    (s.emitBit v).bidx = s.bidx ∧ (s.emitBit v).kidx = s.kidx ∧ (s.emitBit v).shift = s.shift := by
  have hc := (State.emitHigh_only h v).conf
  obtain ⟨o1, e1, -, -, w1, b1, k1, s1⟩ := State.emitHigh_spec h v
  obtain ⟨o2, e2, p2, a2, w2, b2, k2, s2⟩ := State.emitLow_spec ((State.emitHigh_only h v).lock.trans h) v
  rw [← State.emitBit_eq] at o2 e2 p2 a2 w2 b2 k2 s2
  refine ⟨?_, ?_, p2, a2, w2.trans w1, b2.trans b1, k2.trans k1, s2.trans s1⟩
  · rw [o2, o1, hc, or_and_not]
  · simp only [e2, e1, hc, cell, List.append_assoc, List.cons_append, List.nil_append]

/-! ### Some bits of one byte -/

/-- The bits `ks` of byte `b`, in that order. -/
def State.emitBits (b : Nat) (ks : List Nat) (s : State) : State :=
  ks.foldl (fun s k => s.emitBitAt b k) s

theorem State.emitByte_eq (s : State) (b : Nat) :
    s.emitByte b = State.emitBits b [7, 6, 5, 4, 3, 2, 1, 0] { s with bidx := BitVec.ofNat 2 b } := rfl

theorem State.emitBitAt_only {s : State} (h : s.lock = true) (b k : Nat) : s.OnlySends (s.emitBitAt b k) :=
  State.OnlySends.trans (t := { s with kidx := BitVec.ofNat 3 k }) rfl
    (State.emitBit_only (s := { s with kidx := BitVec.ofNat 3 k }) h _)

/-- Everything one turn of the loop does (R206). -/
theorem State.emitBitAt_spec {s : State} (h : s.lock = true) (b k : Nat) :
    (s.emitBitAt b k).out = s.out &&& ~~~s.conf.pinMask ∧
    (s.emitBitAt b k).events = s.events ++ cell s.conf (wireBit s.shift b k) ∧
    (s.emitBitAt b k).phase = .bitLow ∧ (s.emitBitAt b k).wact = false ∧
    (s.emitBitAt b k).widx = s.widx ∧ (s.emitBitAt b k).bidx = s.bidx ∧
    (s.emitBitAt b k).kidx = BitVec.ofNat 3 k ∧ (s.emitBitAt b k).shift = s.shift :=
  State.emitBit_spec (s := { s with kidx := BitVec.ofNat 3 k }) h (wireBit s.shift b k)

theorem State.emitBits_cons (b k : Nat) (ks : List Nat) (s : State) :
    State.emitBits b (k :: ks) s = State.emitBits b ks (s.emitBitAt b k) := rfl

theorem State.emitBits_only (b : Nat) (ks : List Nat) {s : State} (h : s.lock = true) :
    s.OnlySends (State.emitBits b ks s) := by
  induction ks generalizing s with
  | nil => exact State.OnlySends.refl s
  | cons k ks ih =>
    rw [State.emitBits_cons]
    have hk := State.emitBitAt_only h b k
    exact hk.trans (ih (hk.lock.trans h))

/-- Pins, events and position after a run of bits. -/
theorem State.emitBits_spec (b : Nat) (ks : List Nat) {s : State} (hl : s.lock = true) (hk : ks ≠ []) :
    (State.emitBits b ks s).out = s.out &&& ~~~s.conf.pinMask ∧
    (State.emitBits b ks s).events = s.events ++ ks.flatMap (fun k => cell s.conf (wireBit s.shift b k)) ∧
    (State.emitBits b ks s).phase = .bitLow ∧ (State.emitBits b ks s).wact = false ∧
    (State.emitBits b ks s).widx = s.widx ∧ (State.emitBits b ks s).bidx = s.bidx ∧
    (State.emitBits b ks s).kidx = BitVec.ofNat 3 (ks.getLast hk) ∧
    (State.emitBits b ks s).shift = s.shift := by
  induction ks generalizing s with
  | nil => exact absurd rfl hk
  | cons k ks ih =>
    obtain ⟨o, e, p, a, w, bx, kx, sh⟩ := State.emitBitAt_spec hl b k
    have hc := (State.emitBitAt_only hl b k).conf
    rw [State.emitBits_cons]
    by_cases h : ks = []
    · subst h
      refine ⟨o, ?_, p, a, w, bx, kx, sh⟩
      simpa only [State.emitBits, List.foldl_nil, List.flatMap_cons, List.flatMap_nil, List.append_nil] using e
    · obtain ⟨h1, h2, h3, h4, h5, h6, h7, h8⟩ := ih ((State.emitBitAt_only hl b k).lock.trans hl) h
      refine ⟨h1.trans ?_, h2.trans ?_, h3, h4, h5.trans w, h6.trans bx, ?_, h8.trans sh⟩
      · rw [o, hc, BitVec.and_assoc, BitVec.and_self]
      · rw [e, hc, sh, List.flatMap_cons, List.append_assoc]
      · rw [List.getLast_cons h]
        exact h7

/-- The eight bits of a byte, most significant first (R206). -/
def byteCells (conf : Config) (w : Word) (b : Nat) : List Event :=
  [7, 6, 5, 4, 3, 2, 1, 0].flatMap (fun k => cell conf (wireBit w b k))

theorem State.emitByte_only {s : State} (h : s.lock = true) (b : Nat) : s.OnlySends (s.emitByte b) :=
  State.OnlySends.trans (t := { s with bidx := BitVec.ofNat 2 b }) rfl
    (State.emitBits_only (s := { s with bidx := BitVec.ofNat 2 b }) _ _ h)

/-- Everything `EmitByte` does (R206). -/
theorem State.emitByte_spec {s : State} (h : s.lock = true) (b : Nat) :
    (s.emitByte b).out = s.out &&& ~~~s.conf.pinMask ∧
    (s.emitByte b).events = s.events ++ byteCells s.conf s.shift b ∧
    (s.emitByte b).phase = .bitLow ∧ (s.emitByte b).wact = false ∧
    (s.emitByte b).widx = s.widx ∧ (s.emitByte b).bidx = BitVec.ofNat 2 b ∧
    (s.emitByte b).kidx = 0 ∧ (s.emitByte b).shift = s.shift :=
  State.emitBits_spec (s := { s with bidx := BitVec.ofNat 2 b }) b _ h (by simp)

/-! ### One word -/

/-- The thirty-two bits of a word, bytes 0 to 3 in order (R208). -/
def wordCells (conf : Config) (w : Word) : List Event :=
  [0, 1, 2, 3].flatMap (byteCells conf w)

/-- Everything `EmitWord` does (R207). -/
theorem State.emitWord_spec {s : State} (hl : s.lock = true) (w : Nat) (v : Word) (h : s.wordRead w = some v) :
    ∃ t, s.emitWord w = .next t ∧ s.OnlySends t ∧
      t.out = s.out &&& ~~~s.conf.pinMask ∧ t.events = s.events ++ wordCells s.conf v ∧
      t.phase = .bitLow ∧ t.wact = false ∧ t.widx = BitVec.ofNat 32 w ∧ t.shift = v := by
  refine ⟨_, by simp only [State.emitWord, h]; rfl, ?_⟩
  simp only [List.foldl_cons, List.foldl_nil]
  generalize ht0 : s.loadShift w v = t0
  have k0 : s.OnlySends t0 := by rw [← ht0]; rfl
  have ho0 : t0.out = s.out := by rw [← ht0]; rfl
  have he0 : t0.events = s.events := by rw [← ht0]; rfl
  have hw0 : t0.widx = BitVec.ofNat 32 w := by rw [← ht0]; rfl
  have hs0 : t0.shift = v := by rw [← ht0]; rfl
  have l0 := k0.lock.trans hl
  have k1 := k0.trans (State.emitByte_only l0 0)
  have l1 := k1.lock.trans hl
  have k2 := k1.trans (State.emitByte_only l1 1)
  have l2 := k2.lock.trans hl
  have k3 := k2.trans (State.emitByte_only l2 2)
  have l3 := k3.lock.trans hl
  refine ⟨k3.trans (State.emitByte_only l3 3), ?_⟩
  · obtain ⟨o1, e1, -, -, w1, -, -, s1⟩ := State.emitByte_spec l0 0
    obtain ⟨o2, e2, -, -, w2, -, -, s2⟩ := State.emitByte_spec l1 1
    obtain ⟨o3, e3, -, -, w3, -, -, s3⟩ := State.emitByte_spec l2 2
    obtain ⟨o4, e4, p4, a4, w4, -, -, s4⟩ := State.emitByte_spec l3 3
    have hc0 := k0.conf
    have c1 := k1.conf
    have c2 := k2.conf
    have c3 := k3.conf
    refine ⟨?_, ?_, p4, a4, ?_, ?_⟩
    · simp only [o4, o3, o2, o1, c3, c2, c1, hc0, ho0, BitVec.and_assoc, BitVec.and_self]
    · simp only [e4, e3, e2, e1, c3, c2, c1, hc0, he0, s3, s2, s1, hs0, wordCells, List.flatMap_cons,
        List.flatMap_nil, List.append_nil, List.append_assoc]
    · rw [w4, w3, w2, w1, hw0]
    · rw [s4, s3, s2, s1, hs0]

/-! ### All words -/

/-- Everything the loop over words does, from word `w` on: no access lies outside the buffer, so it answers a
next state. -/
theorem State.emitWords_spec (n w : Nat) {s : State} (hl : s.lock = true) (h : w + n ≤ s.conf.words) :
    ∃ t, State.emitWords n w s = .next t ∧ s.OnlySends t ∧
      t.events = s.events ++ (List.range n).flatMap (fun i =>
        wordCells s.conf ((s.wordRead (w + i)).getD 0)) ∧
      (t.out &&& ~~~s.conf.pinMask = s.out &&& ~~~s.conf.pinMask) ∧
      (n = 0 → t = s) ∧
      (0 < n → t.out = s.out &&& ~~~s.conf.pinMask ∧ t.phase = .bitLow ∧ t.wact = false ∧
        s.wordRead (w + n - 1) = some t.shift) := by
  induction n generalizing w s with
  | zero => exact ⟨_, rfl, State.OnlySends.refl s, by simp, rfl, fun _ => rfl, fun h => absurd h (by omega)⟩
  | succ n ih =>
    have hw : w < s.conf.words := by omega
    obtain ⟨v, hv⟩ : ∃ v, s.wordRead w = some v := ⟨_, State.wordRead_of_lt hw⟩
    obtain ⟨u, hu, ou, pu, eu, phu, wu, -, su⟩ := State.emitWord_spec hl w v hv
    obtain ⟨t, ht, ot, et, pt, zt, lt⟩ := ih (w + 1) (ou.lock.trans hl) (by rw [ou.conf]; omega)
    refine ⟨t, by simp only [State.emitWords, hu, andThen_next, ht], ou.trans ot, ?_, ?_, by omega, ?_⟩
    · rw [et, eu, List.range_succ_eq_map]
      simp only [ou.conf, ou.wordRead, List.flatMap_cons, Nat.add_zero, hv, Option.getD_some,
        List.append_assoc, List.flatMap_map, Nat.succ_eq_add_one, Nat.add_assoc, Nat.add_comm 1]
    · rw [← ou.conf, pt, pu, ou.conf, BitVec.and_assoc, BitVec.and_self]
    · intro _
      by_cases hn : n = 0
      · rw [zt hn]
        subst hn
        exact ⟨pu, phu, wu, by rw [su]; simpa using hv⟩
      · obtain ⟨h1, h2, h3, h4⟩ := lt (by omega)
        refine ⟨?_, h2, h3, ?_⟩
        · rw [h1, pu, ou.conf, BitVec.and_assoc, BitVec.and_self]
        · rw [ou.wordRead] at h4
          rw [← h4]
          congr 1
          omega

/-! ### The last wait of a word -/

theorem State.emitBit_wn {s : State} (hl : s.lock = true) (v : Bool) :
    (s.emitBit v).wn = s.conf.cutCycles (s.conf.lowTime v) := by
  have h := (State.emitHigh_only hl v).conf
  simp [State.emitBit_eq, State.emitLow, h]

theorem State.emitBits_wn (b : Nat) (ks : List Nat) {s : State} (hl : s.lock = true) (hk : ks ≠ []) :
    (State.emitBits b ks s).wn = s.conf.cutCycles (s.conf.lowTime (wireBit s.shift b (ks.getLast hk))) := by
  induction ks generalizing s with
  | nil => exact absurd rfl hk
  | cons k ks ih =>
    rw [State.emitBits_cons]
    by_cases h : ks = []
    · subst h
      exact State.emitBit_wn (s := { s with kidx := BitVec.ofNat 3 k }) hl (wireBit s.shift b k)
    · obtain ⟨-, -, -, -, -, -, -, sh⟩ := State.emitBitAt_spec hl b k
      have hk := State.emitBitAt_only hl b k
      rw [ih (hk.lock.trans hl) h, hk.conf, sh, List.getLast_cons h]

/-- `WN` after a word: the low time of its last bit. -/
theorem State.emitWord_wn {s t : State} {w : Nat} {v : Word} (hl : s.lock = true) (h : s.wordRead w = some v)
    (ht : s.emitWord w = .next t) : t.wn = s.conf.cutCycles (s.conf.lowTime (wireBit v 3 0)) := by
  simp only [State.emitWord, h] at ht
  rw [← Host.Outcome.next.inj ht, List.foldl_cons, List.foldl_cons, List.foldl_cons, List.foldl_cons,
    List.foldl_nil]
  generalize ht0 : s.loadShift w v = t0
  have k0 : s.OnlySends t0 := by rw [← ht0]; rfl
  have hs0 : t0.shift = v := by rw [← ht0]; rfl
  have l0 := k0.lock.trans hl
  have k1 := k0.trans (State.emitByte_only l0 0)
  have l1 := k1.lock.trans hl
  have k2 := k1.trans (State.emitByte_only l1 1)
  have l2 := k2.lock.trans hl
  have k3 := k2.trans (State.emitByte_only l2 2)
  obtain ⟨-, -, -, -, -, -, -, s1⟩ := State.emitByte_spec l0 0
  obtain ⟨-, -, -, -, -, -, -, s2⟩ := State.emitByte_spec l1 1
  obtain ⟨-, -, -, -, -, -, -, s3⟩ := State.emitByte_spec l2 2
  have c3 := k3.conf
  generalize ((t0.emitByte 0).emitByte 1).emitByte 2 = t3 at *
  rw [State.emitByte_eq, State.emitBits_wn (s := { t3 with bidx := BitVec.ofNat 2 3 }) 3 _ (k3.lock.trans hl) (by simp)]
  show t3.conf.cutCycles (t3.conf.lowTime (wireBit t3.shift 3 _)) = _
  rw [c3, s3, s2, s1, hs0]
  rfl

/-- `WN` after all words: the low time of the last bit of the last word. -/
theorem State.emitWords_wn {n w : Nat} {s t : State} {v : Word} (hl : s.lock = true)
    (h : s.wordRead (w + n) = some v)
    (ht : State.emitWords (n + 1) w s = .next t) :
    t.wn = s.conf.cutCycles (s.conf.lowTime (wireBit v 3 0)) := by
  induction n generalizing w s with
  | zero =>
    obtain ⟨u, hu, ht⟩ := andThen_eq_next ht
    cases ht
    exact State.emitWord_wn hl h hu
  | succ n ih =>
    obtain ⟨u, hu, ht⟩ := andThen_eq_next ht
    have hw : w < s.conf.words := by
      by_cases hw : w < s.conf.words
      · exact hw
      · rw [State.wordRead_of_ge (by omega)] at h
        cases h
    obtain ⟨u', hu', ou, -⟩ := State.emitWord_spec hl w _ (State.wordRead_of_lt hw)
    rw [hu] at hu'
    cases hu'
    rw [ih (ou.lock.trans hl) (by rw [ou.wordRead, ← h]; congr 1; omega) ht, ou.conf]

/-- Everything `SEND` does once its checks have passed: the frame opened, all words, the frame closed. -/
theorem effectOf_send (s : State) : ∃ u, State.emitWords s.conf.words 0 s.openFrame = .next u ∧
    s.openFrame.OnlySends u ∧ effectOf .send s = .next u.closeFrame.returnNothing := by
  obtain ⟨u, hu, ou, -⟩ := State.emitWords_spec s.conf.words 0 (s := s.openFrame) (by simp [State.openFrame])
    (by simp [State.openFrame, State.beginSend])
  exact ⟨u, hu, ou, by simp only [effectOf, hu, andThen_next]⟩

/-! ### What the environment does meanwhile -/

/-- What depends on `LOCK`, `PEND` and `inputs` alone and is kept while a wait lasts is kept by sending words. -/
theorem State.emitWords_keeps {P : State → Prop}
    (congr : ∀ s t : State, t.lock = s.lock → t.inputs = s.inputs → t.pend = s.pend → P s → P t)
    (environment : ∀ s : State, P s → P s.environment) {n w : Nat} {s t : State} (h : P s)
    (ht : State.emitWords n w s = .next t) : P t := by
  have wait : ∀ (s : State) n room, P s → P (s.wait n room) := fun s n room h =>
    congr (s.beginWait n).environment _ rfl rfl rfl (environment _ (congr s (s.beginWait n) rfl rfl rfl h))
  have bit : ∀ (s : State) v, P s → P (s.emitBit v) := by
    intro s v h
    have high : P (s.emitHigh v) :=
      wait (({ s with phase := .bitHigh } : State).pinSet s.conf.pinMask) _ _ (congr s _ rfl rfl rfl h)
    rw [State.emitBit_eq]
    generalize s.emitHigh v = u at high
    exact wait (({ u with phase := .bitLow } : State).pinClr u.conf.pinMask) _ _ (congr u _ rfl rfl rfl high)
  have bits : ∀ (ks : List Nat) b (s : State), P s → P (State.emitBits b ks s) := by
    intro ks b
    induction ks with
    | nil => exact fun s h => h
    | cons k ks ih =>
      intro s h
      rw [State.emitBits_cons]
      exact ih _ (bit { s with kidx := BitVec.ofNat 3 k } _ (congr s _ rfl rfl rfl h))
  have byte : ∀ (s : State) b, P s → P (s.emitByte b) := by
    intro s b h
    rw [State.emitByte_eq]
    exact bits _ b _ (congr s _ rfl rfl rfl h)
  induction n generalizing w s with
  | zero => cases ht; exact h
  | succ n ih =>
    obtain ⟨u, hu, ht⟩ := andThen_eq_next ht
    refine ih ?_ ht
    unfold State.emitWord at hu
    split at hu
    · cases hu
    · next v _ =>
      rw [← Host.Outcome.next.inj hu, List.foldl_cons, List.foldl_cons, List.foldl_cons, List.foldl_cons,
        List.foldl_nil]
      exact byte _ 3 (byte _ 2 (byte _ 1 (byte _ 0 (congr s (s.loadShift w v) rfl rfl rfl h))))

/-- What the environment does while words are sent is some number of its steps under the lock. -/
theorem State.emitWords_gathers {n w : Nat} {s t : State} (hl : s.lock = true)
    (ht : State.emitWords n w s = .next t) :
    ∃ k, t.pend = (State.interlude k s.inputs s).pend ∧ t.inputs = (State.interlude k s.inputs s).inputs := by
  refine (State.emitWords_keeps (P := fun u => u.lock = true ∧ ∃ k,
      u.pend = (State.interlude k s.inputs s).pend ∧ u.inputs = (State.interlude k s.inputs s).inputs)
    (fun u v hl hi hp h => ⟨hl.trans h.1, h.2.imp fun k hk => ⟨hp.trans hk.1, hi.trans hk.2⟩⟩) ?_
    ⟨hl, 0, by rw [State.interlude_zero], by rw [State.interlude_zero]⟩ ht).2
  rintro u ⟨hu, k, hp, hi⟩
  have hk : (State.interlude k s.inputs s).lock = true := by rw [State.interlude_only]; exact hl
  refine ⟨by simpa using hu, k + Config.freeSteps u.draws, ?_⟩
  rw [← State.interlude_interlude k _ s.inputs rfl, ← hi]
  exact State.interlude_of_locked (t := { u with draws := u.draws + 1 }) _ _ hk hu hp hi

/-- What opening a frame leaves alone, whatever the environment does. -/
theorem State.openFrame_spec (s : State) :
    s.openFrame.lock = true ∧ s.openFrame.conf = s.conf ∧ s.openFrame.buf = s.buf ∧
    s.openFrame.fault = s.fault ∧ s.openFrame.completions = s.completions ∧
    s.openFrame.events = s.events ++ [.low s.conf.pinMask, .lock] := by
  simp [State.openFrame, State.beginSend]

/-- Forcing low pins low changes nothing. -/
theorem and_not_of_low {w m : Word} (h : w &&& m = 0) : w &&& ~~~m = w := by
  apply BitVec.eq_of_getLsbD_eq
  intro i hi
  have bit : (w &&& m).getLsbD i = false := by rw [h]; exact BitVec.getLsbD_zero
  rw [BitVec.getLsbD_and] at bit
  rw [BitVec.getLsbD_and, BitVec.getLsbD_not, decide_eq_true hi]
  cases hw : w.getLsbD i <;> simp_all

/-- All the environment does while a frame is sent: some steps after step 1, some under the lock, some in the delay. -/
theorem State.environmentActedInSend {s u : State}
    (hu : State.emitWords s.conf.words 0 s.openFrame = .next u) :
    s.EnvironmentActedInSend u.closeFrame.returnNothing := by
  obtain ⟨hlock, hconf, -⟩ := s.openFrame_spec
  obtain ⟨v, hv, ou, -, pu, -⟩ := State.emitWords_spec s.conf.words 0 hlock (by rw [hconf]; omega)
  cases hu.symm.trans hv
  obtain ⟨k1, one⟩ := State.SameOutside.environment (s := { s with out := s.out &&& ~~~s.conf.pinMask })
    (t := s.beginSend) ⟨rfl, rfl, rfl, rfl, rfl, rfl⟩
  have low := s.beginSend.environment_pins
  obtain ⟨k2, hp, hi⟩ := State.emitWords_gathers hlock hu
  refine ⟨k1, k2, ?_⟩
  dsimp only at one ⊢
  generalize State.interlude k1 s.inputs { s with out := s.out &&& ~~~s.conf.pinMask } = opened at one ⊢
  have two : State.SameOutside { opened with lock := true } s.openFrame :=
    ⟨one.conf, rfl, one.cfg, one.out, one.pend, one.inputs⟩
  have mid := two.interlude k2 opened.inputs
  rw [show s.openFrame.inputs = opened.inputs from two.inputs] at hp hi
  have only := State.interlude_locked k2 opened.inputs (s := { opened with lock := true }) rfl
  generalize State.interlude k2 opened.inputs { opened with lock := true } = sent at mid only ⊢
  have three : State.SameOutside { sent with lock := false } (u.lowAndRelease.beginDelay u.conf.resetMs) := by
    refine ⟨?_, rfl, ?_, ?_, hp.trans mid.pend, hi.trans mid.inputs⟩
    · show u.conf = sent.conf
      rw [only]
      exact ou.conf.trans two.conf
    · show u.cfg = sent.cfg
      rw [only, ou]
      exact two.cfg
    · show u.out &&& ~~~u.conf.pinMask = sent.out
      rw [only, ou.conf, pu, hconf, two.out]
      replace low : opened.out &&& s.conf.pinMask = 0 := by
        rw [← one.out]
        refine low.trans ?_
        show (s.out &&& ~~~s.conf.pinMask) &&& s.conf.pinMask = 0
        rw [BitVec.and_assoc]
        simp
      exact and_not_of_low low
  obtain ⟨k3, last⟩ := three.environment
  exact ⟨k3, last.cfg, last.out, last.pend, last.inputs⟩

/-- With nothing for it to do, all it may change is as it was but the pins of the mask. -/
theorem State.EnvironmentActedInSend.of_quiet {s t : State} (h : s.EnvironmentActedInSend t) (hq : s.quiet = true) :
    t.cfg = s.cfg ∧ t.out = s.out &&& ~~~s.conf.pinMask ∧ t.pend = s.pend ∧ t.inputs = s.inputs := by
  obtain ⟨k1, k2, k3, h⟩ := h
  simpa only [State.interlude_of_quiet hq] using h

end Sys2Proof.Machine
end

