-- ==== Sys2Proof/Laws/Keeps.lean ====
section
/-! SUPPORT. Everything a step can do, said once: a property that every named operation keeps is kept by every command, by every row of a command in flight and by every step. -/

namespace Sys2Proof.Machine

/-- A mask a pin write is given: one that fits the port, or the engine's own. -/
def State.maskOk (s : State) (m : Word) : Prop := m.toNat < 2 ^ s.conf.pw ∨ m = s.conf.pinMask

/-- A length a wait is given: one that fits the counter, or one of a bit cell. -/
def State.lengthOk (s : State) (n : Nat) : Prop :=
  n < 2 ^ s.conf.cw ∨ ∃ v, n = s.conf.highTime v ∨ n = s.conf.lowTime v

/-- Neither a wait nor a delay is in flight. -/
def State.resting (s : State) : Prop := s.wact = false ∧ s.drem = none

/-- What a wait in flight has reached when it ends: its length, or the exit test of R123. -/
def State.waitOver (s : State) : Prop :=
  (∃ n, s.lengthOk n ∧ s.wn = s.conf.cutCycles n ∧ s.waitBegan + n ≤ s.time) ∨
    waitDone s.conf.cw s.cycle s.wstart s.wn = true

/-- A property kept by every named operation of the engine, the issuer and the environment, where they use it. -/
structure Kept (P : State → Prop) : Prop where
  setSeq : ∀ s p w b k, P s → P (s.setSeq p w b k)
  pinSet : ∀ s m, s.maskOk m → s.resting → P s → P (s.pinSet m)
  pinClr : ∀ s m, s.maskOk m → s.resting → P s → P (s.pinClr m)
  passDraw : ∀ s n, P s → P { s.pass n with draws := s.draws + 1 }
  draw : ∀ (s : State), P s → P { s with draws := s.draws + 1 }
  beginWait : ∀ s n, s.lengthOk n → s.resting → P s → P (s.beginWait n)
  endWait : ∀ (s : State), s.wact = true → s.waitOver → P s → P { s with wact := false }
  beginDelay : ∀ s d, s.resting → P s → P (s.beginDelay d)
  endDelay : ∀ (s : State) d, s.wact = false → s.drem = some d →
    d.began + s.conf.msCycles d.ms ≤ s.time → P s → P { s with drem := none }
  acquire : ∀ s, s.resting → P s → P s.acquire
  release : ∀ s, s.resting → P s → P s.release
  loadWord : ∀ (s : State) w v, s.wordRead w = some v → P s →
    P { s with widx := BitVec.ofNat 32 w, shift := v }
  writePixel : ∀ s i c, i < s.conf.pixels → P s →
    P { s with buf := Memory.writeBytes s.buf (3 * i) (wireBytes c) }
  clear : ∀ s, P s → P { s with buf := Memory.clearBelow s.buf s.conf.bufBytes }
  setMeter : ∀ s (m : Meter), (m.room ≤ s.conf.waitOvh ∨ m.room ≤ s.meter.room) → P s →
    P { s with meter := m }
  complete : ∀ s (m : Meter), (m.room ≤ s.conf.waitOvh ∨ m.room ≤ s.meter.room) → P s →
    P { s.returnNothing with meter := m }
  returnValue : ∀ s v, P s → P (s.returnValue v)
  drop : ∀ s, P s → P s.drop
  abort : ∀ s c, s.fault = none → s.resting → P s → P (s.abort c)
  loadOperands : ∀ s w, P s → P (State.loadOperands w s)
  setInputs : ∀ (s : State) rest, P s → P { s with inputs := rest }
  setCfg : ∀ (s : State) b, P s → P { s with cfg := b }
  otherPins : ∀ s high m, P s → P (State.otherPins high m s)
  addPend : ∀ (s : State) e, P s → P { s with pend := addRequest s.pend e }
  dropPend : ∀ (s : State) k, P s → P { s with pend := s.pend.eraseIdx k }

/-- A length given to a wait, at the instant the wait is begun. -/
theorem State.lengthOk_congr {s t : State} (h : t.conf = s.conf) {n : Nat} (k : s.lengthOk n) : t.lengthOk n := by
  unfold State.lengthOk
  rw [h]
  exact k

namespace Kept

variable {P : State → Prop} (K : Kept P)
include K

/-! ### The environment -/

theorem drift (s : State) (limit : Option Nat) (h : P s) : P (s.drift limit) := K.passDraw s _ h

theorem perform {s t : State} {e : EnvStep} (h : P s) (ht : s.perform e = .next t) : P t := by
  cases e with
  | configure outputs => cases ht; exact K.drift _ _ (K.setCfg _ _ h)
  | drive high m =>
    simp only [State.perform] at ht
    split at ht
    · cases ht; exact K.drift _ _ (K.otherPins _ _ _ h)
    · cases ht
  | interrupt n => cases ht; exact K.drift _ _ h

theorem arise {s t : State} {e : EnvStep} (h : P s) (ht : s.arise e = .next t) : P t := by
  unfold State.arise at ht
  split at ht
  · cases ht; exact K.addPend _ _ h
  · exact K.perform h ht

theorem serve {s t : State} {k : Nat} (h : P s) (ht : s.serve k = .next t) : P t := by
  unfold State.serve at ht
  split at ht
  · cases ht; exact h
  · split at ht
    · cases ht; exact K.drift _ _ h
    · exact K.perform (K.dropPend _ _ h) ht

theorem environment (s : State) (h : P s) : P s.environment :=
  State.interlude_keeps (fun _ _ _ _ hu ht => K.arise (K.setInputs _ _ hu) ht)
    (fun _ _ _ _ hu ht => K.serve (K.setInputs _ _ hu) ht) _ _ _ (K.draw _ h)

/-! ### Waits and delays -/

theorem wait (s : State) (n : Nat) (room : Option Nat) (hn : s.lengthOk n) (hr : s.resting) (h : P s) :
    P (s.wait n room) := by
  have h1 := K.environment _ (K.beginWait s n hn hr h)
  have h2 : (s.beginWait n).environment.wact = true := by simp
  have h3 : (s.beginWait n).environment.wn = s.conf.cutCycles n := by simp
  have h4 : (s.beginWait n).environment.conf = s.conf := by simp
  have h5 : (s.beginWait n).environment.waitBegan ≤ (s.beginWait n).environment.time := by
    simpa using (s.beginWait n).environment_mono
  unfold State.wait
  generalize (s.beginWait n).environment = u at *
  have hl := u.waitLength_spec n room (u.time - u.waitBegan)
  refine K.endWait { u.pass _ with draws := u.draws + 1 } h2 (.inl ⟨n, State.lengthOk_congr h4 hn, ?_, ?_⟩)
    (K.passDraw _ _ h1)
  · show u.wn = u.conf.cutCycles n
    rw [h3, h4]
  · show u.waitBegan + n ≤ u.time + _
    omega

theorem delay (s : State) (d : Nat) (hr : s.resting) (h : P s) : P (s.delay d) := by
  have h1 := K.environment _ (K.beginDelay s d hr h)
  have h2 : (s.beginDelay d).environment.wact = false := by simpa using hr.1
  have h3 : (s.beginDelay d).environment.drem = some ⟨d, s.time⟩ := by simp
  unfold State.delay
  generalize (s.beginDelay d).environment = u at *
  refine K.endDelay { u.pass _ with draws := u.draws + 1 } _ h2 h3 ?_ (K.passDraw _ _ h1)
  show s.time + u.conf.msCycles d ≤ u.time + _
  omega

/-! ### Commands -/

theorem setPhase (s : State) (p : Phase) (h : P s) : P { s with phase := p } :=
  K.setSeq s p s.widx s.bidx s.kidx h

theorem returnNothing (s : State) (h : P s) : P s.returnNothing :=
  K.complete s .off (.inl (Nat.zero_le _)) h

theorem completeWait (s : State) (h : P s) : P s.completeWait := by
  refine K.complete s _ (.inr ?_) h
  cases s.meter <;> simp [Meter.afterWaitOf, Meter.room]

theorem loadShift {s : State} {w : Nat} {v : Word} (hv : s.wordRead w = some v) (h : P s) :
    P (s.loadShift w v) := K.drift _ _ (K.loadWord s w v hv h)

/-- What is kept through a send: the property, and that nothing is in flight between its waits. -/
theorem emitBit (s : State) (v : Bool) (hr : s.resting) (h : P s) :
    (s.emitBit v).resting ∧ P (s.emitBit v) := by
  have h1 := K.wait (({ s with phase := .bitHigh } : State).pinSet s.conf.pinMask) (s.conf.highTime v)
    (({ s with phase := .bitHigh } : State).pinSet s.conf.pinMask).waitRoom (.inr ⟨v, .inl rfl⟩) hr
    (K.pinSet { s with phase := .bitHigh } _ (.inr rfl) hr (K.setPhase _ _ h))
  have r1 : (s.emitHigh v).resting := ⟨by simp [State.emitHigh], by simpa [State.emitHigh] using hr.2⟩
  refine ⟨⟨by simp [State.emitBit_eq, State.emitLow], by simpa [State.emitBit_eq, State.emitLow] using r1.2⟩, ?_⟩
  rw [State.emitBit_eq]
  change P (s.emitHigh v) at h1
  generalize s.emitHigh v = u at *
  exact K.wait (({ u with phase := .bitLow } : State).pinClr u.conf.pinMask) _ _ (.inr ⟨v, .inr rfl⟩) r1
    (K.pinClr { u with phase := .bitLow } _ (.inr rfl) r1 (K.setPhase _ _ h1))

theorem emitBits (b : Nat) (ks : List Nat) (s : State) (hr : s.resting) (h : P s) :
    (State.emitBits b ks s).resting ∧ P (State.emitBits b ks s) := by
  induction ks generalizing s with
  | nil => exact ⟨hr, h⟩
  | cons k ks ih =>
    rw [State.emitBits_cons]
    have hb := K.emitBit { s with kidx := BitVec.ofNat 3 k } (wireBit s.shift b k) hr
      (K.setSeq s s.phase s.widx s.bidx (BitVec.ofNat 3 k) h)
    exact ih _ hb.1 hb.2

theorem emitByte (s : State) (b : Nat) (hr : s.resting) (h : P s) :
    (s.emitByte b).resting ∧ P (s.emitByte b) := by
  rw [State.emitByte_eq]
  exact K.emitBits b _ { s with bidx := BitVec.ofNat 2 b } hr
    (K.setSeq s s.phase s.widx (BitVec.ofNat 2 b) s.kidx h)

theorem emitWord {s t : State} {w : Nat} (hr : s.resting) (h : P s) (ht : s.emitWord w = .next t) :
    t.resting ∧ P t := by
  unfold State.emitWord at ht
  split at ht
  · cases ht
  · next v hv =>
    rw [← Host.Outcome.next.inj ht, List.foldl_cons, List.foldl_cons, List.foldl_cons, List.foldl_cons,
      List.foldl_nil]
    have h0 := K.emitByte (s.loadShift w v) 0 hr (K.loadShift hv h)
    have h1 := K.emitByte _ 1 h0.1 h0.2
    have h2 := K.emitByte _ 2 h1.1 h1.2
    exact K.emitByte _ 3 h2.1 h2.2

theorem emitWords {n w : Nat} {s t : State} (hr : s.resting) (h : P s)
    (ht : State.emitWords n w s = .next t) : t.resting ∧ P t := by
  induction n generalizing w s with
  | zero => cases ht; exact ⟨hr, h⟩
  | succ n ih =>
    obtain ⟨u, hu, ht⟩ := andThen_eq_next ht
    have hw := K.emitWord hr h hu
    exact ih hw.1 hw.2 ht

theorem beginSend (s : State) (hr : s.resting) (h : P s) : P s.beginSend :=
  K.pinClr (s.setSeq .framing 0 0 7) _ (.inr rfl) hr (K.setSeq _ _ _ _ _ h)

theorem lowAndRelease (s : State) (hr : s.resting) (h : P s) : P s.lowAndRelease :=
  K.setSeq _ _ _ _ _ (K.release ((s.setSeq .idleLow 0 0 7).pinClr s.conf.pinMask) hr
    (K.pinClr (s.setSeq .idleLow 0 0 7) _ (.inr rfl) hr (K.setSeq _ _ _ _ _ h)))

/-- The effect of any command, issued with neither a wait nor a delay in flight. -/
theorem effectOf {i : Instr} {s t : State} (hr : s.resting) (hc : checkOf i s = none) (h : P s)
    (ht : Machine.effectOf i s = .next t) : P t := by
  cases i with
  | now =>
    cases ht
    refine K.setMeter _ _ (.inl ?_) (K.returnValue _ _ h)
    by_cases hl : s.lock = true <;> simp [hl, Meter.room]
  | waitCycles n =>
    cases ht
    have hn : n.toNat < 2 ^ s.conf.cw := by
      simpa [checkOf, State.waitCheck, failIf_eq_none, operandFits] using hc
    exact K.completeWait _ (K.wait s n.toNat s.commandRoom (.inl hn) hr h)
  | mask => cases ht; exact K.returnValue _ _ h
  | assert m =>
    cases ht
    refine K.returnNothing _ (K.pinSet _ _ (.inl ?_) hr h)
    simpa [checkOf, failIf_eq_none, operandFits] using hc
  | deassert m =>
    cases ht
    refine K.returnNothing _ (K.pinClr _ _ (.inl ?_) hr h)
    simpa [checkOf, failIf_eq_none, operandFits] using hc
  | lock => cases ht; exact K.returnNothing _ (K.acquire _ hr h)
  | unlock => cases ht; exact K.returnNothing _ (K.release _ hr h)
  | delayMs d => cases ht; exact K.returnNothing _ (K.delay _ _ hr h)
  | size => cases ht; exact K.returnValue _ _ h
  | pixRd idx =>
    have hk : idx.toNat < s.conf.pixels := by simpa [checkOf, failIf_eq_none] using hc
    simp only [Machine.effectOf, State.memRead_pixel hk] at ht
    cases ht
    exact K.returnValue _ _ h
  | pixWr idx colour =>
    have hk : idx.toNat < s.conf.pixels := by simpa [checkOf, failIf_eq_none] using hc
    simp only [Machine.effectOf, State.memWrite_pixel hk] at ht
    cases ht
    exact K.returnNothing _ (K.writePixel _ _ _ hk h)
  | bufReset => cases ht; exact K.returnNothing _ (K.clear _ h)
  | wordRd idx =>
    have hk : idx.toNat < s.conf.words := by simpa [checkOf, failIf_eq_none] using hc
    simp only [Machine.effectOf, State.wordRead_of_lt hk] at ht
    cases ht
    exact K.returnValue _ _ h
  | send =>
    obtain ⟨u, hu, ht⟩ := andThen_eq_next ht
    cases ht
    have ho : s.openFrame.resting := by
      simpa [State.resting, State.openFrame, State.beginSend] using hr
    have he : (s.beginSend.environment.drift none).resting := by
      simpa [State.resting, State.beginSend] using hr
    obtain ⟨ru, pu⟩ := K.emitWords ho
      (K.acquire _ he (K.drift _ _ (K.environment _ (K.beginSend _ hr h)))) hu
    exact K.returnNothing _ (K.setSeq _ _ _ _ _ (K.delay u.lowAndRelease _ ru (K.lowAndRelease _ ru pu)))
  | scale colour f => cases ht; exact K.returnValue _ _ h
  | offset colour d => cases ht; exact K.returnValue _ _ h

/-- Any command, issued with neither a wait nor a delay in flight. -/
theorem exec {i : Instr} {s t : State} (hr : s.resting) (h : P s) (ht : Machine.exec i s = .next t) : P t := by
  rcases exec_cases i s with ⟨-, e⟩ | ⟨hf, c, e⟩ | ⟨-, -, hc, e⟩
  · rw [e] at ht; cases ht; exact K.drop _ h
  · rw [e] at ht; cases ht; exact K.abort _ _ hf hr h
  · rw [e] at ht; exact K.effectOf hr hc h ht

/-- The first row of any command. -/
theorem startRow {i : Instr} {s t : State} (hr : s.resting) (h : P s) (ht : Machine.startRow i s = .next t) :
    P t := by
  rcases startRow_cases i s with ⟨-, e⟩ | ⟨hf, c, e⟩ | ⟨-, -, hc, e⟩
  · rw [e] at ht; cases ht; exact K.drop _ h
  · rw [e] at ht; cases ht; exact K.abort _ _ hf hr h
  · rw [e] at ht
    cases i with
    | waitCycles n =>
      cases ht
      refine K.beginWait _ _ (.inl ?_) hr h
      simpa [checkOf, State.waitCheck, failIf_eq_none, operandFits] using hc
    | delayMs d => cases ht; exact K.beginDelay _ _ hr h
    | send => cases ht; exact K.beginSend _ hr h
    | _ => exact K.effectOf hr hc h ht

/-- Issuing a word, legal or not. -/
theorem issue {run : Instr → State → Host.Outcome State Fault Refusal} {s t : State} {w : CommandWord}
    (hrun : ∀ i u, u.resting → P u → run i u = .next t → P t) (hr : s.resting) (h : P s)
    (ht : s.issue run w = .next t) : P t := by
  unfold State.issue at ht
  split at ht
  · cases ht
    have hd := K.drift s none h
    have hu : (s.drift none).resting := hr
    generalize s.drift none = u at hd hu
    unfold State.raise
    split
    · exact K.drop _ hd
    · next hf => exact K.abort _ _ hf hu hd
  · next i _ =>
    refine hrun i _ ?_ (K.loadOperands _ _ ?_) ht
    · unfold State.loadOperands
      split <;> exact hr
    · refine K.setMeter { s.pass _ with draws := s.draws + 1 } _ (.inr ?_) (K.passDraw _ _ h)
      show (s.meter.spend _).room ≤ s.meter.room
      cases s.meter <;> simp [Meter.spend, Meter.room]

/-! ### Rows -/

theorem afterWait (s : State) (h : P s) : P s.afterWait := by
  unfold State.afterWait
  split
  · exact K.completeWait _ h
  · exact h

theorem afterDelay (s : State) (h : P s) : P s.afterDelay := by
  unfold State.afterDelay
  split
  · exact K.returnNothing _ h
  · exact h

theorem poll (s : State) (hw : s.wact = true) (h : P s) : P s.poll := by
  have hp : P s.atPoll := K.passDraw _ _ h
  unfold State.poll
  split
  · next hd => exact K.afterWait _ (K.endWait _ hw (.inr hd) hp)
  · exact hp

theorem delayRow (s : State) (d : Delay) (hw : s.wact = false) (hd : s.drem = some d) (h : P s) :
    P (s.delayRow d) := by
  have hl : P (s.atLook d) := K.passDraw _ _ h
  unfold State.delayRow
  split
  · next ht => exact K.afterDelay _ (K.endDelay _ d hw hd ht hl)
  · exact hl

theorem startHigh (s : State) (hr : s.resting) (h : P s) : P s.startHigh :=
  K.beginWait _ _ (.inr ⟨_, .inl rfl⟩) hr
    (K.pinSet { s with phase := .bitHigh } _ (.inr rfl) hr (K.setPhase _ _ h))

theorem startLow (s : State) (hr : s.resting) (h : P s) : P s.startLow :=
  K.beginWait _ _ (.inr ⟨_, .inr rfl⟩) hr
    (K.pinClr { s with phase := .bitLow } _ (.inr rfl) hr (K.setPhase _ _ h))

theorem startWord {s t : State} {w : Nat} (hr : s.resting) (h : P s) (ht : s.startWord w = .next t) : P t := by
  unfold State.startWord at ht
  split at ht
  · cases ht
  · next v hv =>
    rw [← Host.Outcome.next.inj ht]
    exact K.startHigh { s.loadShift w v with bidx := 0, kidx := 7 } hr
      (K.setSeq (s.loadShift w v) s.phase _ 0 7 (K.loadShift hv h))

theorem endFrame (s : State) (hr : s.resting) (h : P s) : P s.endFrame :=
  K.beginDelay s.lowAndRelease _ hr (K.lowAndRelease _ hr h)

theorem phaseRow {s t : State} (hr : s.resting) (h : P s) (ht : s.phaseRow = .next t) : P t := by
  unfold State.phaseRow at ht
  split at ht
  · cases ht; exact h
  · split at ht
    · cases ht; exact K.endFrame s.acquire hr (K.acquire _ hr h)
    · exact K.startWord (s := s.acquire) hr (K.acquire _ hr h) ht
  · cases ht; exact K.startLow _ hr h
  · unfold State.afterLow at ht
    split at ht
    · rw [← Host.Outcome.next.inj ht]
      exact K.startHigh { s with kidx := s.kidx - 1 } hr (K.setSeq s s.phase s.widx s.bidx (s.kidx - 1) h)
    · split at ht
      · rw [← Host.Outcome.next.inj ht]
        exact K.startHigh { s with bidx := s.bidx + 1, kidx := 7 } hr
          (K.setSeq s s.phase s.widx (s.bidx + 1) 7 h)
      · split at ht
        · exact K.startWord hr h ht
        · cases ht; exact K.endFrame _ hr h
  · cases ht; exact K.endFrame _ hr h
  · cases ht; exact K.returnNothing _ (K.setSeq _ _ _ _ _ h)

/-- One row of a command in flight. -/
theorem engineRow {s t : State} (h : P s) (ht : s.engineRow = .next t) : P t := by
  unfold State.engineRow at ht
  split at ht
  · next hw => cases ht; exact K.poll _ hw h
  · next hw =>
    have hw : s.wact = false := by simpa using hw
    split at ht
    · next d hd => cases ht; exact K.delayRow _ _ hw hd h
    · next hd => exact K.phaseRow (s := s.drift none) ⟨hw, hd⟩ (K.drift _ _ h) ht

/-- Any step. -/
theorem step {s t : State} (h : P s) (ht : Machine.step s = .next t) : P t := by
  have hr : ¬s.inFlight = true → s.resting := by
    intro hf
    simp only [State.inFlight, Bool.or_eq_true, not_or, Bool.not_eq_true] at hf
    exact ⟨hf.1.2, by simpa using hf.2⟩
  unfold Machine.step at ht
  split at ht
  · split at ht
    · exact K.engineRow h ht
    · cases ht; exact K.drift _ _ h
  · split at ht
    · exact K.engineRow h ht
    · next rest _ hf =>
      exact K.issue (s := { s with inputs := rest }) (fun _ _ => K.exec) (hr hf) (K.setInputs _ _ h) ht
  · split at ht
    · exact K.engineRow h ht
    · next rest _ hf =>
      exact K.issue (s := { s with inputs := rest }) (fun _ _ => K.startRow) (hr hf) (K.setInputs _ _ h) ht
  · split at ht
    · exact K.engineRow (K.setInputs _ _ h) ht
    · cases ht; exact K.setInputs _ _ h
  · exact K.arise (K.setInputs _ _ h) ht
  · exact K.serve (K.setInputs _ _ h) ht

end Kept

end Sys2Proof.Machine
end

