-- ==== Sys2Proof/Laws/PerInstr.lean ====
section
/-! SUPPORT. Per instruction: the three fields of its word are its opcode and its operands, and an operand the format does not use is zero (30_encoding.md R100, R101). -/

namespace Sys2Proof.Laws.FieldsOfWord

/-- The fields of the word of `i`. -/
def Statement (i : Instr) : Prop :=
  opField (encode i) = i.opcode ∧ bField (encode i) = i.operandB ∧ aField (encode i) = i.operandA

theorem now : Statement .now :=
  ⟨opField_encode _, bField_encode _, aField_encode _⟩

theorem waitCycles (n : Word) : Statement (.waitCycles n) :=
  ⟨opField_encode _, bField_encode _, aField_encode _⟩

theorem mask : Statement .mask :=
  ⟨opField_encode _, bField_encode _, aField_encode _⟩

theorem assert (m : Word) : Statement (.assert m) :=
  ⟨opField_encode _, bField_encode _, aField_encode _⟩

theorem deassert (m : Word) : Statement (.deassert m) :=
  ⟨opField_encode _, bField_encode _, aField_encode _⟩

theorem lock : Statement .lock :=
  ⟨opField_encode _, bField_encode _, aField_encode _⟩

theorem unlock : Statement .unlock :=
  ⟨opField_encode _, bField_encode _, aField_encode _⟩

theorem delayMs (d : Word) : Statement (.delayMs d) :=
  ⟨opField_encode _, bField_encode _, aField_encode _⟩

theorem size : Statement .size :=
  ⟨opField_encode _, bField_encode _, aField_encode _⟩

theorem pixRd (idx : Word) : Statement (.pixRd idx) :=
  ⟨opField_encode _, bField_encode _, aField_encode _⟩

theorem pixWr (idx : Word) (colour : Colour) : Statement (.pixWr idx colour) :=
  ⟨opField_encode _, bField_encode _, aField_encode _⟩

theorem bufReset : Statement .bufReset :=
  ⟨opField_encode _, bField_encode _, aField_encode _⟩

theorem wordRd (idx : Word) : Statement (.wordRd idx) :=
  ⟨opField_encode _, bField_encode _, aField_encode _⟩

theorem send : Statement .send :=
  ⟨opField_encode _, bField_encode _, aField_encode _⟩

theorem scale (colour : Colour) (f : Word) : Statement (.scale colour f) :=
  ⟨opField_encode _, bField_encode _, aField_encode _⟩

theorem offset (colour : Colour) (d : Word) : Statement (.offset colour d) :=
  ⟨opField_encode _, bField_encode _, aField_encode _⟩

end Sys2Proof.Laws.FieldsOfWord
end

