-- ==== Sys2Proof/Laws/Rows.lean ====
section
/-! SUPPORT. What one poll of a wait and one look at a delay can do (40_cycle_timer.md R123, 42_critical_section_delay.md R166). -/

namespace Sys2Proof.Machine

/-- A poll ends the wait when the exit test holds, and changes nothing but the time when it does not. -/
theorem State.poll_cases (s : State) :
    (waitDone s.conf.cw s.atPoll.cycle s.wstart s.wn = true ∧
      s.poll = { s.atPoll with wact := false }.afterWait) ∨
    (waitDone s.conf.cw s.atPoll.cycle s.wstart s.wn = false ∧ s.poll = s.atPoll) := by
  by_cases h : waitDone s.conf.cw s.atPoll.cycle s.wstart s.wn = true
  · exact .inl ⟨h, if_pos h⟩
  · exact .inr ⟨by simpa using h, if_neg h⟩

/-- A look at a delay comes no sooner than the last, and later while its milliseconds have not passed. -/
theorem State.atLook_time (s : State) (d : Delay) :
    s.time ≤ (s.atLook d).time ∧ (s.time < d.began + s.conf.msCycles d.ms → s.time < (s.atLook d).time) := by
  show s.time ≤ s.time + _ ∧ (_ → s.time < s.time + _)
  split <;> omega

/-- A delay row lets time pass, and ends the delay if its milliseconds have then passed. -/
theorem State.delayRow_cases (s : State) (d : Delay) :
    (d.began + s.conf.msCycles d.ms ≤ (s.atLook d).time ∧
      s.delayRow d = { s.atLook d with drem := none }.afterDelay) ∨
    ((s.atLook d).time < d.began + s.conf.msCycles d.ms ∧ s.delayRow d = s.atLook d) := by
  by_cases h : d.began + s.conf.msCycles d.ms ≤ (s.atLook d).time
  · exact .inl ⟨h, if_pos h⟩
  · exact .inr ⟨by omega, if_neg h⟩

/-- In a send the end of a wait completes nothing; outside one it completes the command. -/
theorem State.afterWait_of_busy {s : State} (h : s.phase ≠ .idle) : s.afterWait = s := if_neg h

theorem State.afterWait_of_idle {s : State} (h : s.phase = .idle) : s.afterWait = s.completeWait := if_pos h

/-- The same of a delay. -/
theorem State.afterDelay_of_busy {s : State} (h : s.phase ≠ .idle) : s.afterDelay = s := if_neg h

theorem State.afterDelay_of_idle {s : State} (h : s.phase = .idle) : s.afterDelay = s.returnNothing := if_pos h

/-- The instant of the next poll: later than the last; where a limit is given, within it, and while the wait is not over
a poll past `n` meets the exit test. -/
theorem State.pollAt_spec (s : State) :
    (s.pollRoom = none → s.time - s.waitBegan < s.pollAt) ∧
    (∀ room, s.pollRoom = some room → s.time - s.waitBegan < s.wn.toNat → s.wn.toNat < 2 ^ s.conf.cw →
      s.time - s.waitBegan < s.pollAt ∧
      (s.wn.toNat ≤ s.pollAt → s.wn.toNat ≤ s.pollAt % 2 ^ s.conf.cw)) ∧
    (∀ room, s.pollRoom = some room → s.pollAt ≤ s.wn.toNat + room) := by
  unfold State.pollAt
  dsimp only
  refine ⟨fun h => ?_, fun room h hp hn => ?_, fun room h => ?_⟩
  · rw [h]
    simp only
    omega
  · rw [h]
    simp only
    split
    · exact ⟨hp, fun _ => by rw [Nat.mod_eq_of_lt hn]⟩
    · exact ⟨by omega, fun _ => by omega⟩
  · rw [h]
    simp only
    split <;> omega

/-- The row taken while a wait is in flight. -/
theorem State.engineRow_of_wait {s : State} (h : s.wact = true) : s.engineRow = .next s.poll := by
  simp [State.engineRow, h]

/-- The row taken while a delay is in flight. -/
theorem State.engineRow_of_delay {s : State} {d : Delay} (h : s.wact = false) (hd : s.drem = some d) :
    s.engineRow = .next (s.delayRow d) := by
  simp [State.engineRow, h, hd]

/-- The row taken with neither. -/
theorem State.engineRow_of_phase {s : State} (h : s.wact = false) (hd : s.drem = none) :
    s.engineRow = (s.drift none).phaseRow := by
  simp [State.engineRow, h, hd]

/-- After a low time: the next bit of the byte (R210). -/
theorem State.afterLow_bit {s : State} (h : s.kidx ≠ 0) :
    s.afterLow = .next { s with kidx := s.kidx - 1 }.startHigh := if_pos h

/-- After a low time: the next byte of the word. -/
theorem State.afterLow_byte {s : State} (h : s.kidx = 0) (hb : s.bidx ≠ 3) :
    s.afterLow = .next { s with bidx := s.bidx + 1, kidx := 7 }.startHigh := by
  unfold State.afterLow
  rw [if_neg (by simp [h]), if_pos hb]

/-- After a low time: the next word. -/
theorem State.afterLow_word {s : State} (h : s.kidx = 0) (hb : s.bidx = 3)
    (hw : s.widx.toNat + 1 < s.conf.words) : s.afterLow = s.startWord (s.widx.toNat + 1) := by
  unfold State.afterLow
  rw [if_neg (by simp [h]), if_neg (by simp [hb]), if_pos hw]

/-- After the last low time: the end of the frame. -/
theorem State.afterLow_end {s : State} (h : s.kidx = 0) (hb : s.bidx = 3)
    (hw : s.conf.words ≤ s.widx.toNat + 1) : s.afterLow = .next s.endFrame := by
  unfold State.afterLow
  rw [if_neg (by simp [h]), if_neg (by simp [hb]), if_neg (by omega)]

/-- Rows one after another. -/
theorem rows_add (m n : Nat) (s : State) : rows (m + n) s = andThen (rows m s) (rows n) := by
  induction m generalizing s with
  | zero => rw [Nat.zero_add, rows, andThen_next]
  | succ m ih =>
    rw [Nat.succ_add, rows, rows]
    cases s.engineRow with
    | next u => simp only [andThen_next, ih]
    | fault r => rfl
    | refused r => rfl

/-- Some number of rows leads from `s` to `t`. -/
def State.Leads (s t : State) : Prop := ∃ k, rows k s = .next t

theorem State.Leads.refl (s : State) : s.Leads s := ⟨0, rfl⟩

theorem State.Leads.trans {s t u : State} (h : s.Leads t) (k : t.Leads u) : s.Leads u := by
  obtain ⟨m, hm⟩ := h
  obtain ⟨n, hn⟩ := k
  exact ⟨m + n, by rw [rows_add, hm, andThen_next, hn]⟩

theorem State.Leads.row {s t : State} (h : s.engineRow = .next t) : s.Leads t :=
  ⟨1, by rw [rows, h]; rfl⟩

/-- A delay in flight ends, whatever the gaps are, once its milliseconds have passed. -/
theorem State.leads_of_delay (m : Nat) (s : State) (d : Delay) (hw : s.wact = false)
    (hd : s.drem = some d) (hm : d.began + s.conf.msCycles d.ms - s.time < m) :
    ∃ t : State, s.Leads t.afterDelay ∧ s.time ≤ t.time ∧ d.began + s.conf.msCycles d.ms ≤ t.time ∧
      t = { s with cycle := t.cycle, time := t.time, draws := t.draws, drem := none } := by
  induction m generalizing s with
  | zero => omega
  | succ m ih =>
    have row := State.engineRow_of_delay hw hd
    obtain ⟨hge, hgt⟩ := s.atLook_time d
    rcases s.delayRow_cases d with ⟨hle, h⟩ | ⟨hlt, h⟩
    · rw [h] at row
      exact ⟨{ s.atLook d with drem := none }, .row row, hge, hle, rfl⟩
    · rw [h] at row
      obtain ⟨t, ht, h1, h2, e⟩ := ih (s.atLook d) hw hd (by
        show d.began + s.conf.msCycles d.ms - (s.atLook d).time < m
        have := hgt (by omega)
        omega)
      exact ⟨t, .trans (.row row) ht, Nat.le_trans hge h1, h2, e⟩

/-- A wait in flight ends where its overhead has a limit, and within that: the limit makes some poll meet the exit
test. -/
theorem State.leads_of_wait (m : Nat) (s : State) (room : Nat) (hw : s.wact = true)
    (hroom : s.pollRoom = some room) (hcw : s.conf.cw ≤ 32) (hs : s.wstart.toNat < 2 ^ s.conf.cw)
    (hn : s.wn.toNat < 2 ^ s.conf.cw) (hk : s.WaitOk)
    (he : s.time - s.waitBegan < s.wn.toNat ∨ s.wn.toNat = 0 ∧ s.time = s.waitBegan)
    (hm : s.wn.toNat - (s.time - s.waitBegan) < m) :
    ∃ t : State, s.Leads t.afterWait ∧ s.time ≤ t.time ∧ s.waitBegan + s.wn.toNat ≤ t.time ∧
      t.time ≤ s.waitBegan + s.wn.toNat + room ∧
      t.cycle.toNat = (s.wstart.toNat + (t.time - s.waitBegan)) % 2 ^ s.conf.cw ∧
      t = { s with cycle := t.cycle, time := t.time, draws := t.draws, wact := false } := by
  induction m generalizing s with
  | zero => omega
  | succ m ih =>
    obtain ⟨h0, hcount⟩ := hk hw
    obtain ⟨-, h1, hz⟩ := s.pollAt_spec
    have ht : s.atPoll.time = s.time + (s.pollAt - (s.time - s.waitBegan)) := rfl
    have hc1 : s.atPoll.cycle.toNat =
        (s.wstart.toNat + (s.atPoll.time - s.waitBegan)) % 2 ^ s.conf.cw := by
      show (s.conf.cutCycles _).toNat = _
      rw [Config.toNat_cutCycles hcw, hcount, Nat.mod_add_mod, ht]
      congr 1
      omega
    have hd1 := cycleDiff_of_elapsed hs hc1
    have row := State.engineRow_of_wait hw
    rcases s.poll_cases with ⟨h3, h2⟩ | ⟨h3, h2⟩
    · rw [h2] at row
      rw [waitDone_iff, hd1] at h3
      have h4 := Nat.le_trans h3 (Nat.mod_le _ _)
      refine ⟨{ s.atPoll with wact := false }, .row row, Nat.le_add_right _ _, ?_, ?_, hc1, rfl⟩
      · show s.waitBegan + s.wn.toNat ≤ s.atPoll.time
        rcases he with he | he <;> omega
      · show s.atPoll.time ≤ s.waitBegan + s.wn.toNat + room
        have := hz room hroom
        rcases he with he | he <;> omega
    · have h4 : ¬s.wn.toNat ≤ cycleDiff s.conf.cw s.atPoll.cycle s.wstart := by
        rw [← waitDone_iff, h3]
        simp
      rw [hd1] at h4
      have he : s.time - s.waitBegan < s.wn.toNat := by omega
      obtain ⟨k1, k3⟩ := h1 _ hroom he hn
      have hat : s.atPoll.time - s.waitBegan = s.pollAt := by omega
      rw [hat] at h4
      have hlt : s.pollAt < s.wn.toNat := by
        by_cases h5 : s.wn.toNat ≤ s.pollAt
        · exact absurd (k3 h5) h4
        · omega
      rw [h2] at row
      obtain ⟨t, ht, r1, r2, r3, r4, e⟩ := ih s.atPoll hw hroom hcw hs hn
        (fun _ => ⟨show s.waitBegan ≤ s.atPoll.time by omega, hc1⟩)
        (.inl (show s.atPoll.time - s.waitBegan < s.wn.toNat by omega))
        (show s.wn.toNat - (s.atPoll.time - s.waitBegan) < m by omega)
      exact ⟨t, .trans (.row row) ht, by omega, r2, r3, r4, e⟩

end Sys2Proof.Machine
end

