-- ==== Sys2Proof/Tests/Slice0.lean ====
section
/-! SUPPORT. Tests on vectors of 95_test_vectors.md (expected results are the spec's), and a witness for the hypotheses of every statement. -/

namespace Sys2Proof.Tests

open Sys2Proof Sys2Proof.Machine

/-! ### Well-formed operands (30_encoding.md R101) -/

/-- Two pixels, a 16-bit counter, an 8-bit port. -/
def tiny : Config :=
  { pixels := 2, cw := 16, pw := 8, pinMask := 0x20#32, nom0H := 3, nom0L := 5, nom1H := 6, nom1L := 2
    corr := 1, resetMs := 1, clkHz := 1000, lane := .be, waitOvh := 16, pinOvh := 4 }

/-- V-T7: bit 16 is above `CW = 16`. -/
theorem test_wellFormed_waitCycles :
    Instr.wellFormed tiny (.waitCycles 0x10000) = false ∧ Instr.wellFormed tiny (.waitCycles 0xFFFF) = true := by
  decide

/-- V-P8: bit 8 is above `PW = 8`. -/
theorem test_wellFormed_assert :
    Instr.wellFormed tiny (.assert 0x100) = false ∧ Instr.wellFormed tiny (.assert 0xFF) = true := by
  decide

theorem test_wellFormed_deassert :
    Instr.wellFormed tiny (.deassert 0x100) = false ∧ Instr.wellFormed tiny (.deassert 0) = true := by
  decide

/-! ### Words written out by the spec, one constructor after the other (parts 1 to 3) -/

theorem test_decode_now : decode 0x1000000000000000#64 = .ok .now := by decide

/-- V-T5. -/
theorem test_decode_waitCycles : decode 0x1100000000000020#64 = .ok (.waitCycles 32) := by decide

theorem test_decode_mask : decode 0x2000000000000000#64 = .ok .mask := by decide

/-- V-P2. -/
theorem test_decode_assert : decode 0x2100000000000020#64 = .ok (.assert 0x20) := by decide

theorem test_decode_deassert : decode 0x2200000000000020#64 = .ok (.deassert 0x20) := by decide

theorem test_decode_lock : decode 0x3000000000000000#64 = .ok .lock := by decide

theorem test_decode_unlock : decode 0x3100000000000000#64 = .ok .unlock := by decide

/-- V-L5. -/
theorem test_decode_delayMs : decode 0x3800000000000005#64 = .ok (.delayMs 5) := by decide

theorem test_decode_size : decode 0x4000000000000000#64 = .ok .size := by decide

/-- V-B6. -/
theorem test_decode_pixRd : decode 0x4100000000000002#64 = .ok (.pixRd 2) := by decide

/-- V-B2: `Color(0xAA, 0x0F, 0x81)`, green first in the word. -/
theorem test_decode_pixWr : decode 0x420FAA8100000000#64 = .ok (.pixWr 0 0x0FAA81) := by decide

theorem test_decode_bufReset : decode 0x4300000000000000#64 = .ok .bufReset := by decide

theorem test_decode_wordRd : decode 0x4400000000000001#64 = .ok (.wordRd 1) := by decide

theorem test_decode_send : decode 0x5000000000000000#64 = .ok .send := by decide

/-- V-C1. -/
theorem test_decode_scale : decode 0x6080FF0100000080#64 = .ok (.scale 0x80FF01 128) := by decide

/-- V-C8: operand `-1`. -/
theorem test_decode_offset : decode 0x618000FFFFFFFFFF#64 = .ok (.offset 0x8000FF 0xFFFFFFFF) := by decide

/-- V-D1, V-D2, V-D3, V-D4, V-D6, V-T8, V-B13. -/
theorem test_decode_illegal :
    decode 0x0000000000000000#64 = .error .unknownOpcode ∧
    decode 0x5100000000000000#64 = .error .unknownOpcode ∧
    decode 0x5000000000000001#64 = .error .mustBeZero ∧
    decode 0x4100000100000000#64 = .error .mustBeZero ∧
    decode 0xFFFFFFFFFFFFFFFF#64 = .error .unknownOpcode ∧
    decode 0x1100000100000000#64 = .error .mustBeZero ∧
    decode 0x4300000000000001#64 = .error .mustBeZero := by decide

/-- V-D5. -/
theorem test_decode_pixWr_all_ones : decode 0x42FFFFFFFFFFFFFF#64 = .ok (.pixWr 0xFFFFFFFF 0xFFFFFF) := by
  decide

theorem test_encode_pixWr : encode (.pixWr 1 0x341256) = 0x4234125600000001#64 := by decide

theorem test_decodeTableWord :
    decodeTableWord 64 0x61FAFAFA00000014 = some (.offset 0xFAFAFA 20) ∧
    decodeTableWord 64 0x5100000000000000 = none := by decide

/-! ### Assembler lines (R112, R113) -/

/-- `PIXWR 0, Color(0x12, 0x34, 0x56) ; ...` of program P1. -/
theorem test_assemble_pixWr :
    assembleText "PIXWR 0, Color(0x12, 0x34, 0x56)   ; a comment".toList = some (.pixWr 0 0x341256) := by
  decide

/-- V-S7: `OFFSET Color(5,5,5), -20`. -/
theorem test_assemble_offset :
    assembleText "OFFSET Color(5,5,5), -20".toList = some (.offset 0x050505 0xFFFFFFEC) := by
  decide

/-! ### One command each -/

/-- The next state, looked at with `p`. -/
def next (o : Host.Outcome State Fault Refusal) (p : State → Bool) : Bool :=
  match o with
  | .next s => p s
  | .fault _ => false
  | .refused _ => false

/-- An engine after reset with its pins configured. -/
def engine : State := { State.init tiny with cfg := true }

/-- The same under the lock. -/
def held : State := { engine with lock := true }

/-- The buffer of V-B3: `0F AA 81 80 01 FF 00 00`. -/
def painted : State :=
  { engine with buf := [(0, 0x0F), (1, 0xAA), (2, 0x81), (3, 0x80), (4, 0x01), (5, 0xFF)] }

/-- V-T1. -/
theorem test_now : next (exec .now { engine with cycle := 0x64 }) (fun t => t.res = 0x64) := by decide

/-- V-T4: the trace gains `Wait(0)`. -/
theorem test_waitCycles :
    next (exec (.waitCycles 0) engine) (fun t => t.events = [.wait 0] && !t.wact && t.faultCode = 0) := by
  decide

/-- V-T7. -/
theorem test_waitCycles_width : next (exec (.waitCycles 0x10000) engine) (fun t => t.faultCode = 4) := by
  decide

/-- V-T3: 118 continues, 119 ends; V-T5: the difference wraps. -/
theorem test_waitDone :
    waitDone 32 118 100 19 = false ∧ waitDone 32 119 100 19 = true ∧
    waitDone 32 0xFFFFFFFF 0xFFFFFFF0 32 = false ∧ waitDone 32 0x0000000F 0xFFFFFFF0 32 = false ∧
    waitDone 32 0x00000010 0xFFFFFFF0 32 = true := by decide

/-- V-P1. -/
theorem test_mask : next (exec .mask engine) (fun t => t.res = 0x20) := by decide

/-- V-P2. -/
theorem test_assert :
    next (exec (.assert 0x20) { engine with out := 0x01 })
      (fun t => t.out = 0x21 && t.events = [.high 0x20]) := by decide

/-- V-P8. -/
theorem test_assert_width :
    next (exec (.assert 0x100) engine) (fun t => t.faultCode = 4 && t.out = 0) := by decide

/-- V-P3. -/
theorem test_deassert :
    next (exec (.deassert 0x20) { engine with out := 0x21 })
      (fun t => t.out = 0x01 && t.events = [.low 0x20]) := by decide

/-- V-P7, with `PW = 32`. -/
theorem test_deassert_all :
    next (exec (.deassert 0xFFFFFFFF) { State.reset with out := 0xFFFFFFFF }) (fun t => t.out = 0) := by decide

/-- V-L1. -/
theorem test_lock : next (exec .lock engine) (fun t => t.lock && t.events = [.lock]) := by decide

/-- V-L3. -/
theorem test_lock_held :
    next (exec .lock held) (fun t => t.lock && t.faultCode = 5 && t.events = [.abort .lockMisuse]) := by decide

/-- V-L2. -/
theorem test_unlock : next (exec .unlock held) (fun t => !t.lock && t.events = [.unlock]) := by decide

/-- V-L4. -/
theorem test_unlock_free : next (exec .unlock engine) (fun t => !t.lock && t.faultCode = 5) := by decide

/-- V-L5. -/
theorem test_delayMs :
    next (exec (.delayMs 5) engine) (fun t => t.events = [.delayMs 5] && t.faultCode = 0) := by decide

/-- V-L6. -/
theorem test_delayMs_held : next (exec (.delayMs 5) held) (fun t => t.faultCode = 5) := by decide

/-- V-B1. -/
theorem test_size : next (exec .size State.reset) (fun t => t.res = 4) := by decide

/-- V-B5. -/
theorem test_pixRd : next (exec (.pixRd 1) painted) (fun t => t.res = 0x008001FF) := by decide

/-- V-B6. -/
theorem test_pixRd_bound :
    next (exec (.pixRd 2) engine) (fun t => t.faultCode = 1 && t.events = [.abort .indexOutOfRange]) := by decide

/-- V-B3. -/
theorem test_pixWr :
    next (exec (.pixWr 1 0x8001FF) { engine with buf := [(0, 0x0F), (1, 0xAA), (2, 0x81)] })
      (fun t => t.buf = painted.buf) := by decide

/-- V-B8: the comparison is unsigned. -/
theorem test_pixWr_bound :
    next (exec (.pixWr 0xFFFFFFFF 0) painted) (fun t => t.faultCode = 1 && t.buf = painted.buf) := by decide

/-- V-B10. -/
theorem test_bufReset : next (exec .bufReset painted) (fun t => t.buf = [] && t.events = []) := by decide

/-- V-B4, `BE`. -/
theorem test_wordRd : next (exec (.wordRd 1) painted) (fun t => t.res = 0x01FF0000) := by decide

/-- V-B4, `LE`. -/
theorem test_wordRd_le :
    next (exec (.wordRd 0) { painted with conf := { tiny with lane := .le } }) (fun t => t.res = 0x8081AA0F) := by
  decide

/-- V-X5: no pixels, five events. -/
theorem test_send_empty :
    next (exec .send { engine with conf := { tiny with pixels := 0 } })
      (fun t => t.events = [.low 0x20, .lock, .low 0x20, .unlock, .delayMs 1]) := by decide

/-- V-X7. -/
theorem test_send_unconfigured :
    next (exec .send { engine with cfg := false })
      (fun t => t.faultCode = 3 && !t.lock && t.events = [.abort .notConfigured]) := by decide

/-- V-X1: the first word of the frame, `34 12 56 00` in `BE`, leaves bit 31 first. -/
theorem test_frameBit :
    (List.range 32).map ({ engine with buf := [(0, 0x34), (1, 0x12), (2, 0x56)] } : State).frameBit =
      [false, false, true, true, false, true, false, false, false, false, false, true, false, false, true, false,
       false, true, false, true, false, true, true, false, false, false, false, false, false, false, false, false] := by
  decide

/-- V-C1. -/
theorem test_scale : next (exec (.scale 0x80FF01 128) engine) (fun t => t.res = 0x00408000) := by decide

/-- V-C5: `-1`. -/
theorem test_scale_bound : next (exec (.scale 0x010101 0xFFFFFFFF) engine) (fun t => t.faultCode = 2) := by decide

/-- V-C8: red clamps alone. -/
theorem test_offset : next (exec (.offset 0x8000FF 0xFFFFFFFF) engine) (fun t => t.res = 0x007F00FE) := by decide

/-- V-C13: no wrap before the clamp. -/
theorem test_offset_wide : next (exec (.offset 0xC864FA 0x80000000) engine) (fun t => t.res = 0) := by decide

/-- V-D8: `LockMisuse` outranks `NotConfigured`. -/
theorem test_priority : next (exec .send { held with cfg := false }) (fun t => t.faultCode = 5) := by decide

/-- V-D7: under a standing fault nothing happens. -/
theorem test_standing_fault :
    next (exec .send { engine with fault := some .indexOutOfRange })
      (fun t => t.faultCode = 1 && t.events = [] && t.completions = [⟨.aborted, none⟩]) := by decide

/-- A step from reset runs the word placed where it is taken next: V-B1. -/
theorem test_step_size :
    next (step (State.reset.withFetchWord 64 0x4000000000000000)) (fun t => t.res = 4 && t.inputs = []) := by
  decide

/-- V-X9, the second row: `Acquire`, the word, `PinSet`, the wait for the high time of bit 31. -/
theorem test_row_framing :
    next ({ engine with buf := [(0, 0x34), (1, 0x12), (2, 0x56)] }.beginSend.engineRow)
      (fun t => t.phase = .bitHigh && t.kidx = 7 && t.shift = 0x34125600 && t.lock && t.wact && t.wn = 2 &&
        t.events = [.low 0x20, .lock, .high 0x20, .wait 2]) := by decide

/-- V-X10: the last row of the last word, the wait ended. -/
theorem test_row_last :
    next ({ held with phase := .bitLow, widx := 1, bidx := 3, kidx := 0 }.engineRow)
      (fun t => t.phase = .resetDelay && t.widx = 0 && t.bidx = 0 && t.kidx = 7 && !t.lock &&
        t.events = [.low 0x20, .unlock, .delayMs 1]) := by decide

/-- R123, R210: `.start` begins the wait of V-T4 and completes nothing; `.engine` with nothing in flight does nothing. -/
theorem test_start_row :
    next (step { engine with inputs := [.start 0x1100000000000000] })
      (fun t => t.wact && t.events = [.wait 0] && t.completions = []) ∧
    step { engine with inputs := [.engine] } = .next engine := ⟨by decide, rfl⟩

/-- R75, R162: two steps of the environment without the lock; with it, what arises waits in `PEND`. -/
theorem test_interlude :
    (State.interlude 2 [.arise (.drive true 1), .arise (.configure false), .command 0] engine).out = 1 ∧
    (State.interlude 2 [.arise (.drive true 1), .arise (.configure false), .command 0] engine).cfg = false ∧
    (State.interlude 9 [.arise (.drive true 1), .command 0] held).pend = [.drive true 1] := by decide

/-! ### Witnesses: states and operands that meet the hypotheses of a statement, clause by clause -/

theorem ready_engine : engine.Ready := ⟨⟨rfl, rfl, rfl, rfl, rfl, rfl⟩, rfl⟩

theorem ready_held : held.Ready := ⟨⟨rfl, rfl, rfl, rfl, rfl, rfl⟩, rfl⟩

theorem inv_engine : engine.Inv :=
  ⟨by decide, ⟨by decide, by decide, by decide, by decide⟩, ⟨by decide, by decide⟩, by decide, by decide,
    fun h => absurd h (by decide)⟩

theorem inv_held : held.Inv :=
  ⟨by decide, ⟨by decide, by decide, by decide, by decide⟩, ⟨by decide, by decide⟩, by decide, by decide,
    fun h => absurd h (by decide)⟩

/-- An engine with a fault. -/
def faulted : State := { engine with fault := some .busy }

/-- A wait in flight, begun now. -/
def waiting : State := { engine with wact := true, wn := 3 }

/-- A send in its first bit cell, high. -/
def inHigh : State :=
  { painted with phase := .bitHigh, lock := true, out := 0x20, shift := 0x0FAA8180, wact := true, wn := 2 }

theorem inv_waiting : waiting.Inv :=
  ⟨by decide, ⟨by decide, by decide, by decide, by decide⟩, ⟨by decide, by decide⟩, by decide, by decide,
    fun _ => by decide⟩

theorem inv_inHigh : inHigh.Inv :=
  ⟨by decide, ⟨by decide, by decide, by decide, by decide⟩, ⟨by decide, by decide⟩, by decide, by decide,
    fun _ => by decide⟩

/-- The word of `NOW`, and one that is no command. -/
def nowWord : CommandWord := 0x1000000000000000
def badWord : CommandWord := 0x5100000000000000

theorem witness_ResetLeavesTheStatedValues : tiny.valid = true ∧ Config.standard.valid = true := by decide

/-- One configuration for each condition of R268. -/
theorem witness_InvalidConfigurationYieldsNoEngine :
    tiny.nom0H < { tiny with corr := 4 }.corr ∧ { tiny with nom0L := 0 }.nom0L < tiny.corr ∧
    { tiny with nom1H := 0 }.nom1H < tiny.corr ∧ { tiny with nom1L := 0 }.nom1L < tiny.corr ∧
    2 ^ (tiny.cw - 1) ≤ { tiny with nom0H := 32769 }.nom0H - tiny.corr ∧
    2 ^ (tiny.cw - 1) ≤ { tiny with nom0L := 32769 }.nom0L - tiny.corr ∧
    2 ^ (tiny.cw - 1) ≤ { tiny with nom1H := 32769 }.nom1H - tiny.corr ∧
    2 ^ (tiny.cw - 1) ≤ { tiny with nom1L := 32769 }.nom1L - tiny.corr ∧
    { tiny with pinMask := 0 }.pinMask = 0 ∧ 2 ^ tiny.pw ≤ { tiny with pinMask := 0x100 }.pinMask.toNat ∧
    { tiny with resetMs := 0 }.resetMs = 0 ∧
    2 ^ 32 ≤ 4 * ((3 * { tiny with pixels := 1431655765 }.pixels + 3) / 4) ∧
    { tiny with cw := 0 }.cw < 1 ∧ 32 < { tiny with cw := 33 }.cw ∧
    { tiny with pw := 0 }.pw < 1 ∧ 32 < { tiny with pw := 33 }.pw := by decide

theorem witness_ConfigurationNeverChanges : ∃ t, step engine = .next t := ⟨_, rfl⟩

theorem witness_EncodeOfDecodeIsTheWord : decode nowWord = .ok .now := by decide

theorem witness_ColourOperandAssembles :
    (0xFFFFFFFF : Nat) < 2 ^ 32 ∧ (⟨255, 0, 255⟩ : AsmColour).r ≤ 255 ∧
    (⟨255, 0, 255⟩ : AsmColour).g ≤ 255 ∧ (⟨255, 0, 255⟩ : AsmColour).b ≤ 255 := by decide

/-- Without a standing fault and with one. -/
theorem witness_StepRunsTheDecodedCommand :
    ({ engine with inputs := [.command nowWord] }.inputs = .command nowWord :: [] ∧
      { engine with inputs := [.command nowWord] }.inFlight = false ∧ engine.fault = none) ∧
    ({ faulted with inputs := [.command nowWord] }.inFlight = false ∧ faulted.fault ≠ none) ∧
    decode nowWord = .ok .now := by decide

/-- A command to be run in rows, and a step of the engine with a wait in flight and without. -/
theorem witness_StartedCommandRunsInRows :
    ({ engine with inputs := [.start nowWord] }.inputs = .start nowWord :: [] ∧ engine.inFlight = false ∧
      decode nowWord = .ok .now) ∧
    ({ waiting with inputs := [.engine] }.inputs = .engine :: [] ∧ waiting.inFlight = true) ∧
    { engine with inputs := [.engine] }.inputs = .engine :: [] := by decide

/-- Each command that has more than one row, and an abort of one. -/
theorem witness_StartedCommandRunsInRows_first_row :
    engine.Ready ∧ (0xFFFF#32).toNat < 2 ^ engine.conf.cw ∧ engine.lock = false ∧ engine.cfg = true ∧
    held.fault = none ∧ exec .send held = .next (held.abort .lockMisuse) ∧
    (held.abort .lockMisuse).fault ≠ none := ⟨ready_engine, by decide, rfl, rfl, rfl, rfl, by decide⟩

/-- A command of one row. -/
theorem witness_StartedCommandRunsInRows_one_row :
    (∀ n, Instr.now ≠ .waitCycles n) ∧ (∀ d, Instr.now ≠ .delayMs d) ∧ Instr.now ≠ .send :=
  ⟨fun _ h => Instr.noConfusion h, fun _ h => Instr.noConfusion h, fun h => Instr.noConfusion h⟩

theorem witness_IllegalWordAborts :
    { engine with inputs := [.command badWord] }.inputs = .command badWord :: [] ∧
    { engine with inputs := [.start badWord] }.inputs = .start badWord :: [] ∧
    { engine with inputs := [.command badWord] }.inFlight = false ∧ engine.fault = none ∧
    decode badWord = .error .unknownOpcode := by decide

theorem witness_IssuerWaitsForTheCommandInFlight :
    { waiting with inputs := [.command nowWord] }.inFlight = true ∧
    (∃ t, step { waiting with inputs := [.command nowWord] } = .next t) ∧
    ∃ t, step { waiting with inputs := [.start nowWord] } = .next t := ⟨by decide, ⟨_, rfl⟩, _, rfl⟩

theorem witness_IdleEngineOnlyCounts : engine.inputs = [] ∧ engine.inFlight = false := by decide

theorem witness_CycleCountsEveryCycle : engine.Inv ∧ ∃ t, step engine = .next t := ⟨inv_engine, _, rfl⟩

theorem witness_StandingFaultRefusesEveryCommand :
    faulted.fault ≠ none ∧ { faulted with inputs := [.command badWord] }.inFlight = false ∧
    { faulted with inputs := [.start nowWord] }.inputs = .start nowWord :: [] := by decide

theorem witness_FaultIsSticky : faulted.fault = some .busy ∧ ∃ t, step faulted = .next t := ⟨rfl, _, rfl⟩

theorem witness_AbortDoesNothingElse :
    held.fault = none ∧ ∃ t, exec .lock held = .next t ∧ t.fault ≠ none := ⟨rfl, _, rfl, by decide⟩

theorem witness_CommandDuringASendIsBusy : inHigh.fault = none ∧ inHigh.phase ≠ .idle := by decide

theorem witness_LockMisuseAborts :
    (held.Ready ∧ held.lock = true) ∧ (engine.Ready ∧ engine.lock = false) :=
  ⟨⟨ready_held, rfl⟩, ⟨ready_engine, rfl⟩⟩

/-- Index `N` and index `W`, both 2, and the largest index. -/
theorem witness_IndexOutOfRangeAborts :
    engine.Ready ∧ engine.conf.pixels ≤ (2#32).toNat ∧ engine.conf.words ≤ (2#32).toNat ∧
    engine.conf.pixels ≤ (0xFFFFFFFF#32).toNat := ⟨ready_engine, by decide⟩

/-- `-1` and 255. -/
theorem witness_ScaleOutOfRangeAborts :
    engine.Ready ∧ (0xFFFFFFFF#32).toInt < 0 ∧ 255 ≤ (255#32).toInt := ⟨ready_engine, by decide⟩

/-- The first value above each width. -/
theorem witness_OperandAboveWidthAborts :
    engine.Ready ∧ 2 ^ engine.conf.cw ≤ (0x10000#32).toNat ∧ 2 ^ engine.conf.pw ≤ (0x100#32).toNat :=
  ⟨ready_engine, by decide⟩

theorem witness_UnconfiguredSendAborts :
    (State.init tiny).Ready ∧ (State.init tiny).lock = false ∧ (State.init tiny).cfg = false ∧
    (0xFF#32).toNat < 2 ^ (State.init tiny).conf.pw := ⟨⟨⟨rfl, rfl, rfl, rfl, rfl, rfl⟩, rfl⟩, by decide⟩

theorem witness_EveryCommandCompletesOnce : engine.AtRest ∧ held.AtRest := ⟨ready_engine.toAtRest, ready_held.toAtRest⟩

theorem witness_NowReturnsTheCounter : engine.Ready := ready_engine

theorem witness_TwoReadsOfTheCounterDiffer :
    let s : State := { engine with inputs := [.command nowWord, .command nowWord] }
    s.Inv ∧ s.Ready ∧ decode nowWord = .ok .now := by
  exact ⟨⟨inv_engine.valid, ⟨by decide, by decide, by decide, by decide⟩, ⟨by decide, by decide⟩, by decide, by decide,
    fun h => absurd h (by decide)⟩, ⟨⟨rfl, rfl, rfl, rfl, rfl, rfl⟩, rfl⟩, by decide⟩

/-- The largest wait, with the lock and without. -/
theorem witness_WaitCyclesLastsAtLeastN :
    (engine.Inv ∧ engine.Ready) ∧ (held.Inv ∧ held.Ready ∧ held.lock = true) ∧
    (0xFFFF#32).toNat < 2 ^ engine.conf.cw :=
  ⟨⟨inv_engine, ready_engine⟩, ⟨inv_held, ready_held, rfl⟩, by decide⟩

theorem inv_inputs {s : State} (h : s.Inv) (rest : List Input) : State.Inv { s with inputs := rest } :=
  ⟨h.valid, ⟨h.widths.cycle, h.widths.wstart, h.widths.wn, h.widths.out⟩, ⟨h.buffer.wf, h.buffer.pixels⟩,
    h.pend, h.meter, h.wait⟩

theorem witness_LockedWaitMeasuresWithinOverhead :
    let s : State := { held with inputs :=
      [.command nowWord, .command 0x1100000000000013#64, .command nowWord] }
    s.Inv ∧ s.Ready ∧ s.lock = true ∧ (19#32).toNat < 2 ^ s.conf.cw ∧ decode nowWord = .ok .now ∧
    decode 0x1100000000000013#64 = .ok (.waitCycles 19) :=
  ⟨inv_inputs inv_held _, ⟨⟨rfl, rfl, rfl, rfl, rfl, rfl⟩, rfl⟩, rfl, by decide, by decide, by decide⟩

/-- `Wait(0)` of a send, at its entry. -/
def zeroWait : State := { inHigh with wn := 0 }

/-- The wait of a send, as late as one may be under the lock. -/
def lateWait : State :=
  { inHigh with time := 2 + inHigh.conf.waitOvh, cycle := inHigh.conf.cutCycles (2 + inHigh.conf.waitOvh) }

theorem inv_zeroWait : zeroWait.Inv :=
  ⟨by decide, ⟨by decide, by decide, by decide, by decide⟩, ⟨by decide, by decide⟩, by decide, by decide,
    fun _ => by decide⟩

theorem inv_lateWait : lateWait.Inv :=
  ⟨by decide, ⟨by decide, by decide, by decide, by decide⟩, ⟨by decide, by decide⟩, by decide, by decide,
    fun _ => by decide⟩

/-- Without the lock; with it, before `n` cycles have passed, at a `Wait(0)`, and at the limit. -/
theorem witness_PollNeverEndsAWaitEarly :
    (waiting.Inv ∧ waiting.wact = true ∧ waiting.lock = false) ∧
    (inHigh.Inv ∧ inHigh.wact = true ∧ inHigh.lock = true ∧ inHigh.time < inHigh.waitBegan + inHigh.wn.toNat) ∧
    (zeroWait.Inv ∧ zeroWait.wact = true ∧ zeroWait.lock = true ∧ zeroWait.time = zeroWait.waitBegan ∧
      zeroWait.wn.toNat = 0) ∧
    (lateWait.Inv ∧ lateWait.wact = true ∧ lateWait.lock = true ∧
      lateWait.time = lateWait.waitBegan + lateWait.wn.toNat + lateWait.conf.waitOvh) :=
  ⟨⟨inv_waiting, rfl, rfl⟩, ⟨inv_inHigh, rfl, rfl, by decide⟩, ⟨inv_zeroWait, rfl, rfl, rfl, rfl⟩, inv_lateWait, rfl,
    rfl, by decide⟩

theorem witness_RowsOfWaitsAndDelaysComplete_wait :
    held.Inv ∧ held.Ready ∧ held.lock = true ∧ (0xFFFF#32).toNat < 2 ^ held.conf.cw :=
  ⟨inv_held, ready_held, rfl, by decide⟩

theorem witness_MaskAndSizeReadTheConfiguration : engine.Inv ∧ engine.Ready := ⟨inv_engine, ready_engine⟩

/-- No pin and all pins of the port. -/
theorem witness_PinWritesChangeTheirMask :
    engine.Ready ∧ (0#32).toNat < 2 ^ engine.conf.pw ∧ (0xFF#32).toNat < 2 ^ engine.conf.pw :=
  ⟨ready_engine, by decide⟩

theorem witness_PinWritesTakeOneTime :
    engine.Ready ∧ held.Ready ∧ held.conf = engine.conf ∧ (0x20#32).toNat < 2 ^ engine.conf.pw ∧
    (∃ t, exec (.assert 0x20) engine = .next t) ∧ (∃ t, exec (.deassert 0x20) held = .next t) :=
  ⟨ready_engine, ready_held, rfl, by decide, ⟨_, rfl⟩, ⟨_, rfl⟩⟩

/-- A pin of the mask, and one the environment changes. -/
theorem witness_PinsOutsideTheMaskKeepTheirLevel :
    (∃ t, exec (.assert 0x20) engine = .next t ∧ t.out.getLsbD 5 ≠ engine.out.getLsbD 5) ∧
    (State.interlude 1 [.arise (.drive true 1)] engine).out.getLsbD 0 ≠ engine.out.getLsbD 0 :=
  ⟨⟨_, rfl, by decide⟩, by decide⟩

theorem witness_LockAndUnlockSwitchTheSection :
    (engine.Ready ∧ engine.lock = false) ∧ (held.Ready ∧ held.lock = true) :=
  ⟨⟨ready_engine, rfl⟩, ⟨ready_held, rfl⟩⟩

theorem witness_DelayLastsAtLeastItsTime : engine.Inv ∧ engine.Ready ∧ engine.lock = false :=
  ⟨inv_engine, ready_engine, rfl⟩

/-- A delay that may end at once, and one that may not. -/
theorem witness_DelayInFlightNeverEndsEarly :
    engine.wact = false ∧ (∃ t, State.engineRow { engine with drem := some ⟨0, 0⟩ } = .next t) ∧
    (∃ t, State.engineRow { engine with drem := some ⟨5, 0⟩ } = .next t) := ⟨rfl, ⟨_, rfl⟩, ⟨_, rfl⟩⟩

theorem witness_RowsOfWaitsAndDelaysComplete_delay : engine.Ready ∧ engine.lock = false := ⟨ready_engine, rfl⟩

theorem witness_CommandsKeepLockDiscipline : ∃ t, exec .lock engine = .next t := ⟨_, rfl⟩

theorem witness_EnvironmentHasNoStepUnderTheLock :
    held.lock = true ∧ held.pend.Nodup ∧
    { held with inputs := [.arise (.interrupt 0)] }.inputs = .arise (.interrupt 0) :: [] ∧
    { held with inputs := [.serve 0] }.inputs = .serve 0 :: [] := by decide

/-- Something that arises, and something served. -/
theorem witness_EnvironmentChangesNothingTheEngineOwns :
    engine.lock = false ∧ (∃ e, { engine with inputs := [.arise (.drive true 0x1F)] }.inputs = .arise e :: []) ∧
    (∃ t, step { engine with inputs := [.arise (.drive true 0x1F)] } = .next t) ∧
    (∃ t, step { engine with inputs := [.serve 0], pend := [.interrupt 7] } = .next t) :=
  ⟨rfl, ⟨_, rfl⟩, ⟨_, rfl⟩, ⟨_, rfl⟩⟩

/-- One entry for each clause: the configurator, a disjoint pin write, an interrupt, and what is served, with and
without a request there. -/
theorem witness_EnvironmentChangesNothingTheEngineOwns_effects :
    engine.lock = false ∧ (0x1F#32 : Word) &&& engine.conf.pinMask = 0 ∧
    { engine with inputs := [.arise (.configure false)] }.inputs = .arise (.configure false) :: [] ∧
    { engine with inputs := [.arise (.drive true 0x1F)] }.inputs = .arise (.drive true 0x1F) :: [] ∧
    { engine with inputs := [.arise (.interrupt 0)] }.inputs = .arise (.interrupt 0) :: [] ∧
    { engine with inputs := [.serve 0], pend := [.interrupt 7] }.pend[0]? = some (.interrupt 7) ∧
    { engine with inputs := [.serve 1], pend := [.interrupt 7] }.pend[1]? = none := by decide

/-- When it arises, and when it is served. -/
theorem witness_DrivingTheEnginesPinsIsRefused :
    engine.lock = false ∧ (0x30#32 : Word) &&& engine.conf.pinMask ≠ 0 ∧
    { engine with inputs := [.arise (.drive true 0x30)] }.inputs = .arise (.drive true 0x30) :: [] ∧
    { engine with inputs := [.serve 0], pend := [.drive true 0x30] }.pend[0]? = some (.drive true 0x30) := by decide

/-- The last pixel. -/
theorem witness_PixRdReturnsThePixel : engine.Ready ∧ (1#32).toNat < engine.conf.pixels :=
  ⟨ready_engine, by decide⟩

theorem witness_PixWrWritesExactlyThePixel :
    engine.Inv ∧ engine.Ready ∧ (1#32).toNat < engine.conf.pixels := ⟨inv_engine, ready_engine, by decide⟩

/-- The same pixel, and two different ones. -/
theorem witness_PixelRoundTripAndIndependence :
    engine.Inv ∧ engine.Ready ∧ (0#32).toNat < engine.conf.pixels ∧ (1#32).toNat < engine.conf.pixels :=
  ⟨inv_engine, ready_engine, by decide⟩

/-- The last byte of the buffer, and the first address past it. -/
theorem witness_BufResetZeroesTheBuffer :
    engine.Ready ∧ 7 < 4 * engine.conf.words ∧ 4 * engine.conf.words ≤ 8 := ⟨ready_engine, by decide⟩

/-- The last word, in each lane. -/
theorem witness_WordRdReturnsTheWord :
    engine.Ready ∧ (1#32).toNat < engine.conf.words ∧ engine.conf.lane = .be ∧
    State.Ready { engine with conf := { tiny with lane := .le } } :=
  ⟨ready_engine, by decide, rfl, ⟨⟨rfl, rfl, rfl, rfl, rfl, rfl⟩, rfl⟩⟩

theorem witness_OnlyPixWrAndBufResetWriteTheBuffer :
    ∃ t, exec .bufReset painted = .next t ∧ t.buf ≠ painted.buf := ⟨_, rfl, by decide⟩

theorem witness_SendEmitsTheFrame :
    engine.Inv ∧ engine.Ready ∧ engine.lock = false ∧ engine.cfg = true := ⟨inv_engine, ready_engine, rfl, rfl⟩

/-- With nothing for the environment to do, and with something. -/
theorem witness_SendLeavesTheEngineAtRest :
    (engine.Inv ∧ engine.Ready ∧ engine.lock = false ∧ engine.cfg = true ∧ 0 < engine.conf.words ∧
      engine.quiet = true) ∧
    State.quiet { engine with inputs := [.arise (.drive true 1)] } = false :=
  ⟨⟨inv_engine, ready_engine, rfl, rfl, by decide, rfl⟩, rfl⟩

theorem witness_RowsOfASendAgreeWithTheBigStep :
    engine.Inv ∧ engine.Ready ∧ engine.lock = false ∧ engine.cfg = true ∧ engine.quiet = true :=
  ⟨inv_engine, ready_engine, rfl, rfl, rfl⟩

/-- The first bit of the first byte, and the last bit of the last. -/
theorem witness_FrameCarriesTheBytesInLaneOrder :
    0 < 4 * painted.conf.words ∧ 7 < 4 * painted.conf.words ∧ 7 < 8 ∧ 0 < 8 := by decide

/-- In `Idle`, in `Framing`, in a bit cell, high and low, and in `ResetDelay`. -/
theorem witness_EveryStepKeepsThePhaseInvariant :
    (engine.Inv ∧ engine.PhaseOk ∧ ∃ t, step engine = .next t) ∧ engine.beginSend.PhaseOk ∧
    (inHigh.Inv ∧ inHigh.PhaseOk ∧ ∃ t, step inHigh = .next t) ∧
    State.PhaseOk { inHigh with phase := .bitLow, out := 0 } ∧
    State.PhaseOk { engine with phase := .resetDelay } := by
  refine ⟨⟨inv_engine, ⟨rfl, rfl, rfl⟩, _, rfl⟩, ⟨⟨rfl, rfl, rfl⟩, rfl, rfl, rfl, rfl⟩,
    ⟨inv_inHigh, ⟨⟨by decide, by decide, rfl, rfl⟩, rfl⟩, _, rfl⟩,
    ⟨⟨by decide, by decide, rfl, rfl⟩, rfl⟩, ⟨⟨rfl, rfl, rfl⟩, rfl, rfl, rfl⟩⟩

/-- The smallest and the largest factor. -/
theorem witness_ScaleReturnsTheScaledColour : engine.Ready ∧ (0#32).toNat < 255 ∧ (254#32).toNat < 255 :=
  ⟨ready_engine, by decide⟩

theorem witness_ScaleByZeroAndBy254 : engine.Ready := ready_engine

theorem witness_OffsetReturnsTheClampedColour : engine.Ready := ready_engine

theorem witness_EveryStepKeepsTheInvariant : inHigh.Inv ∧ ∃ t, step inHigh = .next t := ⟨inv_inHigh, _, rfl⟩

theorem witness_ResetMeetsTheInvariants : State.construct tiny = some (State.init tiny) := by decide

/-- At rest, with a wait in flight, and with a delay in flight. -/
theorem witness_EveryStepKeepsTheTraceTimed :
    (engine.Inv ∧ engine.TraceOk ∧ ∃ t, step engine = .next t) ∧
    State.TraceOk { engine with time := 9, trace := [⟨2, .wait 3⟩, ⟨5, .low 1⟩, ⟨6, .delayMs 3⟩] } ∧
    State.TraceOk { waiting with trace := [⟨0, .wait 3⟩] } ∧
    State.TraceOk { engine with time := 7, drem := some ⟨5, 4⟩, trace := [⟨2, .low 1⟩, ⟨4, .delayMs 5⟩] } :=
  ⟨⟨inv_engine, trivial, _, rfl⟩, ⟨by decide, by decide, Nat.le_refl 9⟩,
    ⟨by decide, [], rfl, trivial⟩, ⟨by decide, [⟨2, .low 1⟩], rfl, by show 2 ≤ 4; decide⟩⟩

end Sys2Proof.Tests
end

section
/-! PROOFS. The scope statements (00_scope.md): the word count, the configuration, the counter, and the order of the
trace. A property of the clock and the trace alone is kept by every step as soon as the passing of time, an event and
the begin and end of a wait and of a delay keep it. -/

namespace Sys2Proof.Machine

/-! ### What depends on the clock and the trace alone -/

/-- `t` differs from `s` neither in the configuration, the clock and the trace nor in the wait or delay in flight. -/
def State.SameTimeline (s t : State) : Prop :=
  t = { s with
    out := t.out, cfg := t.cfg, buf := t.buf, lock := t.lock, pend := t.pend
    phase := t.phase, widx := t.widx, bidx := t.bidx, kidx := t.kidx, shift := t.shift
    fault := t.fault, a := t.a, b := t.b, res := t.res
    completions := t.completions, inputs := t.inputs, draws := t.draws, meter := t.meter }

/-- An event that asks for no time before what follows it: all but `Wait` and `DelayMs` (00_scope.md R15). -/
def Event.instant (e : Event) : Prop := ∀ conf now, (Stamp.mk now e).earliestNext conf = now

/-- `A` and `B` are no part of the timeline. -/
theorem State.sameTimeline_loadOperands (s : State) (w : CommandWord) : s.SameTimeline (s.loadOperands w) := by
  unfold State.loadOperands
  split <;> rfl

/-- A property of the timeline is kept by every named operation when the six that move the timeline keep it. -/
theorem Kept.of_timeline {P : State → Prop} (congr : ∀ {s t : State}, s.SameTimeline t → P s → P t)
    (pass : ∀ (s : State) n, P s → P (s.pass n))
    (emit : ∀ (s : State) e, e.instant → s.resting → P s → P (s.emit e))
    (beginWait : ∀ (s : State) n, s.lengthOk n → s.resting → P s → P (s.beginWait n))
    (endWait : ∀ s : State, s.wact = true → s.waitOver → P s → P { s with wact := false })
    (beginDelay : ∀ (s : State) d, s.resting → P s → P (s.beginDelay d))
    (endDelay : ∀ (s : State) d, s.wact = false → s.drem = some d → d.began + s.conf.msCycles d.ms ≤ s.time →
      P s → P { s with drem := none }) : Kept P where
  setSeq _ _ _ _ _ := congr rfl
  pinSet s m _ hr h := congr (s := (s.emit (.high m)).pass s.conf.pinTime) rfl
    (pass _ _ (emit s _ (fun _ _ => rfl) hr h))
  pinClr s m _ hr h := congr (s := (s.emit (.low m)).pass s.conf.pinTime) rfl
    (pass _ _ (emit s _ (fun _ _ => rfl) hr h))
  passDraw s n h := congr (s := s.pass n) rfl (pass s n h)
  draw _ := congr rfl
  beginWait := beginWait
  endWait := endWait
  beginDelay := beginDelay
  endDelay := endDelay
  acquire s hr h := congr (s := s.emit .lock) rfl (emit s _ (fun _ _ => rfl) hr h)
  release s hr h := congr (s := s.emit .unlock) rfl (emit s _ (fun _ _ => rfl) hr h)
  loadWord _ _ _ _ := congr rfl
  writePixel _ _ _ _ := congr rfl
  clear _ := congr rfl
  setMeter _ _ _ := congr rfl
  complete _ _ _ := congr rfl
  returnValue _ _ := congr rfl
  drop _ := congr rfl
  abort s c _ hr h := congr (s := s.emit (.abort c)) rfl (emit s _ (fun _ _ => rfl) hr h)
  loadOperands s w := congr (s.sameTimeline_loadOperands w)
  setInputs _ _ := congr rfl
  setCfg _ _ := congr rfl
  otherPins _ _ _ := congr rfl
  addPend _ _ := congr rfl
  dropPend _ _ := congr rfl

/-! ### The configuration and the counter -/

/-- Nothing writes the configuration (10_state.md R40). -/
theorem Kept.conf (c : Config) : Kept (fun t => t.conf = c) :=
  .of_timeline (fun ht h => by rw [ht]; exact h) (fun _ _ h => h) (fun _ _ _ _ h => h) (fun _ _ _ _ h => h)
    (fun _ _ _ h => h) (fun _ _ _ h => h) (fun _ _ _ _ _ h => h)

/-- From `s` on `CYCLE` counts every cycle: only `pass` moves the clock (00_scope.md R14, 10_state.md R21). -/
theorem Kept.clocked {s : State} (hw : s.conf.cw ≤ 32) : Kept (fun t => t.conf = s.conf ∧ s.Clocked t) :=
  .of_timeline (fun ht h => by rw [ht]; exact h)
    (fun _ n h => ⟨h.1, h.2.trans h.1 (State.Clocked.pass (h.1 ▸ hw) n)⟩)
    (fun _ _ _ _ h => h) (fun _ _ _ _ h => h) (fun _ _ _ h => h) (fun _ _ _ h => h) (fun _ _ _ _ _ h => h)

/-! ### The length of a wait -/

/-- With a valid configuration a length a wait is given fits the counter (60_exceptions.md R268). -/
theorem State.lengthOk.lt {s : State} {n : Nat} (h : s.lengthOk n) (hv : s.conf.valid = true) :
    n < 2 ^ s.conf.cw := by
  have half : 2 ^ (s.conf.cw - 1) ≤ 2 ^ s.conf.cw := Nat.pow_le_pow_right (by omega) (Nat.sub_le _ _)
  rcases h with h | ⟨v, rfl | rfl⟩
  · exact h
  · exact Nat.lt_of_lt_of_le (Config.valid_times hv v).1 half
  · exact Nat.lt_of_lt_of_le (Config.valid_times hv v).2 half

/-- A wait in flight whose entry sample fits the counter and that is over has lasted `WN` cycles
(40_cycle_timer.md R124). -/
theorem State.waitOver.le_time {s : State} (h : s.waitOver) (hw : s.wact = true) (hcw : s.conf.cw ≤ 32)
    (hs : s.wstart.toNat < 2 ^ s.conf.cw) (hk : s.WaitOk) : s.waitBegan + s.wn.toNat ≤ s.time := by
  obtain ⟨began, count⟩ := hk hw
  rcases h with ⟨n, -, hn, hle⟩ | hdone
  · have cut : s.wn.toNat ≤ n := by rw [hn, Config.toNat_cutCycles hcw]; exact Nat.mod_le _ _
    omega
  · have diff : s.wn.toNat ≤ (s.time - s.waitBegan) % 2 ^ s.conf.cw := by
      rw [← cycleDiff_of_elapsed hs count]
      exact waitDone_iff.mp hdone
    have := Nat.mod_le (s.time - s.waitBegan) (2 ^ s.conf.cw)
    omega

/-- Time that passes leaves the count of a wait in flight right. -/
theorem State.WaitOk.pass {s : State} (h : s.WaitOk) (hcw : s.conf.cw ≤ 32) (n : Nat) : (s.pass n).WaitOk := by
  intro hw
  obtain ⟨began, count⟩ := h hw
  refine ⟨Nat.le_add_right_of_le began, ?_⟩
  simp only [State.pass_cycle, State.pass_conf, State.pass_wstart, State.pass_time, State.pass_waitBegan,
    Config.toNat_cutCycles hcw, count, Nat.mod_add_mod]
  congr 1
  omega

/-- A wait that begins has counted no cycle yet. -/
theorem State.waitOk_beginWait {s : State} (hc : s.cycle.toNat < 2 ^ s.conf.cw) (n : Nat) : (s.beginWait n).WaitOk := by
  intro _
  refine ⟨Nat.le_refl _, ?_⟩
  simp [Nat.mod_eq_of_lt hc]

/-! ### The order of the trace, by what is in flight -/

/-- A trace in order has a wait in flight, a delay, or neither. -/
theorem State.TraceOk.cases {s : State} (h : s.TraceOk) :
    s.resting ∨ (s.wact = true ∧ s.drem = none) ∨ (s.wact = false ∧ ∃ d, s.drem = some d) := by
  cases hw : s.wact <;> cases hd : s.drem
  · exact .inl ⟨hw, hd⟩
  · exact .inr (.inr ⟨rfl, _, rfl⟩)
  · exact .inr (.inl ⟨rfl, rfl⟩)
  · simp only [State.TraceOk, hw, hd] at h

theorem State.traceOk_of_resting {s : State} (h : s.resting) : s.TraceOk ↔ Timed s.conf s.trace s.time := by
  simp only [State.TraceOk, h.1, h.2]

theorem State.traceOk_of_wait {s : State} (hw : s.wact = true) (hd : s.drem = none) :
    s.TraceOk ↔ s.waitBegan ≤ s.time ∧ ∃ before,
      s.trace = before ++ [⟨s.waitBegan, .wait s.wn.toNat⟩] ∧ Timed s.conf before s.waitBegan := by
  simp only [State.TraceOk, hw, hd]

theorem State.traceOk_of_delay {s : State} {d : Delay} (hw : s.wact = false) (hd : s.drem = some d) :
    s.TraceOk ↔ d.began ≤ s.time ∧ ∃ before,
      s.trace = before ++ [⟨d.began, .delayMs d.ms⟩] ∧ Timed s.conf before d.began := by
  simp only [State.TraceOk, hw, hd]

/-- A trace in order stays so as time passes. -/
theorem State.TraceOk.pass {s : State} (h : s.TraceOk) (n : Nat) : (s.pass n).TraceOk := by
  rcases h.cases with hr | ⟨hw, hd⟩ | ⟨hw, d, hd⟩
  · rw [State.traceOk_of_resting hr] at h
    exact (State.traceOk_of_resting (s := s.pass n) hr).mpr (h.mono (Nat.le_add_right _ _))
  · obtain ⟨began, rest⟩ := (State.traceOk_of_wait hw hd).mp h
    exact (State.traceOk_of_wait (s := s.pass n) hw hd).mpr ⟨Nat.le_add_right_of_le began, rest⟩
  · obtain ⟨began, rest⟩ := (State.traceOk_of_delay hw hd).mp h
    exact (State.traceOk_of_delay (s := s.pass n) hw hd).mpr ⟨Nat.le_add_right_of_le began, rest⟩

/-- An instant event comes in order when nothing is in flight. -/
theorem State.TraceOk.emit {s : State} {e : Event} (h : s.TraceOk) (hr : s.resting) (he : e.instant) :
    (s.emit e).TraceOk := by
  rw [State.traceOk_of_resting hr] at h
  exact (State.traceOk_of_resting (s := s.emit e) hr).mpr (Timed.append h (he _ _).le)

/-- The event of a wait that begins is the last one, where its length is not cut. -/
theorem State.TraceOk.beginWait {s : State} {n : Nat} (h : s.TraceOk) (hr : s.resting) (hcw : s.conf.cw ≤ 32)
    (hn : n < 2 ^ s.conf.cw) : (s.beginWait n).TraceOk := by
  rw [State.traceOk_of_resting hr] at h
  refine (State.traceOk_of_wait (s := s.beginWait n) rfl hr.2).mpr ⟨Nat.le_refl _, s.trace, ?_, h⟩
  simp [Config.toNat_cutCycles hcw, Nat.mod_eq_of_lt hn]

/-- A wait that has lasted `WN` cycles may end. -/
theorem State.TraceOk.endWait {s : State} (h : s.TraceOk) (hw : s.wact = true)
    (hle : s.waitBegan + s.wn.toNat ≤ s.time) : State.TraceOk { s with wact := false } := by
  rcases h.cases with hr | ⟨-, hd⟩ | ⟨hw', -⟩
  · simp [hr.1] at hw
  · obtain ⟨-, before, htrace, hbefore⟩ := (State.traceOk_of_wait hw hd).mp h
    refine (State.traceOk_of_resting (s := { s with wact := false }) ⟨rfl, hd⟩).mpr ?_
    show Timed s.conf s.trace s.time
    rw [htrace]
    exact Timed.append hbefore hle
  · simp [hw'] at hw

/-- The event of a delay that begins is the last one. -/
theorem State.TraceOk.beginDelay {s : State} (h : s.TraceOk) (hr : s.resting) (d : Nat) :
    (s.beginDelay d).TraceOk := by
  rw [State.traceOk_of_resting hr] at h
  exact (State.traceOk_of_delay (s := s.beginDelay d) hr.1 rfl).mpr ⟨Nat.le_refl _, s.trace, rfl, h⟩

/-- A delay whose milliseconds have passed may end. -/
theorem State.TraceOk.endDelay {s : State} {d : Delay} (h : s.TraceOk) (hw : s.wact = false) (hd : s.drem = some d)
    (hle : d.began + s.conf.msCycles d.ms ≤ s.time) : State.TraceOk { s with drem := none } := by
  obtain ⟨-, before, htrace, hbefore⟩ := (State.traceOk_of_delay hw hd).mp h
  refine (State.traceOk_of_resting (s := { s with drem := none }) ⟨hw, rfl⟩).mpr ?_
  show Timed s.conf s.trace s.time
  rw [htrace]
  exact Timed.append hbefore hle

/-! ### The order of the trace is kept -/

/-- What a step needs of its state to keep the trace in order: the part of the invariant that lets the exit test of a
wait be read as elapsed cycles (40_cycle_timer.md R124). -/
structure State.Timeline (s : State) : Prop where
  valid : s.conf.valid = true
  cycle : s.cycle.toNat < 2 ^ s.conf.cw
  wstart : s.wstart.toNat < 2 ^ s.conf.cw
  wait : s.WaitOk
  trace : s.TraceOk

theorem State.Timeline.cw_le {s : State} (h : s.Timeline) : s.conf.cw ≤ 32 := (Config.valid_widths h.valid).2.1

theorem State.Inv.timeline {s : State} (h : s.Inv) (ht : s.TraceOk) : s.Timeline :=
  ⟨h.valid, h.widths.cycle, h.widths.wstart, h.wait, ht⟩

/-- The order of the trace, with what it leans on, is kept by every named operation. -/
theorem Kept.timeline : Kept State.Timeline :=
  .of_timeline
    (congr := fun ht h => by rw [ht]; exact ⟨h.valid, h.cycle, h.wstart, h.wait, h.trace⟩)
    (pass := fun s n h => ⟨h.valid, (State.Clocked.pass h.cw_le n).lt, h.wstart, h.wait.pass h.cw_le n,
      h.trace.pass n⟩)
    (emit := fun s e he hr h => ⟨h.valid, h.cycle, h.wstart, h.wait, h.trace.emit hr he⟩)
    (beginWait := fun s n hn hr h => ⟨h.valid, h.cycle, h.cycle, State.waitOk_beginWait h.cycle n,
      h.trace.beginWait hr h.cw_le (hn.lt h.valid)⟩)
    (endWait := fun s hw ho h => ⟨h.valid, h.cycle, h.wstart, nofun,
      h.trace.endWait hw (ho.le_time hw h.cw_le h.wstart h.wait)⟩)
    (beginDelay := fun s d hr h => ⟨h.valid, h.cycle, h.wstart, h.wait, h.trace.beginDelay hr d⟩)
    (endDelay := fun s d hw hd hle h => ⟨h.valid, h.cycle, h.wstart, h.wait, h.trace.endDelay hw hd hle⟩)

/-! ### The statements -/

/-- Settles O60: every named operation keeps the order of the trace, so every step does. -/
theorem everyStepKeepsTheTraceTimed : Obligations.EveryStepKeepsTheTraceTimed :=
  fun _ _ hi ht hs => (Kept.timeline.step (hi.timeline ht) hs).trace

/-- Settles O4: no named operation writes the configuration. -/
theorem configurationNeverChanges : Obligations.ConfigurationNeverChanges :=
  fun s _ hs => (Kept.conf s.conf).step rfl hs

/-- Settles O16: a state is clocked from itself, and every named operation keeps that. -/
theorem cycleCountsEveryCycle : Obligations.CycleCountsEveryCycle := by
  intro s t hi hs
  have hw : s.conf.cw ≤ 32 := (Config.valid_widths hi.valid).2.1
  exact ((Kept.clocked hw).step ⟨rfl, State.Clocked.refl hi.widths.cycle⟩ hs).2

/-- Settles O3: the bounds on `W` are those of the ceiling. -/
theorem paddingIsZeroToThreeBytes : Obligations.PaddingIsZeroToThreeBytes := by
  intro c
  obtain ⟨enough, least⟩ := c.words_bounds
  exact ⟨enough, least, rfl, fun noPixels => by omega⟩

end Sys2Proof.Machine
end

section
/-! PROOFS. The state statements (10_state.md): reset, the environment, the invariant of every step. -/

namespace Sys2Proof.Machine

/-! ### Words -/

/-- Setting pins of a port of `w` bits stays in the port. -/
theorem toNat_or_lt {x y : Word} {w : Nat} (hx : x.toNat < 2 ^ w) (hy : y.toNat < 2 ^ w) :
    (x ||| y).toNat < 2 ^ w := by
  rw [BitVec.toNat_or]
  exact Nat.or_lt_two_pow hx hy

/-- Clearing pins does too. -/
theorem toNat_and_lt {x : Word} {w : Nat} (hx : x.toNat < 2 ^ w) (y : Word) : (x &&& y).toNat < 2 ^ w := by
  rw [BitVec.toNat_and]
  exact Nat.lt_of_le_of_lt Nat.and_le_left hx

/-- A mask cut to `PW` bits fits the port (10_state.md R25). -/
theorem toNat_cutPins_lt (c : Config) (m : Word) : (c.cutPins m).toNat < 2 ^ c.pw := by
  rw [Config.cutPins, BitVec.toNat_ofNat]
  exact Nat.lt_of_le_of_lt (Nat.mod_le _ _) (Nat.mod_lt _ (Nat.two_pow_pos _))

/-- With a valid configuration a mask a pin write is given fits the port (60_exceptions.md R268). -/
theorem State.maskOk.lt {s : State} {m : Word} (h : s.maskOk m) (hv : s.conf.valid = true) :
    m.toNat < 2 ^ s.conf.pw := by
  rcases h with h | rfl
  · exact h
  · exact (Config.valid_pinMask hv).2

/-! ### The invariant, update by update -/

/-- `t` differs from `s` in nothing the invariant speaks of. -/
def State.SameRegisters (s t : State) : Prop :=
  t = { s with
    cfg := t.cfg, lock := t.lock, phase := t.phase, widx := t.widx, bidx := t.bidx, kidx := t.kidx
    shift := t.shift, drem := t.drem, fault := t.fault, a := t.a, b := t.b, res := t.res
    trace := t.trace, completions := t.completions, inputs := t.inputs, draws := t.draws }

theorem State.sameRegisters_loadOperands (s : State) (w : CommandWord) : s.SameRegisters (s.loadOperands w) := by
  unfold State.loadOperands
  split <;> rfl

theorem State.Inv.congr {s t : State} (ht : s.SameRegisters t) (h : s.Inv) : t.Inv := by
  obtain ⟨valid, ⟨cycle, wstart, wn, out⟩, ⟨wf, pixels⟩, pend, meter, wait⟩ := h
  rw [ht]
  exact ⟨valid, ⟨cycle, wstart, wn, out⟩, ⟨wf, pixels⟩, pend, meter, wait⟩

theorem State.Inv.cw_le {s : State} (h : s.Inv) : s.conf.cw ≤ 32 := (Config.valid_widths h.valid).2.1

/-- Time passes. -/
theorem State.Inv.pass {s : State} (h : s.Inv) (n : Nat) : (s.pass n).Inv :=
  { h with
    widths := { h.widths with cycle := (State.Clocked.pass h.cw_le n).lt }
    buffer := { h.buffer with }
    wait := h.wait.pass h.cw_le n }

/-- The latch takes a value of its width. -/
theorem State.Inv.setOut {s : State} (h : s.Inv) {o : Word} (ho : o.toNat < 2 ^ s.conf.pw) :
    State.Inv { s with out := o } :=
  { h with widths := { h.widths with out := ho }, buffer := { h.buffer with } }

/-- The buffer takes contents that are in order. -/
theorem State.Inv.setBuf {s : State} (h : s.Inv) {buf : Memory} (wf : Memory.wf buf)
    (pixels : ∀ c ∈ buf, c.1 < 3 * s.conf.pixels) : State.Inv { s with buf := buf } :=
  { h with widths := { h.widths with }, buffer := ⟨wf, pixels⟩ }

/-- `PEND` becomes another set. -/
theorem State.Inv.setPend {s : State} (h : s.Inv) {pend : List EnvStep} (hp : pend.Nodup) :
    State.Inv { s with pend := pend } :=
  { h with widths := { h.widths with }, buffer := { h.buffer with }, pend := hp }

/-- The measurement of 40_cycle_timer.md R125 has no more left than `WAIT_OVH`, or than it had. -/
theorem State.Inv.setMeter {s : State} (h : s.Inv) {m : Meter}
    (hm : m.room ≤ s.conf.waitOvh ∨ m.room ≤ s.meter.room) : State.Inv { s with meter := m } :=
  { h with
    widths := { h.widths with }, buffer := { h.buffer with }
    meter := hm.elim id (Nat.le_trans · h.meter) }

/-- A wait begins with the counter as its entry sample (40_cycle_timer.md R123). -/
theorem State.Inv.beginWait {s : State} (h : s.Inv) (n : Nat) : (s.beginWait n).Inv := by
  have wn : (s.conf.cutCycles n).toNat < 2 ^ s.conf.cw := by
    rw [Config.toNat_cutCycles h.cw_le]
    exact Nat.mod_lt _ (Nat.two_pow_pos _)
  exact { h with
    widths := { h.widths with wstart := h.widths.cycle, wn := wn }
    buffer := { h.buffer with }
    wait := State.waitOk_beginWait h.widths.cycle n }

/-- With no wait in flight there is nothing to count. -/
theorem State.Inv.endWait {s : State} (h : s.Inv) : State.Inv { s with wact := false } :=
  { h with widths := { h.widths with }, buffer := { h.buffer with }, wait := nofun }

/-- Writing a pixel keeps the buffer in canonical form and the padding zero (43_pixel_buffer.md R189). -/
theorem State.Inv.writePixel {s : State} (h : s.Inv) {i : Nat} (hi : i < s.conf.pixels) (c : Colour) :
    State.Inv { s with buf := Memory.writeBytes s.buf (3 * i) (wireBytes c) } := by
  refine h.setBuf (Memory.writeBytes_wf h.buffer.wf _ _) fun x hx => ?_
  rcases Memory.mem_writeBytes hx with ⟨-, hlt⟩ | hmem
  · simp only [wireBytes, List.length_cons, List.length_nil] at hlt
    omega
  · exact h.buffer.pixels x hmem

/-- Clearing the buffer too. -/
theorem State.Inv.clear {s : State} (h : s.Inv) (n : Nat) :
    State.Inv { s with buf := Memory.clearBelow s.buf n } :=
  h.setBuf (Memory.clearBelow_wf h.buffer.wf n) fun x hx => h.buffer.pixels x (List.mem_filter.mp hx).1

/-- `PEND` with one more request holds the request and what it held. -/
theorem mem_addRequest {pend : List EnvStep} {e x : EnvStep} : x ∈ addRequest pend e ↔ x = e ∨ x ∈ pend := by
  unfold addRequest
  split
  · next he => exact ⟨.inr, fun h => h.elim (fun hx => hx ▸ he) id⟩
  · rw [List.mem_append, List.mem_singleton, or_comm]

/-- `PEND` stays a set (10_state.md R32). -/
theorem nodup_addRequest {pend : List EnvStep} (h : pend.Nodup) (e : EnvStep) : (addRequest pend e).Nodup := by
  unfold addRequest
  split
  · exact h
  · next he =>
    rw [← List.concat_eq_append]
    exact h.concat he

/-- Another agent's pin write leaves the latch in its width (41_pin_driver.md R147). -/
theorem State.Inv.otherPins {s : State} (h : s.Inv) (high : Bool) (m : Word) : (s.otherPins high m).Inv := by
  cases high with
  | true => exact h.setOut (toNat_or_lt h.widths.out (toNat_cutPins_lt _ m))
  | false => exact h.setOut (toNat_and_lt h.widths.out _)

/-- The invariant is kept by every named operation. -/
theorem Kept.inv : Kept State.Inv where
  setSeq _ _ _ _ _ := State.Inv.congr rfl
  pinSet s m hm _ h := State.Inv.congr (s := State.pass s.conf.pinTime { s with out := s.out ||| m }) rfl
    ((h.setOut (toNat_or_lt h.widths.out (hm.lt h.valid))).pass _)
  pinClr s m _ _ h := State.Inv.congr (s := State.pass s.conf.pinTime { s with out := s.out &&& ~~~m }) rfl
    ((h.setOut (toNat_and_lt h.widths.out _)).pass _)
  passDraw s n h := State.Inv.congr (s := s.pass n) rfl (h.pass n)
  draw _ := State.Inv.congr rfl
  beginWait _ n _ _ h := h.beginWait n
  endWait _ _ _ h := h.endWait
  beginDelay _ _ _ := State.Inv.congr rfl
  endDelay _ _ _ _ _ := State.Inv.congr rfl
  acquire _ _ := State.Inv.congr rfl
  release _ _ := State.Inv.congr rfl
  loadWord _ _ _ _ := State.Inv.congr rfl
  writePixel _ _ c hi h := h.writePixel hi c
  clear _ h := h.clear _
  setMeter _ _ hm h := h.setMeter hm
  complete s m hm h := State.Inv.congr (s := { s with meter := m }) rfl (h.setMeter hm)
  returnValue s _ h := State.Inv.congr (s := { s with meter := .off }) rfl (h.setMeter (.inl (Nat.zero_le _)))
  drop _ := State.Inv.congr rfl
  abort _ _ _ _ := State.Inv.congr rfl
  loadOperands s w := State.Inv.congr (s.sameRegisters_loadOperands w)
  setInputs _ _ := State.Inv.congr rfl
  setCfg _ _ := State.Inv.congr rfl
  otherPins _ high m h := h.otherPins high m
  addPend _ e h := h.setPend (nodup_addRequest h.pend e)
  dropPend _ k h := h.setPend (h.pend.sublist (List.eraseIdx_sublist _ k))

/-- Settles O58: every named operation keeps the invariant, so every step does. -/
theorem everyStepKeepsTheInvariant : Obligations.EveryStepKeepsTheInvariant :=
  fun _ _ h hs => Kept.inv.step h hs

end Sys2Proof.Machine
end

section
/-! PROOFS. What a step is, said once, and the phase invariant (10_state.md R33 to R35): the environment and the rows of
a wait or a delay leave the position alone, each row of 44_serializer.md R210 leads to the phase it names, and a command
run whole ends where it began. -/

namespace Sys2Proof.Machine

/-! ### The cases of a step -/

/-- Everything a step can do: a row of the command in flight, a cycle with nothing to do, a command issued with nothing in
flight, or a step of the environment (20_memory.md R72, 00_scope.md R16). -/
theorem step_cases {s t : State} (h : step s = .next t) : ∃ u : State, u = { s with inputs := u.inputs } ∧
    (u.engineRow = .next t ∨ t = u ∨ t = u.drift none ∨
    (u.inFlight = false ∧ ∃ w, u.issue exec w = .next t ∨ u.issue startRow w = .next t) ∨
    (∃ e, u.arise e = .next t) ∨ ∃ k, u.serve k = .next t) := by
  unfold step at h
  split at h
  · split at h
    · exact ⟨s, rfl, .inl h⟩
    · cases h; exact ⟨s, rfl, .inr (.inr (.inl rfl))⟩
  · next w rest _ =>
    split at h
    · exact ⟨s, rfl, .inl h⟩
    · next hf =>
      exact ⟨{ s with inputs := rest }, rfl, .inr (.inr (.inr (.inl ⟨Bool.eq_false_iff.mpr hf, w, .inl h⟩)))⟩
  · next w rest _ =>
    split at h
    · exact ⟨s, rfl, .inl h⟩
    · next hf =>
      exact ⟨{ s with inputs := rest }, rfl, .inr (.inr (.inr (.inl ⟨Bool.eq_false_iff.mpr hf, w, .inr h⟩)))⟩
  · next rest _ =>
    split at h
    · exact ⟨{ s with inputs := rest }, rfl, .inl h⟩
    · cases h; exact ⟨{ s with inputs := rest }, rfl, .inr (.inl rfl)⟩
  · next e rest _ =>
    exact ⟨{ s with inputs := rest }, rfl, .inr (.inr (.inr (.inr (.inl ⟨e, h⟩))))⟩
  · next k rest _ =>
    exact ⟨{ s with inputs := rest }, rfl, .inr (.inr (.inr (.inr (.inr ⟨k, h⟩))))⟩

/-- With nothing in flight the phase is `Idle`, and neither a wait nor a delay is in flight (10_state.md R42). -/
theorem State.inFlight_eq_false {s : State} : s.inFlight = false ↔ s.phase = .idle ∧ s.resting := by
  simp [State.inFlight, State.busy, State.resting, and_assoc]

/-! ### The commands without a wait, a delay or a pin write -/

/-- The commands that take no time and move neither a pin nor the position. -/
def Instr.immediate : Instr → Bool
  | .waitCycles _ | .assert _ | .deassert _ | .delayMs _ | .send => false
  | .now | .mask | .lock | .unlock | .size | .pixRd _ | .pixWr _ _ | .bufReset | .wordRd _ | .scale _ _
  | .offset _ _ => true

/-- `t` differs from `s` at most in the buffer, the lock with its event, and the command port. -/
def State.OnlyPort (s t : State) : Prop :=
  t = { s with
    buf := t.buf, lock := t.lock, trace := t.trace, completions := t.completions
    res := t.res, draws := t.draws, meter := t.meter }

/-- The effect of a command of this kind. -/
theorem effectOf_immediate {i : Instr} {s t : State} (hi : Instr.immediate i = true) (hc : checkOf i s = none)
    (h : effectOf i s = .next t) : s.OnlyPort t := by
  cases i with
  | waitCycles n => cases hi
  | assert m => cases hi
  | deassert m => cases hi
  | delayMs d => cases hi
  | send => cases hi
  | pixRd idx =>
    rw [effectOf_pixRd (by simpa [checkOf, failIf_eq_none] using hc)] at h
    cases h; rfl
  | pixWr idx colour =>
    rw [effectOf_pixWr (by simpa [checkOf, failIf_eq_none] using hc)] at h
    cases h; rfl
  | wordRd idx =>
    rw [effectOf_wordRd (by simpa [checkOf, failIf_eq_none] using hc)] at h
    cases h; rfl
  | _ => cases h; rfl

/-! ### The phase invariant, phase by phase -/

theorem State.phaseOk_idle {s : State} (h : s.phase = .idle) : s.PhaseOk ↔ s.indicesAtStart := by
  simp only [State.PhaseOk, h]

theorem State.phaseOk_framing {s : State} (h : s.phase = .framing) :
    s.PhaseOk ↔ s.indicesAtStart ∧ s.lock = false ∧ s.wact = false ∧ s.drem = none ∧ s.pinsLow := by
  simp only [State.PhaseOk, h]

theorem State.phaseOk_bitHigh {s : State} (h : s.phase = .bitHigh) : s.PhaseOk ↔ s.InCell ∧ s.pinsHigh := by
  simp only [State.PhaseOk, h]

theorem State.phaseOk_bitLow {s : State} (h : s.phase = .bitLow) : s.PhaseOk ↔ s.InCell ∧ s.pinsLow := by
  simp only [State.PhaseOk, h]

theorem State.not_phaseOk_idleLow {s : State} (h : s.phase = .idleLow) : ¬s.PhaseOk := by
  simp only [State.PhaseOk, h, not_false_eq_true]

theorem State.phaseOk_resetDelay {s : State} (h : s.phase = .resetDelay) :
    s.PhaseOk ↔ s.indicesAtStart ∧ s.lock = false ∧ s.wact = false ∧ s.pinsLow := by
  simp only [State.PhaseOk, h]

/-- `t` is at the position of `s`, with the same word, lock and pins of the mask; a wait or a delay in flight may have
ended. -/
structure State.SamePosition (s t : State) : Prop where
  conf : t.conf = s.conf
  phase : t.phase = s.phase
  widx : t.widx = s.widx
  bidx : t.bidx = s.bidx
  kidx : t.kidx = s.kidx
  shift : t.shift = s.shift
  buf : t.buf = s.buf
  lock : t.lock = s.lock
  pins : t.out &&& s.conf.pinMask = s.out &&& s.conf.pinMask
  wact : s.wact = false → t.wact = false
  drem : s.drem = none → t.drem = none

theorem State.SamePosition.indices {s t : State} (ht : s.SamePosition t) (h : s.indicesAtStart) :
    t.indicesAtStart :=
  ⟨ht.widx.trans h.1, ht.bidx.trans h.2.1, ht.kidx.trans h.2.2⟩

theorem State.SamePosition.inCell {s t : State} (ht : s.SamePosition t) (h : s.InCell) : t.InCell where
  widx := by rw [ht.widx, ht.conf]; exact h.widx
  shift := by rw [State.wordRead_congr ht.conf ht.buf, ht.widx, ht.shift]; exact h.shift
  lock := ht.lock.trans h.lock
  drem := ht.drem h.drem

theorem State.SamePosition.pinsLow {s t : State} (ht : s.SamePosition t) (h : s.pinsLow) : t.pinsLow := by
  unfold State.pinsLow
  rw [ht.conf, ht.pins, h]

theorem State.SamePosition.pinsHigh {s t : State} (ht : s.SamePosition t) (h : s.pinsHigh) : t.pinsHigh := by
  unfold State.pinsHigh
  rw [ht.conf, ht.pins, h]

/-- What is true in a phase stays true at the same position. -/
theorem State.SamePosition.phaseOk {s t : State} (ht : s.SamePosition t) (h : s.PhaseOk) : t.PhaseOk := by
  cases hp : s.phase with
  | idle => exact (State.phaseOk_idle (ht.phase.trans hp)).mpr (ht.indices ((State.phaseOk_idle hp).mp h))
  | framing =>
    obtain ⟨indices, lock, wact, drem, low⟩ := (State.phaseOk_framing hp).mp h
    exact (State.phaseOk_framing (ht.phase.trans hp)).mpr
      ⟨ht.indices indices, ht.lock.trans lock, ht.wact wact, ht.drem drem, ht.pinsLow low⟩
  | bitHigh =>
    obtain ⟨cell, high⟩ := (State.phaseOk_bitHigh hp).mp h
    exact (State.phaseOk_bitHigh (ht.phase.trans hp)).mpr ⟨ht.inCell cell, ht.pinsHigh high⟩
  | bitLow =>
    obtain ⟨cell, low⟩ := (State.phaseOk_bitLow hp).mp h
    exact (State.phaseOk_bitLow (ht.phase.trans hp)).mpr ⟨ht.inCell cell, ht.pinsLow low⟩
  | idleLow => exact absurd h (State.not_phaseOk_idleLow hp)
  | resetDelay =>
    obtain ⟨indices, lock, wact, low⟩ := (State.phaseOk_resetDelay hp).mp h
    exact (State.phaseOk_resetDelay (ht.phase.trans hp)).mpr
      ⟨ht.indices indices, ht.lock.trans lock, ht.wact wact, ht.pinsLow low⟩

/-! ### What leaves the position alone -/

theorem State.samePosition_drift (s : State) (limit : Option Nat) : s.SamePosition (s.drift limit) :=
  ⟨rfl, rfl, rfl, rfl, rfl, rfl, rfl, rfl, rfl, id, id⟩

/-- The environment does: it owns neither the phase nor the lock nor a pin of the mask (20_memory.md R76). -/
theorem State.OnlyEnvironment.samePosition {s t : State} (h : s.OnlyEnvironment t)
    (pins : t.out &&& s.conf.pinMask = s.out &&& s.conf.pinMask) : s.SamePosition t := by
  rw [h] at pins ⊢
  exact ⟨rfl, rfl, rfl, rfl, rfl, rfl, rfl, rfl, pins, id, id⟩

/-- Everything a poll of a wait does: the clock goes on, the wait ends when the exit test holds, and a `WAITCYCLES` then
completes (40_cycle_timer.md R123). -/
theorem State.poll_spec {s : State} (hw : s.wact = true) :
    s.poll = { s with
      cycle := s.poll.cycle, time := s.poll.time, wact := s.poll.wact, completions := s.poll.completions
      res := s.poll.res, draws := s.poll.draws, meter := s.poll.meter } ∧
    s.poll.time = s.atPoll.time ∧ s.poll.cycle = s.atPoll.cycle ∧
    (s.poll.wact = false ↔ waitDone s.conf.cw s.atPoll.cycle s.wstart s.wn = true) ∧
    s.poll.completions = s.completions ++ (if s.phase = .idle ∧ s.poll.wact = false then [⟨.ok, none⟩] else []) := by
  rcases s.poll_cases with ⟨done, h⟩ | ⟨done, h⟩
  · by_cases hp : s.phase = .idle
    · rw [State.afterWait_of_idle (s := { s.atPoll with wact := false }) hp] at h
      rw [h, done, if_pos ⟨hp, rfl⟩]
      exact ⟨rfl, rfl, rfl, ⟨fun _ => rfl, fun _ => rfl⟩, rfl⟩
    · rw [State.afterWait_of_busy (s := { s.atPoll with wact := false }) hp] at h
      rw [h, done, if_neg (fun k => hp k.1), List.append_nil]
      exact ⟨rfl, rfl, rfl, ⟨fun _ => rfl, fun _ => rfl⟩, rfl⟩
  · have goes : s.atPoll.wact = true := hw
    rw [h, done, goes, if_neg (by simp), List.append_nil]
    exact ⟨congrArg (fun b => { s.atPoll with wact := b }) goes, rfl, rfl, by simp, rfl⟩

/-- Everything a look at a delay does: the clock goes on, the delay ends when its milliseconds have passed, and a
`DELAYMS` then completes (42_critical_section_delay.md R166). -/
theorem State.delayRow_spec {s : State} {d : Delay} (hd : s.drem = some d) :
    s.delayRow d = { s with
      cycle := (s.delayRow d).cycle, time := (s.delayRow d).time, drem := (s.delayRow d).drem
      completions := (s.delayRow d).completions, res := (s.delayRow d).res, draws := (s.delayRow d).draws
      meter := (s.delayRow d).meter } ∧
    (s.delayRow d).time = (s.atLook d).time ∧
    ((s.delayRow d).drem = none ∧ d.began + s.conf.msCycles d.ms ≤ (s.atLook d).time ∨
      (s.delayRow d).drem = some d ∧ (s.atLook d).time < d.began + s.conf.msCycles d.ms) ∧
    (s.delayRow d).completions =
      s.completions ++ (if s.phase = .idle ∧ (s.delayRow d).drem = none then [⟨.ok, none⟩] else []) := by
  rcases s.delayRow_cases d with ⟨past, h⟩ | ⟨early, h⟩
  · by_cases hp : s.phase = .idle
    · rw [State.afterDelay_of_idle (s := { s.atLook d with drem := none }) hp] at h
      rw [h, if_pos ⟨hp, rfl⟩]
      exact ⟨rfl, rfl, .inl ⟨rfl, past⟩, rfl⟩
    · rw [State.afterDelay_of_busy (s := { s.atLook d with drem := none }) hp] at h
      rw [h, if_neg (fun k => hp k.1), List.append_nil]
      exact ⟨rfl, rfl, .inl ⟨rfl, past⟩, rfl⟩
  · have goes : (s.atLook d).drem = some d := hd
    rw [h, goes, if_neg (by simp), List.append_nil]
    exact ⟨congrArg (fun d' => { s.atLook d with drem := d' }) goes, rfl, .inr ⟨rfl, early⟩, rfl⟩

theorem State.samePosition_poll {s : State} (hw : s.wact = true) : s.SamePosition s.poll := by
  rw [(State.poll_spec hw).1]
  exact ⟨rfl, rfl, rfl, rfl, rfl, rfl, rfl, rfl, rfl, fun h => absurd h (by simp [hw]), id⟩

theorem State.samePosition_delayRow {s : State} {d : Delay} (hd : s.drem = some d) :
    s.SamePosition (s.delayRow d) := by
  rw [(State.delayRow_spec hd).1]
  exact ⟨rfl, rfl, rfl, rfl, rfl, rfl, rfl, rfl, rfl, id, fun h => absurd h (by simp [hd])⟩

/-! ### The rows of a send (44_serializer.md R210) -/

/-- A pin write of the mask drives its pins high. -/
theorem or_and_self (x m : Word) : (x ||| m) &&& m = m := by
  ext i hi
  cases hm : m[i] <;> simp [hm]

/-- Clearing the mask drives its pins low. -/
theorem and_not_and_self (x m : Word) : (x &&& ~~~m) &&& m = 0 := by
  rw [BitVec.and_assoc]
  simp

theorem State.phaseOk_startHigh {s : State} (h : s.InCell) : s.startHigh.PhaseOk :=
  (State.phaseOk_bitHigh rfl).mpr ⟨⟨h.widx, h.shift, h.lock, h.drem⟩, or_and_self _ _⟩

theorem State.phaseOk_startLow {s : State} (h : s.InCell) : s.startLow.PhaseOk :=
  (State.phaseOk_bitLow rfl).mpr ⟨⟨h.widx, h.shift, h.lock, h.drem⟩, and_not_and_self _ _⟩

/-- The row that reads a word enters its first bit cell, under the lock. -/
theorem State.phaseOk_startWord {s t : State} {w : Nat} (hv : s.conf.valid = true) (hl : s.lock = true)
    (hd : s.drem = none) (h : s.startWord w = .next t) : t.PhaseOk := by
  unfold State.startWord at h
  split at h
  · cases h
  · next v hread =>
    have hw : w < s.conf.words := by
      by_contra hge
      rw [State.wordRead_of_ge (Nat.le_of_not_lt hge)] at hread
      cases hread
    have fits : (BitVec.ofNat 32 w).toNat = w := by
      have := Config.valid_bytes hv
      rw [BitVec.toNat_ofNat, Nat.mod_eq_of_lt]
      simp only [Config.bufBytes] at this
      omega
    rw [← Host.Outcome.next.inj h]
    refine State.phaseOk_startHigh (s := { s.loadShift w v with bidx := 0, kidx := 7 }) ⟨?_, ?_, hl, hd⟩
    · show (BitVec.ofNat 32 w).toNat < s.conf.words
      rwa [fits]
    · show s.wordRead (BitVec.ofNat 32 w).toNat = some v
      rwa [fits]

theorem State.phaseOk_endFrame {s : State} (hw : s.wact = false) : s.endFrame.PhaseOk :=
  (State.phaseOk_resetDelay rfl).mpr ⟨⟨rfl, rfl, rfl⟩, rfl, hw, and_not_and_self _ _⟩

/-- Every row of R210 leads to a phase in which what R33 to R35 say holds. -/
theorem State.PhaseOk.phaseRow {s t : State} (h : s.PhaseOk) (hv : s.conf.valid = true) (hr : s.resting)
    (ht : s.phaseRow = .next t) : t.PhaseOk := by
  cases hp : s.phase with
  | idle =>
    simp only [State.phaseRow, hp] at ht
    cases ht; exact h
  | framing =>
    simp only [State.phaseRow, hp] at ht
    split at ht
    · cases ht; exact State.phaseOk_endFrame (s := s.acquire) hr.1
    · exact State.phaseOk_startWord (s := s.acquire) hv rfl hr.2 ht
  | bitHigh =>
    simp only [State.phaseRow, hp] at ht
    cases ht; exact State.phaseOk_startLow ((State.phaseOk_bitHigh hp).mp h).1
  | bitLow =>
    obtain ⟨⟨widx, shift, lock, drem⟩, -⟩ := (State.phaseOk_bitLow hp).mp h
    simp only [State.phaseRow, hp, State.afterLow] at ht
    split at ht
    · cases ht; exact State.phaseOk_startHigh (s := { s with kidx := s.kidx - 1 }) ⟨widx, shift, lock, drem⟩
    · split at ht
      · cases ht
        exact State.phaseOk_startHigh (s := { s with bidx := s.bidx + 1, kidx := 7 }) ⟨widx, shift, lock, drem⟩
      · split at ht
        · exact State.phaseOk_startWord hv lock drem ht
        · cases ht; exact State.phaseOk_endFrame hr.1
  | idleLow => exact absurd h (State.not_phaseOk_idleLow hp)
  | resetDelay =>
    simp only [State.phaseRow, hp] at ht
    cases ht; exact (State.phaseOk_idle rfl).mpr ⟨rfl, rfl, rfl⟩

/-- Every row of the engine keeps the phase invariant. -/
theorem State.PhaseOk.engineRow {s t : State} (h : s.PhaseOk) (hv : s.conf.valid = true)
    (ht : s.engineRow = .next t) : t.PhaseOk := by
  cases hw : s.wact with
  | true =>
    rw [State.engineRow_of_wait hw] at ht
    cases ht; exact (State.samePosition_poll hw).phaseOk h
  | false =>
    cases hd : s.drem with
    | some d =>
      rw [State.engineRow_of_delay hw hd] at ht
      cases ht; exact (State.samePosition_delayRow hd).phaseOk h
    | none =>
      rw [State.engineRow_of_phase hw hd] at ht
      exact ((s.samePosition_drift none).phaseOk h).phaseRow hv ⟨hw, hd⟩ ht

/-! ### A command issued at rest -/

/-- Where a command is issued: `Idle`, the indices at the start (10_state.md R34). -/
def State.AtStart (s : State) : Prop := s.phase = .idle ∧ s.indicesAtStart

theorem State.AtStart.phaseOk {s : State} (h : s.AtStart) : s.PhaseOk := (State.phaseOk_idle h.1).mpr h.2

theorem State.OnlyPort.atStart {s t : State} (ht : s.OnlyPort t) (h : s.AtStart) : t.AtStart := by
  rw [ht]; exact h

/-- Every command run whole ends where it began: a send in `Idle`, all others without leaving it. -/
theorem State.AtStart.effectOf {i : Instr} {s t : State} (h : s.AtStart) (hc : checkOf i s = none)
    (ht : effectOf i s = .next t) : t.AtStart := by
  cases i with
  | waitCycles n => cases ht; simpa [State.AtStart, State.indicesAtStart] using h
  | assert m => cases ht; exact h
  | deassert m => cases ht; exact h
  | delayMs d => cases ht; simpa [State.AtStart, State.indicesAtStart] using h
  | send =>
    obtain ⟨u, -, -, hu⟩ := effectOf_send s
    rw [hu] at ht
    cases ht; exact ⟨rfl, rfl, rfl, rfl⟩
  | _ => exact (effectOf_immediate rfl hc ht).atStart h

theorem State.AtStart.exec {i : Instr} {s t : State} (h : s.AtStart) (ht : exec i s = .next t) : t.PhaseOk := by
  rcases exec_cases i s with ⟨-, e⟩ | ⟨-, c, e⟩ | ⟨-, -, hc, e⟩ <;> rw [e] at ht
  · cases ht; exact State.AtStart.phaseOk (s := s.drop) h
  · cases ht; exact State.AtStart.phaseOk (s := s.abort c) h
  · exact (h.effectOf hc ht).phaseOk

/-- A send that passes its checks finds the section free (44_serializer.md R202). -/
theorem State.lock_of_sendCheck {s : State} (h : s.sendCheck = none) : s.lock = false := by
  cases hl : s.lock with
  | false => rfl
  | true => simp [State.sendCheck, hl] at h

/-- The first row of a command: that of a send enters `Framing` with the lock free and the pins low. -/
theorem State.AtStart.startRow {i : Instr} {s t : State} (h : s.AtStart) (hr : s.resting)
    (ht : startRow i s = .next t) : t.PhaseOk := by
  rcases startRow_cases i s with ⟨-, e⟩ | ⟨-, c, e⟩ | ⟨-, -, hc, e⟩ <;> rw [e] at ht
  · cases ht; exact State.AtStart.phaseOk (s := s.drop) h
  · cases ht; exact State.AtStart.phaseOk (s := s.abort c) h
  · cases i with
    | waitCycles n => cases ht; exact State.AtStart.phaseOk h
    | delayMs d => cases ht; exact State.AtStart.phaseOk h
    | send =>
      cases ht
      exact (State.phaseOk_framing rfl).mpr
        ⟨⟨rfl, rfl, rfl⟩, State.lock_of_sendCheck hc, hr.1, hr.2, and_not_and_self _ _⟩
    | _ => exact (h.effectOf hc ht).phaseOk

/-- A word issued with nothing in flight, legal or not. -/
theorem State.AtStart.issue {run : Instr → State → Host.Outcome State Fault Refusal} {s t : State}
    {w : CommandWord} (hrun : ∀ i (u : State), u.AtStart → u.resting → run i u = .next t → t.PhaseOk)
    (h : s.AtStart) (hr : s.resting) (ht : s.issue run w = .next t) : t.PhaseOk := by
  unfold State.issue at ht
  split at ht
  · cases ht
    unfold State.raise
    split <;> exact State.AtStart.phaseOk h
  · refine hrun _ _ ?_ ?_ ht <;> unfold State.loadOperands <;> split
    · exact h
    · exact h
    · exact hr
    · exact hr

/-- Settles O54: by what the step was, a row of the engine, a command issued in `Idle`, or what leaves the position
alone. -/
theorem everyStepKeepsThePhaseInvariant : Obligations.EveryStepKeepsThePhaseInvariant := by
  intro s t hi hs ht
  obtain ⟨u, hu, ht⟩ := step_cases ht
  have same : s.SamePosition u := by rw [hu]; exact ⟨rfl, rfl, rfl, rfl, rfl, rfl, rfl, rfl, rfl, id, id⟩
  have hv : u.conf.valid = true := same.conf ▸ hi.valid
  have hp : u.PhaseOk := same.phaseOk hs
  rcases ht with row | rfl | rfl | ⟨idle, w, run⟩ | ⟨e, arise⟩ | ⟨k, serve⟩
  · exact hp.engineRow hv row
  · exact hp
  · exact (u.samePosition_drift none).phaseOk hp
  · obtain ⟨phase, resting⟩ := State.inFlight_eq_false.mp idle
    have start : u.AtStart := ⟨phase, (State.phaseOk_idle phase).mp hp⟩
    rcases run with run | run
    · exact start.issue (fun _ _ hu _ => hu.exec) resting run
    · exact start.issue (fun _ _ hu hr => hu.startRow hr) resting run
  · exact ((State.arise_only arise).samePosition (State.arise_pins arise)).phaseOk hp
  · exact ((State.serve_only serve).samePosition (State.serve_pins serve)).phaseOk hp

end Sys2Proof.Machine
end

section
/-! PROOFS. The state statements (10_state.md): reset, the steps of the environment, a poll of a wait, a look at a delay,
and which commands may change a pin. -/

namespace Sys2Proof.Machine

/-! ### Reset -/

/-- An engine is the initial state of a valid configuration (70_reset_and_hazards.md R300, 60_exceptions.md R268). -/
theorem State.construct_eq_some {c : Config} {s : State} :
    State.construct c = some s ↔ c.valid = true ∧ s = State.init c := by
  unfold State.construct
  split
  · next hv => exact ⟨fun h => ⟨hv, (Option.some.inj h).symm⟩, fun h => congrArg some h.2.symm⟩
  · next hv => exact ⟨nofun, fun h => absurd h.1 hv⟩

/-- Settles O1: the initial state is written out. -/
theorem resetLeavesTheStatedValues : Obligations.ResetLeavesTheStatedValues :=
  fun c hv => ⟨State.init c, State.construct_eq_some.mpr ⟨hv, rfl⟩, fun _ => rfl, rfl, rfl, rfl, rfl, rfl, rfl, rfl,
    rfl, rfl, rfl, rfl⟩

theorem State.inv_init {c : Config} (hv : c.valid = true) : (State.init c).Inv where
  valid := hv
  widths := ⟨Nat.two_pow_pos _, Nat.two_pow_pos _, Nat.two_pow_pos _, Nat.two_pow_pos _⟩
  buffer := ⟨⟨List.Pairwise.nil, nofun⟩, nofun⟩
  pend := List.nodup_nil
  meter := Nat.zero_le _
  wait := nofun

theorem State.atRest_init (c : Config) : (State.init c).AtRest := ⟨rfl, rfl, rfl, rfl, rfl, rfl⟩

/-- Settles O59: the initial state meets each invariant, and `State.reset` is that of a valid configuration. -/
theorem resetMeetsTheInvariants : Obligations.ResetMeetsTheInvariants := by
  refine ⟨fun c s hs => ?_, State.construct_eq_some.mpr ⟨by decide, rfl⟩⟩
  obtain ⟨hv, rfl⟩ := State.construct_eq_some.mp hs
  exact ⟨State.inv_init hv, State.atRest_init c, State.AtStart.phaseOk ⟨rfl, rfl, rfl, rfl⟩, trivial⟩

/-! ### A step of the environment -/

theorem step_of_arise {s : State} {e : EnvStep} {rest : List Input} (h : s.inputs = .arise e :: rest) :
    step s = State.arise e { s with inputs := rest } := by
  simp only [step, h]

theorem step_of_serve {s : State} {k : Nat} {rest : List Input} (h : s.inputs = .serve k :: rest) :
    step s = State.serve k { s with inputs := rest } := by
  simp only [step, h]

/-- With the section free what arises happens (20_memory.md R75). -/
theorem State.arise_of_free {s : State} (h : s.lock = false) (e : EnvStep) : s.arise e = s.perform e :=
  if_neg (by simp [h])

/-- With the section free a request served leaves `PEND` and is done (60_exceptions.md R276). -/
theorem State.serve_of_free {s : State} {k : Nat} {e : EnvStep} (h : s.lock = false) (hk : s.pend[k]? = some e) :
    s.serve k = State.perform e { s with pend := s.pend.eraseIdx k } := by
  simp [State.serve, h, hk]

/-- Serving a request that is not there only takes time. -/
theorem State.serve_of_none {s : State} {k : Nat} (h : s.lock = false) (hk : s.pend[k]? = none) :
    s.serve k = .next (s.drift none) := by
  simp [State.serve, h, hk]

theorem State.perform_pend {s t : State} {e : EnvStep} (h : s.perform e = .next t) : t.pend = s.pend := by
  cases e with
  | configure outputs => cases h; rfl
  | drive high m =>
    simp only [State.perform] at h
    split at h <;> cases h
    rfl
  | interrupt n => cases h; rfl

theorem State.arise_pend {s t : State} {e : EnvStep} (hl : s.lock = false) (h : s.arise e = .next t) :
    t.pend = s.pend := by
  rw [State.arise_of_free hl] at h
  exact State.perform_pend h

theorem State.serve_pend {s t : State} {k : Nat} (hl : s.lock = false) (h : s.serve k = .next t) :
    t.pend = s.pend.eraseIdx k := by
  cases hk : s.pend[k]? with
  | none =>
    rw [State.serve_of_none hl hk] at h
    cases h
    exact (List.eraseIdx_of_length_le (List.getElem?_eq_none_iff.mp hk)).symm
  | some e =>
    rw [State.serve_of_free hl hk] at h
    exact State.perform_pend h

/-- A pin write leaves a pin that is not of its mask alone (41_pin_driver.md R142, R143). -/
theorem getLsbD_or_of_false (x : Word) {m : Word} {p : Nat} (hm : m.getLsbD p = false) :
    (x ||| m).getLsbD p = x.getLsbD p := by
  rw [BitVec.getLsbD_or, hm, Bool.or_false]

theorem getLsbD_and_not_of_false (x : Word) {m : Word} {p : Nat} (hm : m.getLsbD p = false) :
    (x &&& ~~~m).getLsbD p = x.getLsbD p := by
  rw [BitVec.getLsbD_and, BitVec.getLsbD_not, hm, Bool.not_false, Bool.and_true]
  by_cases hp : p < 32
  · rw [decide_eq_true hp, Bool.and_true]
  · rw [BitVec.getLsbD_of_ge x p (Nat.le_of_not_lt hp), Bool.false_and]

/-- A bit of a mask cut to `PW` bits (10_state.md R25). -/
theorem getLsbD_cutPins (c : Config) (m : Word) {p : Nat} (hp : p < 32) :
    (c.cutPins m).getLsbD p = (decide (p < c.pw) && m.getLsbD p) := by
  rw [Config.cutPins, BitVec.getLsbD_ofNat, decide_eq_true hp, Bool.true_and, Nat.testBit_mod_two_pow,
    BitVec.testBit_toNat]

/-- Another agent's pin write sets or clears exactly its pins below `PW` (41_pin_driver.md R147). -/
theorem State.getLsbD_otherPins (s : State) (high : Bool) (m : Word) {p : Nat} (hp : p < 32) :
    (s.otherPins high m).out.getLsbD p =
      if m.getLsbD p = true ∧ p < s.conf.pw then high else s.out.getLsbD p := by
  rw [State.otherPins_out]
  by_cases hm : m.getLsbD p = true ∧ p < s.conf.pw
  · have cut : (s.conf.cutPins m).getLsbD p = true := by simp [getLsbD_cutPins _ _ hp, hm]
    rw [if_pos hm]
    cases high <;> simp [cut]
  · have cut : (s.conf.cutPins m).getLsbD p = false := by
      rw [getLsbD_cutPins _ _ hp, Bool.and_eq_false_iff]
      simpa [imp_iff_or_not, or_comm] using hm
    rw [if_neg hm]
    cases high
    · exact getLsbD_and_not_of_false s.out cut
    · exact getLsbD_or_of_false s.out cut

/-- Settles O41: under the lock what arises joins `PEND`, and nothing is served. -/
theorem environmentHasNoStepUnderTheLock : Obligations.EnvironmentHasNoStepUnderTheLock := by
  intro s rest hl
  refine ⟨fun e hin => ?_, fun k hin => ?_⟩
  · rw [step_of_arise hin, State.arise_of_locked (s := { s with inputs := rest }) hl]
    exact ⟨_, rfl, rfl, fun _ => mem_addRequest, fun h => nodup_addRequest h e⟩
  · rw [step_of_serve hin, State.serve_of_locked (s := { s with inputs := rest }) hl]

/-- What a step of the environment leaves alone, its entry being taken out of `inputs`. -/
theorem State.OnlyEnvironment.of_inputs {s t : State} {rest : List Input}
    (h : State.OnlyEnvironment { s with inputs := rest } t) (hi : t.inputs = rest) :
    t = { s with
      inputs := rest, cfg := t.cfg, out := t.out, pend := t.pend
      cycle := t.cycle, time := t.time, draws := t.draws } := by
  conv_lhs => rw [h, hi]

/-- The frame of what arises with the section free. -/
theorem step_arise_frame {s t : State} {e : EnvStep} {rest : List Input} (hl : s.lock = false)
    (hin : s.inputs = .arise e :: rest) (ht : step s = .next t) :
    t = { s with
      inputs := rest, cfg := t.cfg, out := t.out, pend := t.pend
      cycle := t.cycle, time := t.time, draws := t.draws } ∧
    s.time ≤ t.time ∧ t.out &&& s.conf.pinMask = s.out &&& s.conf.pinMask ∧ t.pend = s.pend := by
  rw [step_of_arise hin] at ht
  exact ⟨(State.arise_only ht).of_inputs (State.arise_inputs ht),
    State.arise_mono (s := { s with inputs := rest }) ht, State.arise_pins (s := { s with inputs := rest }) ht,
    State.arise_pend (s := { s with inputs := rest }) hl ht⟩

/-- The frame of what is served with the section free. -/
theorem step_serve_frame {s t : State} {k : Nat} {rest : List Input} (hl : s.lock = false)
    (hin : s.inputs = .serve k :: rest) (ht : step s = .next t) :
    t = { s with
      inputs := rest, cfg := t.cfg, out := t.out, pend := t.pend
      cycle := t.cycle, time := t.time, draws := t.draws } ∧
    s.time ≤ t.time ∧ t.out &&& s.conf.pinMask = s.out &&& s.conf.pinMask ∧ t.pend = s.pend.eraseIdx k := by
  rw [step_of_serve hin] at ht
  exact ⟨(State.serve_only ht).of_inputs (State.serve_inputs ht),
    State.serve_mono (s := { s with inputs := rest }) ht, State.serve_pins (s := { s with inputs := rest }) ht,
    State.serve_pend (s := { s with inputs := rest }) hl ht⟩

/-- Settles O42: what it leaves alone, by what an entry of the environment does; what it does, entry by entry. -/
theorem environmentChangesNothingTheEngineOwns : Obligations.EnvironmentChangesNothingTheEngineOwns := by
  refine ⟨fun s t rest hin hl ht => ?_, fun s rest hl => ⟨fun b hin => ?_, fun high m hin hm => ?_, fun n hin => ?_,
    fun k e hin hk => ?_, fun k hin hk => ?_⟩⟩
  · rcases hin with ⟨e, hin⟩ | ⟨k, hin⟩
    · obtain ⟨frame, later, pins, pend⟩ := step_arise_frame hl hin ht
      exact ⟨frame, later, pins, fun k hk => absurd (hin.symm.trans hk) nofun, fun _ _ => pend⟩
    · obtain ⟨frame, later, pins, pend⟩ := step_serve_frame hl hin ht
      exact ⟨frame, later, pins, fun j hj => (by cases hin.symm.trans hj; exact pend),
        fun e he => absurd (hin.symm.trans he) nofun⟩
  · rw [step_of_arise hin, State.arise_of_free (s := { s with inputs := rest }) hl]
    exact ⟨_, rfl, rfl, rfl⟩
  · rw [step_of_arise hin, State.arise_of_free (s := { s with inputs := rest }) hl]
    exact ⟨_, if_pos hm, rfl, fun p hp => s.getLsbD_otherPins high m hp⟩
  · rw [step_of_arise hin, State.arise_of_free (s := { s with inputs := rest }) hl]
    exact ⟨_, rfl, rfl, rfl⟩
  · rw [step_of_serve hin, State.serve_of_free (s := { s with inputs := rest }) hl hk, step_of_arise rfl]
    exact (State.arise_of_free (s := { s with inputs := rest, pend := s.pend.eraseIdx k }) hl e).symm
  · rw [step_of_serve hin, State.serve_of_none (s := { s with inputs := rest }) hl hk]
    exact ⟨_, rfl, rfl, rfl, rfl⟩

/-! ### A poll of a wait -/

/-- The limit on the wait in flight: none with the section free, at most `WAIT_OVH` under the lock
(40_cycle_timer.md R125). -/
theorem State.pollRoom_of_free {s : State} (h : s.lock = false) : s.pollRoom = none := by
  simp [State.pollRoom, State.commandRoom, State.waitRoom, h]

theorem State.pollRoom_of_locked {s : State} (h : s.lock = true) (hm : s.meter.room ≤ s.conf.waitOvh) :
    ∃ room, s.pollRoom = some room ∧ room ≤ s.conf.waitOvh := by
  unfold State.pollRoom
  split
  · cases e : s.meter with
    | off => exact ⟨s.conf.waitOvh, by simp [State.commandRoom, h, e], Nat.le_refl _⟩
    | afterNow room => exact ⟨room, by simp [State.commandRoom, h, e], by simpa [e, Meter.room] using hm⟩
    | afterWait room => exact ⟨s.conf.waitOvh, by simp [State.commandRoom, h, e], Nat.le_refl _⟩
  · exact ⟨s.conf.waitOvh, by simp [State.waitRoom, h], Nat.le_refl _⟩

/-- Settles O31: a poll counts on from the entry sample, so the exit test, where it holds, says that `n` cycles have
passed; the instant of the poll is bounded by the limit on the wait. -/
theorem pollNeverEndsAWaitEarly : Obligations.PollNeverEndsAWaitEarly := by
  intro s hi hw
  have began : s.waitBegan ≤ s.time := (hi.wait hw).1
  have counting : s.atPoll.WaitOk := hi.wait.pass hi.cw_le (s.pollAt - (s.time - s.waitBegan))
  obtain ⟨frame, time, cycle, ends, completes⟩ := State.poll_spec hw
  obtain ⟨free, locked, within⟩ := s.pollAt_spec
  have gap : s.atPoll.time = s.time + (s.pollAt - (s.time - s.waitBegan)) := rfl
  refine ⟨s.poll, State.engineRow_of_wait hw, by omega, ?_, ?_, fun ended => ?_, fun hl => ?_, fun hl before => ?_,
    fun hl inside => ?_, completes, frame⟩
  · rw [cycle, time]
    exact (counting hw).2
  · rw [cycle]
    exact ends
  · rw [time]
    exact State.waitOver.le_time (s := s.atPoll) (.inr (ends.mp ended)) hw hi.cw_le hi.widths.wstart counting
  · have := free (State.pollRoom_of_free hl)
    omega
  · obtain ⟨room, hroom, -⟩ := State.pollRoom_of_locked hl hi.meter
    have := (locked room hroom (by omega) hi.widths.wn).1
    omega
  · obtain ⟨room, hroom, hle⟩ := State.pollRoom_of_locked hl hi.meter
    have := within room hroom
    omega

/-! ### A look at a delay -/

/-- Settles O39: a look ends the delay when its milliseconds have passed and takes time when they have not. -/
theorem delayInFlightNeverEndsEarly : Obligations.DelayInFlightNeverEndsEarly := by
  intro s d hw hd
  obtain ⟨frame, time, ends, completes⟩ := State.delayRow_spec hd
  obtain ⟨later, ticks⟩ := s.atLook_time d
  refine ⟨s.delayRow d, State.engineRow_of_delay hw hd, by omega, ends.imp And.left And.left, fun ended => ?_,
    fun goes => ?_, completes, frame⟩
  · rcases ends with ⟨-, past⟩ | ⟨goes, -⟩
    · have := s.conf.msCycles_spec d.ms
      omega
    · rw [ended] at goes
      cases goes
  · rcases ends with ⟨ended, -⟩ | ⟨-, early⟩
    · exact absurd ended goes
    · have := ticks (by omega)
      omega

/-! ### Which commands may change a pin -/

/-- Latches that agree on a mask agree on its pins. -/
theorem getLsbD_eq_of_and_eq {x y m : Word} {p : Nat} (h : x &&& m = y &&& m) (hp : m.getLsbD p = true) :
    x.getLsbD p = y.getLsbD p := by
  have bit := congrArg (·.getLsbD p) h
  simpa [hp] using bit

/-- A pin that the environment changes while a command waits: the section is free, it has something to do, and the pin is
not of the mask (20_memory.md R75, R76). -/
theorem State.pin_of_environment {s : State} {p : Nat} (h : s.environment.out.getLsbD p ≠ s.out.getLsbD p) :
    s.lock = false ∧ s.quiet = false ∧ s.conf.pinMask.getLsbD p = false := by
  refine ⟨Bool.eq_false_iff.mpr fun hl => h ?_, Bool.eq_false_iff.mpr fun hq => h ?_,
    Bool.eq_false_iff.mpr fun hp => h (getLsbD_eq_of_and_eq s.environment_pins hp)⟩
  · rw [State.environment_of_locked hl]
  · rw [State.environment_of_quiet hq]

/-- Settles O36: the latch changes by the pin writes of `ASSERT`, `DEASSERT` and `SEND`, and by what the environment does
while a wait, a delay or a send leaves the section free. -/
theorem pinsOutsideTheMaskKeepTheirLevel : Obligations.PinsOutsideTheMaskKeepTheirLevel := by
  intro i s t p ht hne
  rcases exec_cases i s with ⟨-, e⟩ | ⟨-, c, e⟩ | ⟨-, -, hc, e⟩ <;> rw [e] at ht
  · cases ht; exact absurd rfl hne
  · cases ht; exact absurd rfl hne
  · cases i with
    | waitCycles n =>
      cases ht
      exact .inr (.inr ⟨.inr (.inl ⟨n, rfl⟩), State.pin_of_environment (s := s.beginWait n.toNat) hne⟩)
    | delayMs d =>
      cases ht
      exact .inr (.inr ⟨.inr (.inr ⟨d, rfl⟩), State.pin_of_environment (s := s.beginDelay d.toNat) hne⟩)
    | assert m =>
      cases ht
      exact .inl ⟨m, .inl rfl, Bool.of_not_eq_false fun hm => hne (getLsbD_or_of_false s.out hm)⟩
    | deassert m =>
      cases ht
      exact .inl ⟨m, .inr rfl, Bool.of_not_eq_false fun hm => hne (getLsbD_and_not_of_false s.out hm)⟩
    | send =>
      obtain ⟨u, hu, -, eff⟩ := effectOf_send s
      rw [eff] at ht
      cases ht
      cases hp : s.conf.pinMask.getLsbD p with
      | true => exact .inr (.inl ⟨rfl, rfl⟩)
      | false =>
        refine .inr (.inr ⟨.inl rfl, State.lock_of_sendCheck hc, Bool.eq_false_iff.mpr fun hq => hne ?_, rfl⟩)
        obtain ⟨-, out, -⟩ := (State.environmentActedInSend hu).of_quiet hq
        rw [out, getLsbD_and_not_of_false s.out hp]
    | _ =>
      have only := effectOf_immediate rfl hc ht
      exact absurd (by rw [only]) hne

end Sys2Proof.Machine
end

section
/-! PROOFS. The memory statements (20_memory.md): the pins of the engine, the issuer that waits while a command is in
flight, who writes the buffer, the bytes a frame carries, two reads of the counter, and the state after a send. -/

namespace Sys2Proof.Machine

/-! ### A pin of the engine driven by another agent -/

/-- Settles O43: with the section free both entries perform the write. -/
theorem drivingTheEnginesPinsIsRefused : Obligations.DrivingTheEnginesPinsIsRefused := by
  intro s high m rest hl hm
  refine ⟨fun hin => ?_, fun k hin hk => ?_⟩
  · rw [step_of_arise hin, State.arise_of_free (s := { s with inputs := rest }) hl]
    exact if_neg hm
  · rw [step_of_serve hin, State.serve_of_free (s := { s with inputs := rest }) hl hk]
    exact if_neg hm

/-! ### The rows of a command in flight take nothing from the issuer -/

theorem State.startWord_inputs {s t : State} {w : Nat} (h : s.startWord w = .next t) : t.inputs = s.inputs := by
  unfold State.startWord at h
  split at h <;> cases h
  rfl

/-- Every row of 44_serializer.md R210 leaves what is listed alone. -/
theorem State.phaseRow_inputs {s t : State} (h : s.phaseRow = .next t) : t.inputs = s.inputs := by
  cases hp : s.phase <;> simp only [State.phaseRow, hp] at h
  case idle => cases h; rfl
  case framing =>
    split at h
    · cases h; rfl
    · exact State.startWord_inputs (s := s.acquire) h
  case bitHigh => cases h; rfl
  case bitLow =>
    unfold State.afterLow at h
    split at h
    · cases h; rfl
    · split at h
      · cases h; rfl
      · split at h
        · exact State.startWord_inputs h
        · cases h; rfl
  case idleLow => cases h; rfl
  case resetDelay => cases h; rfl

/-- So does a row of the engine: a poll, a look at a delay, or a row of the phase. -/
theorem State.engineRow_inputs {s t : State} (h : s.engineRow = .next t) : t.inputs = s.inputs := by
  cases hw : s.wact with
  | true =>
    rw [State.engineRow_of_wait hw] at h
    cases h
    rw [(State.poll_spec hw).1]
  | false =>
    cases hd : s.drem with
    | some d =>
      rw [State.engineRow_of_delay hw hd] at h
      cases h
      rw [(State.delayRow_spec hd).1]
    | none =>
      rw [State.engineRow_of_phase hw hd] at h
      exact State.phaseRow_inputs (s := s.drift none) h

/-- With a command in flight the engine has the step, the issuer's word coming next (20_memory.md R72). -/
theorem step_of_inFlight {s : State} {w : CommandWord} {rest : List Input}
    (hin : s.inputs = .command w :: rest ∨ s.inputs = .start w :: rest) (hf : s.inFlight = true) :
    step s = s.engineRow := by
  rcases hin with hin | hin <;> simp only [step, hin, hf, if_true]

/-- Settles O14: the step is a row of the engine. -/
theorem issuerWaitsForTheCommandInFlight : Obligations.IssuerWaitsForTheCommandInFlight := by
  intro s t w rest hin hf ht
  rw [step_of_inFlight hin hf] at ht
  exact State.engineRow_inputs ht

/-! ### Who writes the buffer -/

/-- The effect of a command that is neither `BUFRESET` nor `PIXWR`; a send only reads (20_memory.md R61). -/
theorem effectOf_buf {i : Instr} {s t : State} (hr : i ≠ .bufReset) (hw : ∀ k c, i ≠ .pixWr k c)
    (hc : checkOf i s = none) (h : effectOf i s = .next t) : t.buf = s.buf := by
  cases i with
  | bufReset => exact absurd rfl hr
  | pixWr k c => exact absurd rfl (hw k c)
  | waitCycles n => cases h; exact State.wait_buf s n.toNat s.commandRoom
  | delayMs d => cases h; exact State.delay_buf s d.toNat
  | send =>
    obtain ⟨u, -, sent, eff⟩ := effectOf_send s
    obtain ⟨-, -, buf, -⟩ := s.openFrame_spec
    rw [eff] at h
    cases h
    exact (State.delay_buf _ _).trans (sent.buf.trans buf)
  | pixRd k =>
    rw [effectOf_pixRd (by simpa [checkOf, failIf_eq_none] using hc)] at h
    cases h; rfl
  | wordRd k =>
    rw [effectOf_wordRd (by simpa [checkOf, failIf_eq_none] using hc)] at h
    cases h; rfl
  | _ => cases h; rfl

/-- Settles O49: an abort leaves the buffer alone, and so does the effect of every other command. -/
theorem onlyPixWrAndBufResetWriteTheBuffer : Obligations.OnlyPixWrAndBufResetWriteTheBuffer := by
  intro i s t ht hne
  by_contra other
  obtain ⟨hr, hw⟩ := not_or.mp other
  refine hne ?_
  rcases exec_cases i s with ⟨-, e⟩ | ⟨-, c, e⟩ | ⟨-, -, hc, e⟩ <;> rw [e] at ht
  · cases ht; rfl
  · cases ht; rfl
  · exact effectOf_buf hr (fun k c hi => hw ⟨k, c, hi⟩) hc ht

/-! ### The bytes a frame carries -/

/-- Byte `r` of a word, byte 0 being bits 31..24, is byte `r` of the four in address order, or the one opposite to it
(20_memory.md R63, R64). -/
theorem getLsbD_assembleWord (lane : Lane) (b : Nat → Byte) {r k : Nat} (hr : r < 4) (hk : k < 8) :
    (assembleWord lane (b 0) (b 1) (b 2) (b 3)).getLsbD (24 - 8 * r + k) =
      (b (if lane = .be then r else 3 - r)).getLsbD k := by
  cases lane with
  | be =>
    obtain ⟨first, second, third, fourth⟩ := getLsbD_bytes (b 0) (b 1) (b 2) (b 3) hk
    interval_cases r
    · exact first
    · exact second
    · exact third
    · simpa [assembleWord] using fourth
  | le =>
    obtain ⟨first, second, third, fourth⟩ := getLsbD_bytes (b 3) (b 2) (b 1) (b 0) hk
    interval_cases r
    · exact first
    · exact second
    · exact third
    · simpa [assembleWord] using fourth

/-- Bit `8 * r + (7 - k)` of word `j` of the frame is bit `k` of byte `r` of the word (44_serializer.md R209). -/
theorem State.frameBit_of_lt {s : State} {j r k : Nat} (hj : j < s.conf.words) (hr : r < 4) (hk : k < 8) :
    s.frameBit (8 * (4 * j + r) + (7 - k)) =
      (Memory.read s.buf (4 * j + if s.conf.lane = .be then r else 3 - r)).getLsbD k := by
  have word : (8 * (4 * j + r) + (7 - k)) / 32 = j := by omega
  have bit : 31 - (8 * (4 * j + r) + (7 - k)) % 32 = 24 - 8 * r + k := by omega
  rw [State.frameBit, word, bit, State.wordRead_of_lt hj]
  exact getLsbD_assembleWord s.conf.lane (fun n => Memory.read s.buf (4 * j + n)) hr hk

/-- Settles O53: address `addr` is byte `addr % 4` of word `addr / 4`. -/
theorem frameCarriesTheBytesInLaneOrder : Obligations.FrameCarriesTheBytesInLaneOrder := by
  intro s addr k ha hk
  have bit := s.frameBit_of_lt (j := addr / 4) (r := addr % 4) (by omega) (by omega) hk
  rw [Nat.div_add_mod] at bit
  rw [bit]
  cases s.conf.lane with
  | be => rw [if_pos rfl, Nat.div_add_mod]
  | le => rw [if_neg nofun, Nat.mul_comm 4]

/-! ### Two reads of the counter -/

theorem State.loadOperands_of_no_fault {s : State} (h : s.fault = none) (w : CommandWord) :
    s.loadOperands w = { s with a := aField w, b := bField w } := if_pos h

/-- The word of a legal command issued with nothing in flight (30_encoding.md R104). -/
theorem step_of_command {s : State} {w : CommandWord} {rest : List Input} {i : Instr}
    (hin : s.inputs = .command w :: rest) (hf : s.inFlight = false) (hd : decode w = .ok i) :
    step s = exec i ((State.commandGap i { s with inputs := rest }).loadOperands w) := by
  simp [step, hin, hf, State.issue, hd]

/-- The time before a command that no measurement limits is at least a cycle (20_memory.md R69). -/
theorem State.lt_commandGap_time {s : State} {i : Instr} (h : s.meter.limit i = none) :
    s.time < (s.commandGap i).time := by
  have gap : (s.commandGap i).time = s.time + bounded (s.meter.limit i) (1 + Config.freeCycles s.draws) := rfl
  rw [gap, h, bounded]
  omega

/-- A `NOW` begins a measurement that limits no `NOW` (40_cycle_timer.md R125). -/
theorem State.startMeter_limit_now (s : State) : s.startMeter.meter.limit .now = none := by
  rw [State.startMeter_meter]
  cases s.lock <;> rfl

/-- A `NOW` issued at rest: it returns the counter, and the next command is issued at rest again; it takes time unless a
measurement limits that. -/
theorem step_of_now {s : State} {w : CommandWord} {rest : List Input} (hr : s.Ready) (hd : decode w = .ok .now)
    (hin : s.inputs = .command w :: rest) :
    ∃ t, step s = .next t ∧ t.Ready ∧ t.inputs = rest ∧ t.res = t.cycle ∧
      t.meter.limit .now = none ∧ (s.meter.limit .now = none → s.time < t.time) := by
  obtain ⟨⟨phase, widx, bidx, kidx, wact, drem⟩, fault⟩ := hr
  have ready : State.Ready { State.commandGap .now { s with inputs := rest } with a := aField w, b := bField w } :=
    ⟨⟨phase, widx, bidx, kidx, wact, drem⟩, fault⟩
  rw [step_of_command hin (State.inFlight_eq_false.mpr ⟨phase, wact, drem⟩) hd,
    State.loadOperands_of_no_fault (s := State.commandGap .now { s with inputs := rest }) fault,
    exec_of_ready ready rfl]
  exact ⟨_, rfl, ⟨⟨phase, widx, bidx, kidx, wact, drem⟩, fault⟩, rfl, rfl, State.startMeter_limit_now _,
    State.lt_commandGap_time (s := { s with inputs := rest })⟩

/-- A counter of modulus `m` that has gone on by fewer than `m` cycles, but by some, shows another value. -/
theorem add_mod_ne_of_lt {m c n : Nat} (hc : c < m) (pos : 0 < n) (hn : n < m) : (c + n) % m ≠ c := by
  rcases Nat.lt_or_ge (c + n) m with below | round
  · rw [Nat.mod_eq_of_lt below]
    omega
  · rw [Nat.mod_eq_sub_mod round, Nat.mod_eq_of_lt (by omega)]
    omega

/-- Settles O28: both reads are the counter after their step, and the second step counts at least a cycle. -/
theorem twoReadsOfTheCounterDiffer : Obligations.TwoReadsOfTheCounterDiffer := by
  intro s w1 w2 rest hi hr hd1 hd2 hin
  obtain ⟨s1, step1, ready, inputs, res1, unlimited, -⟩ := step_of_now hr hd1 hin
  obtain ⟨s2, step2, -, -, res2, -, later⟩ := step_of_now ready hd2 inputs
  have inv1 : s1.Inv := Kept.inv.step hi step1
  have lt : s1.time < s2.time := later unlimited
  have conf : s1.conf = s.conf := (Kept.conf s.conf).step rfl step1
  have fits : s1.cycle.toNat < 2 ^ s.conf.cw := conf ▸ inv1.widths.cycle
  have count : s2.cycle.toNat = (s1.cycle.toNat + (s2.time - s1.time)) % 2 ^ s.conf.cw :=
    conf ▸ (cycleCountsEveryCycle s1 s2 inv1 step2).2
  rw [← res1] at fits
  rw [← res1, ← res2] at count
  refine ⟨s1, s2, step1, step2, lt, count, fun few same => ?_⟩
  rw [same] at count
  exact add_mod_ne_of_lt fits (Nat.sub_pos_of_lt lt) few count.symm

/-! ### The state after a send -/

/-- `t` differs from `s` at most in what a send changes, its completion apart: neither the configuration nor the buffer,
nor the fault, the operands, the result and the measurement (44_serializer.md R216). -/
def State.OnlySent (s t : State) : Prop :=
  t = { s with
    cycle := t.cycle, out := t.out, cfg := t.cfg, lock := t.lock, pend := t.pend
    phase := t.phase, widx := t.widx, bidx := t.bidx, kidx := t.kidx, shift := t.shift
    wact := t.wact, wstart := t.wstart, wn := t.wn, drem := t.drem, waitBegan := t.waitBegan
    time := t.time, trace := t.trace, inputs := t.inputs, draws := t.draws }

theorem State.OnlySent.trans {s t u : State} (h : s.OnlySent t) (k : t.OnlySent u) : s.OnlySent u := by
  unfold State.OnlySent at *
  rw [k, h]

theorem State.OnlySent.conf {s t : State} (h : s.OnlySent t) : t.conf = s.conf := by rw [h]
theorem State.OnlySent.buf {s t : State} (h : s.OnlySent t) : t.buf = s.buf := by rw [h]
theorem State.OnlySent.fault {s t : State} (h : s.OnlySent t) : t.fault = s.fault := by rw [h]

/-- Between two states at rest with the same lock the position and what is in flight do not differ. -/
theorem State.OnlySent.of_atRest {s t : State} (h : s.OnlySent t) (hs : s.AtRest) (ht : t.AtRest)
    (hl : t.lock = s.lock) :
    t = { s with
      cycle := t.cycle, out := t.out, cfg := t.cfg, pend := t.pend, shift := t.shift
      wstart := t.wstart, wn := t.wn, waitBegan := t.waitBegan
      time := t.time, trace := t.trace, inputs := t.inputs, draws := t.draws } := by
  unfold State.OnlySent at h
  rwa [hl, ht.phase.trans hs.phase.symm, ht.widx.trans hs.widx.symm, ht.bidx.trans hs.bidx.symm,
    ht.kidx.trans hs.kidx.symm, ht.wact.trans hs.wact.symm, ht.drem.trans hs.drem.symm] at h

theorem State.OnlyEnvironment.onlySent {s t : State} (h : s.OnlyEnvironment t) : s.OnlySent t := by
  unfold State.OnlySent
  rw [h]

theorem State.OnlySends.onlySent {s t : State} (h : s.OnlySends t) : s.OnlySent t := by
  unfold State.OnlySent
  rw [h]

theorem State.onlySent_openFrame (s : State) : s.OnlySent s.openFrame := by
  have begun : s.OnlySent s.beginSend := rfl
  have acted : s.OnlySent s.beginSend.environment := begun.trans s.beginSend.environment_only.onlySent
  exact acted.trans (u := s.openFrame) rfl

theorem State.onlySent_closeFrame (s : State) : s.OnlySent s.closeFrame := by
  have delayed : s.OnlySent (s.lowAndRelease.beginDelay s.conf.resetMs) := rfl
  have acted := delayed.trans (State.environment_only _).onlySent
  exact acted.trans (u := s.closeFrame) rfl

/-- After a send nothing is in flight. -/
theorem State.atRest_closeFrame {s : State} (h : s.resting) : s.closeFrame.AtRest :=
  ⟨rfl, rfl, rfl, rfl, (s.lowAndRelease.delay_wact _).trans h.1, s.lowAndRelease.delay_drem s.conf.resetMs⟩

/-- The pins of the mask are low: step 4 clears them, and the environment leaves them alone (20_memory.md R76). -/
theorem State.pinsLow_closeFrame (s : State) : s.closeFrame.pinsLow := by
  have low : (s.lowAndRelease.beginDelay s.conf.resetMs).out &&& s.conf.pinMask = 0 := and_not_and_self _ _
  have acted := (s.lowAndRelease.beginDelay s.conf.resetMs).environment_pins.trans low
  have conf : s.closeFrame.conf = s.conf := State.delay_conf _ _
  unfold State.pinsLow
  rw [conf]
  exact acted

/-- The frame of a send is told by the configuration and the buffer. -/
theorem State.frame_congr {s t : State} (hc : t.conf = s.conf) (hb : t.buf = s.buf) : t.frame = s.frame := by
  have bit : t.frameBit = s.frameBit := by
    funext q
    rw [State.frameBit, State.frameBit, State.wordRead_congr hc hb]
  rw [State.frame, State.frame, bit, hc]

/-- A send that passes its checks takes effect. -/
theorem exec_send {s : State} (hr : s.Ready) (hl : s.lock = false) (hcfg : s.cfg = true) :
    exec .send s = effectOf .send s :=
  exec_of_ready hr (by simp [checkOf, State.sendCheck, hl, hcfg])

/-- What the words of a send leave: nothing in flight, and the last of them in `SHIFT`. -/
theorem State.emitWords_openFrame {s u : State} (hr : s.resting)
    (hu : State.emitWords s.conf.words 0 s.openFrame = .next u) :
    u.resting ∧ (0 < s.conf.words → s.wordRead (s.conf.words - 1) = some u.shift) := by
  obtain ⟨lock, conf, buf, -⟩ := s.openFrame_spec
  have opened : s.openFrame.resting := by
    simpa [State.resting, State.openFrame, State.beginSend] using hr
  obtain ⟨v, hv, -, -, -, -, last⟩ := State.emitWords_spec s.conf.words 0 lock (by rw [conf]; omega)
  cases hu.symm.trans hv
  refine ⟨((Kept.conf s.conf).emitWords opened conf hu).1, fun words => ?_⟩
  obtain ⟨-, -, -, read⟩ := last words
  rwa [State.wordRead_congr conf buf, Nat.zero_add] at read

/-- Settles O51: a send opens the frame, sends the words and closes the frame; what each leaves alone, and what the
clock and the environment do through all of it. -/
theorem sendLeavesTheEngineAtRest : Obligations.SendLeavesTheEngineAtRest := by
  intro s hi hr hl hcfg
  obtain ⟨u, hu, sent, eff⟩ := effectOf_send s
  have run := (exec_send hr hl hcfg).trans eff
  have resting : s.resting := ⟨hr.wact, hr.drem⟩
  obtain ⟨idle, last⟩ := State.emitWords_openFrame resting hu
  have rest : u.closeFrame.AtRest := State.atRest_closeFrame idle
  have free : u.closeFrame.lock = false := State.delay_lock _ _
  have shift : u.closeFrame.shift = u.shift := State.delay_shift _ _
  have only : s.OnlySent u.closeFrame :=
    (s.onlySent_openFrame.trans sent.onlySent).trans u.onlySent_closeFrame
  obtain ⟨-, later, count⟩ := (Kept.clocked hi.cw_le).exec resting ⟨rfl, State.Clocked.refl hi.widths.cycle⟩ run
  have acted := State.environmentActedInSend hu
  refine ⟨u.closeFrame.returnNothing, run, ⟨rest.phase, rest.widx, rest.bidx, rest.kidx, rest.wact, rest.drem⟩,
    only.fault.trans hr.fault, free, u.pinsLow_closeFrame, fun words => (last words).trans (congrArg _ shift.symm),
    State.frame_congr only.conf only.buf, later, count, acted, fun hq => ?_,
    congrArg State.returnNothing (only.of_atRest hr.toAtRest rest (free.trans hl.symm))⟩
  obtain ⟨cfg, out, pend, inputs⟩ := acted.of_quiet hq
  exact ⟨out, cfg, pend, inputs⟩

end Sys2Proof.Machine
end

section
/-! PROOFS. The encoding statements (30_encoding.md): the word of a command and the command of a word, the opcode map,
the assembler's operands, a word issued to be run whole or in rows, and the completion of every command. -/

namespace Sys2Proof

/-! ### The word and its command -/

/-- A word is the word of a command when its three fields are the command's (R100). -/
theorem encode_eq_iff {i : Instr} {w : CommandWord} :
    encode i = w ↔ opField w = i.opcode ∧ bField w = i.operandB ∧ aField w = i.operandA := by
  constructor
  · rintro rfl
    exact ⟨opField_encode i, bField_encode i, aField_encode i⟩
  · rintro ⟨op, b, a⟩
    apply BitVec.eq_of_toNat_eq
    rw [encode_toNat, word_of_fields w, op, b, a]

/-- What format `Z` accepts. -/
theorem formatZ_eq_ok {w : CommandWord} {i j : Instr} :
    formatZ w i = .ok j ↔ (bField w = 0#24 ∧ aField w = 0#32) ∧ i = j := by
  unfold formatZ
  split <;> simp [*]

/-- What format `A` accepts. -/
theorem formatA_eq_ok {w : CommandWord} {k : Word → Instr} {j : Instr} :
    formatA w k = .ok j ↔ bField w = 0#24 ∧ k (aField w) = j := by
  unfold formatA
  split <;> simp [*]

/-- Format `AB` accepts every word. -/
theorem formatAB_eq_ok {w : CommandWord} {k : Word → Colour → Instr} {j : Instr} :
    formatAB w k = .ok j ↔ k (aField w) (bField w) = j := by
  simp [formatAB]

/-- The command of a legal word of format `Z` has that word. -/
theorem encode_of_formatZ {w : CommandWord} {i j : Instr} (h : formatZ w i = .ok j)
    (op : (opField w).toNat = i.opcode.toNat) (b : i.operandB = 0#24) (a : i.operandA = 0#32) : encode j = w := by
  obtain ⟨⟨hb, ha⟩, rfl⟩ := formatZ_eq_ok.mp h
  exact encode_eq_iff.mpr ⟨BitVec.eq_of_toNat_eq op, hb.trans b.symm, ha.trans a.symm⟩

/-- The same of format `A`. -/
theorem encode_of_formatA {w : CommandWord} {k : Word → Instr} {j : Instr} (h : formatA w k = .ok j)
    (op : (opField w).toNat = (k (aField w)).opcode.toNat) (b : (k (aField w)).operandB = 0#24)
    (a : (k (aField w)).operandA = aField w) : encode j = w := by
  obtain ⟨hb, rfl⟩ := formatA_eq_ok.mp h
  exact encode_eq_iff.mpr ⟨BitVec.eq_of_toNat_eq op, hb.trans b.symm, a.symm⟩

/-- The same of format `AB`. -/
theorem encode_of_formatAB {w : CommandWord} {k : Word → Colour → Instr} {j : Instr} (h : formatAB w k = .ok j)
    (op : (opField w).toNat = (k (aField w) (bField w)).opcode.toNat)
    (b : (k (aField w) (bField w)).operandB = bField w) (a : (k (aField w) (bField w)).operandA = aField w) :
    encode j = w := by
  obtain rfl := formatAB_eq_ok.mp h
  exact encode_eq_iff.mpr ⟨BitVec.eq_of_toNat_eq op, b.symm, a.symm⟩

/-- Row by row, the format accepts the fields of the command's word and takes the operands from them (R103). -/
theorem decode_encode (i : Instr) : decode (encode i) = .ok i := by
  unfold decode
  rw [opField_encode]
  cases i with
  | now | mask | lock | unlock | size | bufReset | send =>
    exact formatZ_eq_ok.mpr ⟨⟨bField_encode _, aField_encode _⟩, rfl⟩
  | waitCycles x | assert x | deassert x | delayMs x | pixRd x | wordRd x =>
    exact formatA_eq_ok.mpr ⟨bField_encode _, congrArg _ (aField_encode _)⟩
  | pixWr x colour | scale colour x | offset colour x =>
    refine formatAB_eq_ok.mpr ?_
    rw [aField_encode, bField_encode]
    rfl

/-- Row by row, the opcode is the row's, and the format leaves no bit of the word out (R103, R104). -/
theorem encode_of_decode {w : CommandWord} {i : Instr} (h : decode w = .ok i) : encode i = w := by
  unfold decode at h
  split at h
  -- The alternatives are the sixteen rows of R103 in its order, then no row.
  case h_1 op | h_3 op | h_6 op | h_7 op | h_9 op | h_12 op | h_14 op => exact encode_of_formatZ h op rfl rfl
  case h_2 op | h_4 op | h_5 op | h_8 op | h_10 op | h_13 op => exact encode_of_formatA h op rfl rfl
  case h_11 op | h_15 op | h_16 op => exact encode_of_formatAB h op rfl rfl
  case h_17 => cases h

/-- The decoder is the inverse of the encoder (R104). -/
theorem decode_eq_ok_iff {w : CommandWord} {i : Instr} : decode w = .ok i ↔ encode i = w :=
  ⟨encode_of_decode, fun h => h ▸ decode_encode i⟩

/-- A legal word as a number (R100). -/
theorem decode_eq_ok_iff_toNat {w : CommandWord} {i : Instr} :
    decode w = .ok i ↔ i.opcode.toNat * 2 ^ 56 + i.operandB.toNat * 2 ^ 32 + i.operandA.toNat = w.toNat := by
  rw [decode_eq_ok_iff, ← BitVec.toNat_inj, encode_toNat]

/-- Settles O5: the format of each row accepts the command's own fields. -/
theorem decodeOfEncodeIsTheCommand : Obligations.DecodeOfEncodeIsTheCommand := decode_encode

/-- Settles O6: the three fields of a legal word are those of its command. -/
theorem encodeOfDecodeIsTheWord : Obligations.EncodeOfDecodeIsTheWord := fun _ _ => encode_of_decode

/-! ### The opcode map -/

/-- A row whose mask keeps `OP`, `B` and `A`: the operands must be zero. -/
theorem matchZ_iff {w : CommandWord} {i : Instr} (n : Nat) (op : i.opcode.toNat = n) (b : i.operandB = 0#24)
    (a : i.operandA = 0#32) :
    w &&& 0xFFFFFFFFFFFFFFFF#64 = BitVec.ofNat 64 (n * 2 ^ 56) ↔ decode w = .ok i := by
  have byte := i.opcode.isLt
  rw [decode_eq_ok_iff_toNat, op, b, a, ← BitVec.toNat_inj, and_maskZ_toNat]
  simp only [BitVec.toNat_ofNat]
  omega

/-- A row whose mask keeps `OP` and `B`: the operand is field `A`. -/
theorem matchA_iff {w : CommandWord} {i : Instr} (n : Nat) (op : i.opcode.toNat = n) (b : i.operandB = 0#24)
    (a : i.operandA = aField w) :
    w &&& 0xFFFFFFFF00000000#64 = BitVec.ofNat 64 (n * 2 ^ 56) ↔ decode w = .ok i := by
  have byte := i.opcode.isLt
  rw [decode_eq_ok_iff_toNat, op, b, a, aField_toNat, ← BitVec.toNat_inj, and_maskA_toNat]
  simp only [BitVec.toNat_ofNat]
  omega

/-- A row whose mask keeps `OP` alone: the operands are fields `A` and `B`. -/
theorem matchAB_iff {w : CommandWord} {i : Instr} (n : Nat) (op : i.opcode.toNat = n) (b : i.operandB = bField w)
    (a : i.operandA = aField w) :
    w &&& 0xFF00000000000000#64 = BitVec.ofNat 64 (n * 2 ^ 56) ↔ decode w = .ok i := by
  have byte := i.opcode.isLt
  rw [decode_eq_ok_iff_toNat, op, b, a, aField_toNat, bField_toNat, ← BitVec.toNat_inj, and_maskAB_toNat]
  simp only [BitVec.toNat_ofNat]
  omega

/-- Settles O7: each row by its format and its opcode. -/
theorem wordsMatchTheOpcodeMap : Obligations.WordsMatchTheOpcodeMap := fun _ =>
  ⟨matchZ_iff 0x10 rfl rfl rfl, matchA_iff 0x11 rfl rfl rfl, matchZ_iff 0x20 rfl rfl rfl,
    matchA_iff 0x21 rfl rfl rfl, matchA_iff 0x22 rfl rfl rfl, matchZ_iff 0x30 rfl rfl rfl,
    matchZ_iff 0x31 rfl rfl rfl, matchA_iff 0x38 rfl rfl rfl, matchZ_iff 0x40 rfl rfl rfl,
    matchA_iff 0x41 rfl rfl rfl, matchAB_iff 0x42 rfl rfl rfl, matchZ_iff 0x43 rfl rfl rfl,
    matchA_iff 0x44 rfl rfl rfl, matchZ_iff 0x50 rfl rfl rfl, matchAB_iff 0x60 rfl rfl rfl,
    matchAB_iff 0x61 rfl rfl rfl⟩

/-- Settles O8: the six legal words are those of the commands, and the other two have no row and a bit too many. -/
theorem writtenWordsDecodeAsTheSpecSays : Obligations.WrittenWordsDecodeAsTheSpecSays :=
  ⟨decode_encode (.waitCycles 19), decode_encode (.deassert 0x20), decode_encode (.delayMs 5),
    decode_encode (.pixWr 1 0x341256), decode_encode .send, decode_encode (.offset 0x050505 0xFFFFFFEC),
    by decide, by decide⟩

end Sys2Proof

namespace Sys2Proof.Machine

/-! ### The assembler's operands -/

/-- A colour whose channels are bytes assembles green, red, blue (R112). -/
theorem AsmColour.assemble_of_le {c : AsmColour} (hr : c.r ≤ 255) (hg : c.g ≤ 255) (hb : c.b ≤ 255) :
    ∃ b, c.assemble = some b ∧ b.toNat = c.g * 65536 + c.r * 256 + c.b := by
  refine ⟨_, if_pos ⟨hr, hg, hb⟩, ?_⟩
  rw [BitVec.toNat_ofNat]
  omega

/-- An unsigned operand of 32 bits assembles to itself. -/
theorem asmUnsigned_of_lt {n : Nat} (h : n < 2 ^ 32) : ∃ a, asmUnsigned n = some a ∧ a.toNat = n := by
  refine ⟨_, if_pos h, ?_⟩
  rw [BitVec.toNat_ofNat, Nat.mod_eq_of_lt h]

/-- A signed operand of 32 bits assembles to its two's complement (R101). -/
theorem asmSigned_of_bounds {v : Int} (lo : -(2 ^ 31) ≤ v) (hi : v < 2 ^ 31) :
    ∃ a, asmSigned v = some a ∧ a.toNat = (v % 2 ^ 32).toNat :=
  ⟨_, if_pos ⟨lo, hi⟩, BitVec.toNat_ofInt v⟩

/-- Both together. -/
theorem asmColourSigned_of_some {c : AsmColour} {v : Int} {b : Colour} {a : Word} (hb : c.assemble = some b)
    (ha : asmSigned v = some a) (k : Colour → Word → Instr) : asmColourSigned c v k = some (k b a) := by
  simp only [asmColourSigned, hb, ha]

/-- Settles O9: each pseudo-instruction assembles by the definition of its command. -/
theorem pseudoInstructionsExpand : Obligations.PseudoInstructionsExpand :=
  ⟨fun _ _ => ⟨rfl, rfl⟩, fun _ _ => ⟨rfl, rfl⟩, rfl⟩

/-- Settles O10: the word holds the row's opcode and the two operands as they assemble. -/
theorem colourOperandAssembles : Obligations.ColourOperandAssembles := by
  intro c hr hg hb
  obtain ⟨b, colour, hcolour⟩ := AsmColour.assemble_of_le hr hg hb
  refine ⟨fun k hk => ?_, fun v lo hi => ?_⟩
  · obtain ⟨a, index, hindex⟩ := asmUnsigned_of_lt hk
    refine ⟨.pixWr a b, by simp only [AsmLine.assemble, index, colour], ?_⟩
    rw [encode_toNat, ← hcolour, ← hindex]
    rfl
  · obtain ⟨a, operand, hoperand⟩ := asmSigned_of_bounds lo hi
    refine ⟨⟨.scale b a, asmColourSigned_of_some colour operand _, ?_⟩,
      ⟨.offset b a, asmColourSigned_of_some colour operand _, ?_⟩⟩
    · rw [encode_toNat, ← hcolour, ← hoperand]
      rfl
    · rw [encode_toNat, ← hcolour, ← hoperand]
      rfl

/-! ### A word is issued -/

/-- The word of a legal command to be run in rows, issued with nothing in flight (30_encoding.md R104). -/
theorem step_of_start {s : State} {w : CommandWord} {rest : List Input} {i : Instr}
    (hin : s.inputs = .start w :: rest) (hf : s.inFlight = false) (hd : decode w = .ok i) :
    step s = startRow i ((State.commandGap i { s with inputs := rest }).loadOperands w) := by
  simp [step, hin, hf, State.issue, hd]

/-- An illegal word issued with nothing in flight, however it is to be run (R110). -/
theorem step_of_illegal {s : State} {w : CommandWord} {rest : List Input} {e : DecodeError}
    (hin : s.inputs = .command w :: rest ∨ s.inputs = .start w :: rest) (hf : s.inFlight = false)
    (hd : decode w = .error e) :
    step s = .next ((State.drift none { s with inputs := rest }).raise .illegalCommand) := by
  rcases hin with hin | hin <;> simp [step, hin, hf, State.issue, hd]

/-- A row of the engine that is to come before what is listed next. -/
theorem step_of_engine {s : State} {rest : List Input} (hin : s.inputs = .engine :: rest) :
    step s =
      if s.inFlight = true then State.engineRow { s with inputs := rest } else .next { s with inputs := rest } := by
  simp only [step, hin]

theorem State.raise_of_no_fault {s : State} (h : s.fault = none) (c : Cause) : s.raise c = s.abort c := by
  simp only [State.raise, h]

theorem State.loadOperands_of_fault {s : State} (h : s.fault ≠ none) (w : CommandWord) : s.loadOperands w = s :=
  if_neg h

/-- The state a legal command runs in: time has passed, and its operands are loaded unless a fault stands (R101,
60_exceptions.md R271). -/
theorem State.loadOperands_commandGap (s : State) {w : CommandWord} {i : Instr} (hd : decode w = .ok i) :
    (s.commandGap i).loadOperands w = { s.commandGap i with
      a := if s.fault = none then i.operandA else s.a
      b := if s.fault = none then i.operandB else s.b } := by
  obtain rfl := encode_of_decode hd
  by_cases hf : s.fault = none
  · rw [State.loadOperands_of_no_fault (s := s.commandGap i) hf, aField_encode, bField_encode, if_pos hf, if_pos hf]
  · rw [State.loadOperands_of_fault (s := s.commandGap i) hf, if_neg hf, if_neg hf]
    rfl

/-- The time before a command: `CYCLE` counts it, and nothing else changes but the model's own bookkeeping. -/
theorem State.commandGap_spec (s : State) (i : Instr) :
    s.commandGap i = { s with
      cycle := (s.commandGap i).cycle, time := (s.commandGap i).time
      draws := (s.commandGap i).draws, meter := (s.commandGap i).meter } ∧
    s.time ≤ (s.commandGap i).time ∧
    (s.commandGap i).cycle = s.conf.cutCycles (s.cycle.toNat + ((s.commandGap i).time - s.time)) := by
  have gap : (s.commandGap i).time - s.time = bounded (s.meter.limit i) (1 + Config.freeCycles s.draws) :=
    Nat.add_sub_cancel_left _ _
  exact ⟨rfl, Nat.le_add_right _ _, by rw [gap]; rfl⟩

/-- What issuing a legal word does before its command runs. -/
theorem State.issued_spec (s : State) (rest : List Input) {w : CommandWord} {i : Instr} (hd : decode w = .ok i) :
    ∃ u, (State.commandGap i { s with inputs := rest }).loadOperands w = u ∧
      u = { s with
        inputs := rest, cycle := u.cycle, time := u.time, draws := u.draws, meter := u.meter
        a := if s.fault = none then i.operandA else s.a
        b := if s.fault = none then i.operandB else s.b } ∧
      s.time ≤ u.time ∧ u.cycle = s.conf.cutCycles (s.cycle.toNat + (u.time - s.time)) := by
  obtain ⟨frame, later, counts⟩ := State.commandGap_spec { s with inputs := rest } i
  exact ⟨_, State.loadOperands_commandGap { s with inputs := rest } hd, rfl, later, counts⟩

/-- Settles O11: the word is taken, the gap passes, the operands are loaded. -/
theorem stepRunsTheDecodedCommand : Obligations.StepRunsTheDecodedCommand := by
  intro s w rest i hin hf hd
  obtain ⟨u, hu, issued⟩ := s.issued_spec rest hd
  exact ⟨u, by rw [step_of_command hin hf hd, hu], issued⟩

/-- Settles O12: no fault stands, so the illegal word aborts. -/
theorem illegalWordAborts : Obligations.IllegalWordAborts := by
  intro s w rest e hin hf hfault hd
  rw [step_of_illegal hin hf hd, State.raise_of_no_fault (s := State.drift none { s with inputs := rest }) hfault]
  exact ⟨_, rfl, rfl, rfl⟩

/-! ### An operand above the width -/

theorem operandFits_of_ge {width : Nat} {x : Word} (h : 2 ^ width ≤ x.toNat) : operandFits width x = false :=
  decide_eq_false (Nat.not_lt.mpr h)

/-- A command whose own check fails with a cause: what the abort leaves, and its code. -/
theorem exec_aborts_of_check {i : Instr} {s : State} {c : Cause} (hr : s.Ready) (hc : checkOf i s = some c) :
    ∃ t, exec i s = .next t ∧ s.Aborts t c ∧ t.faultCode = c.code :=
  ⟨_, exec_of_check hr hc, s.aborts_abort c, rfl⟩

/-- Settles O24: the operand check fails. -/
theorem operandAboveWidthAborts : Obligations.OperandAboveWidthAborts := by
  intro s x hr
  refine ⟨fun h => exec_aborts_of_check hr ?_, fun h => exec_aborts_of_check hr ?_,
    fun h => exec_aborts_of_check hr ?_⟩
  · simp [checkOf, State.waitCheck, operandFits_of_ge h]
  · simp [checkOf, operandFits_of_ge h]
  · simp [checkOf, operandFits_of_ge h]

/-! ### Every command completes -/

/-- The index of a command whose check passes lies inside its bound (60_exceptions.md R262). -/
theorem lt_of_indexCheck {n k : Nat} {c : Cause} (h : failIf (decide (n ≤ k)) c = none) : k < n := by
  simpa [failIf_eq_none] using h

/-- `t` is `s` after the effect of `i`: the fault is as it was, one completion more, which hands over `RES` if `i` writes
it, and at rest if `s` was (R102, 10_state.md R39). -/
structure State.Completes (i : Instr) (s t : State) : Prop where
  fault : t.fault = s.fault
  completions : t.completions = s.completions ++ [⟨.ok, if returnsValue i = true then some t.res else none⟩]
  atRest : s.AtRest → t.AtRest

/-- At rest is a matter of the position and of what is in flight. -/
theorem State.AtRest.congr {s t : State} (h : s.AtRest) (phase : t.phase = s.phase) (widx : t.widx = s.widx)
    (bidx : t.bidx = s.bidx) (kidx : t.kidx = s.kidx) (wact : t.wact = s.wact) (drem : t.drem = s.drem) : t.AtRest :=
  ⟨phase.trans h.phase, widx.trans h.widx, bidx.trans h.bidx, kidx.trans h.kidx, wact.trans h.wact,
    drem.trans h.drem⟩

theorem State.AtRest.wait {s : State} (h : s.AtRest) (n : Nat) (room : Option Nat) : (s.wait n room).AtRest :=
  h.congr (s.wait_phase n room) (s.wait_widx n room) (s.wait_bidx n room) (s.wait_kidx n room)
    ((s.wait_wact n room).trans h.wact.symm) (s.wait_drem n room)

theorem State.AtRest.delay {s : State} (h : s.AtRest) (d : Nat) : (s.delay d).AtRest :=
  h.congr (s.delay_phase d) (s.delay_widx d) (s.delay_bidx d) (s.delay_kidx d) (s.delay_wact d)
    ((s.delay_drem d).trans h.drem.symm)

/-- A command without a wait or a pin write completes as soon as its completion is the right one. -/
theorem State.OnlyPort.completes {i : Instr} {s t : State} (h : s.OnlyPort t)
    (hc : t.completions = s.completions ++ [⟨.ok, if returnsValue i = true then some t.res else none⟩]) :
    State.Completes i s t :=
  ⟨by rw [h], hc, fun rest => by rw [h]; exact rest.congr rfl rfl rfl rfl rfl rfl⟩

/-- The effect of every command answers a next state: every index has been checked (20_memory.md R70). -/
theorem effectOf_completes {i : Instr} {s : State} (hc : checkOf i s = none) :
    ∃ t, effectOf i s = .next t ∧ State.Completes i s t := by
  cases i with
  | waitCycles n =>
    exact ⟨_, rfl, s.wait_fault _ s.commandRoom, congrArg (· ++ _) (s.wait_completions _ s.commandRoom),
      fun rest => (rest.wait n.toNat s.commandRoom).congr rfl rfl rfl rfl rfl rfl⟩
  | delayMs d =>
    exact ⟨_, rfl, s.delay_fault _, congrArg (· ++ _) (s.delay_completions _),
      fun rest => (rest.delay d.toNat).congr rfl rfl rfl rfl rfl rfl⟩
  | assert m => exact ⟨_, rfl, rfl, rfl, fun rest => rest.congr rfl rfl rfl rfl rfl rfl⟩
  | deassert m => exact ⟨_, rfl, rfl, rfl, fun rest => rest.congr rfl rfl rfl rfl rfl rfl⟩
  | send =>
    obtain ⟨u, hu, sent, eff⟩ := effectOf_send s
    have only : s.OnlySent u.closeFrame :=
      (s.onlySent_openFrame.trans sent.onlySent).trans u.onlySent_closeFrame
    refine ⟨_, eff, only.fault, ?_, fun rest => ?_⟩
    · show u.closeFrame.completions ++ _ = _
      rw [only]
      rfl
    · have closed := State.atRest_closeFrame (State.emitWords_openFrame ⟨rest.wact, rest.drem⟩ hu).1
      exact closed.congr rfl rfl rfl rfl rfl rfl
  | pixRd k => exact ⟨_, effectOf_pixRd (lt_of_indexCheck hc), State.OnlyPort.completes rfl rfl⟩
  | pixWr k colour => exact ⟨_, effectOf_pixWr (lt_of_indexCheck hc) colour, State.OnlyPort.completes rfl rfl⟩
  | wordRd k => exact ⟨_, effectOf_wordRd (lt_of_indexCheck hc), State.OnlyPort.completes rfl rfl⟩
  | _ => exact ⟨_, rfl, State.OnlyPort.completes rfl rfl⟩

/-- Settles O26: dropped, aborted or with its effect, a command completes once. -/
theorem everyCommandCompletesOnce : Obligations.EveryCommandCompletesOnce := by
  intro i s
  rcases exec_cases i s with ⟨hf, e⟩ | ⟨-, c, e⟩ | ⟨hf, -, hc, e⟩
  · exact ⟨s.drop, ⟨.aborted, none⟩, e, rfl, ⟨fun _ => hf, fun _ => rfl⟩, (if_neg fun k => hf k.1).symm,
      (·.congr rfl rfl rfl rfl rfl rfl)⟩
  · exact ⟨s.abort c, ⟨.aborted, none⟩, e, rfl, ⟨fun _ => nofun, fun _ => rfl⟩, rfl, (·.congr rfl rfl rfl rfl rfl rfl)⟩
  · obtain ⟨t, eff, fault, completions, atRest⟩ := effectOf_completes hc
    refine ⟨t, _, e.trans eff, completions, ⟨nofun, fun k => absurd (fault.trans hf) k⟩, ?_, atRest⟩
    simp [fault, hf]

/-! ### The first row of a command -/

/-- The first row of a command issued at rest whose check passes. -/
theorem startRow_of_ready {i : Instr} {s : State} (h : s.Ready) (hc : checkOf i s = none) :
    startRow i s = startOf i s := by
  rw [startRow_eq_command, hc, State.command_of_ready h]

/-- Once its checks have passed a command raises no fault. -/
theorem effectOf_fault {i : Instr} {s t : State} (hc : checkOf i s = none) (h : effectOf i s = .next t) :
    t.fault = s.fault := by
  obtain ⟨u, hu, completes⟩ := effectOf_completes hc
  cases h.symm.trans hu
  exact completes.fault

/-- Nor does its first row. -/
theorem startOf_fault {i : Instr} {s t : State} (hc : checkOf i s = none) (h : startOf i s = .next t) :
    t.fault = s.fault := by
  cases i with
  | waitCycles n => cases h; rfl
  | delayMs d => cases h; rfl
  | send => cases h; rfl
  | _ => exact effectOf_fault hc h

/-- A command that aborts does so by its checks, whatever its effect would be (60_exceptions.md R273, R274). -/
theorem State.command_eq_of_fault {s t : State} {check : Option Cause}
    {f : State → Host.Outcome State Fault Refusal} (g : State → Host.Outcome State Fault Refusal)
    (hs : s.fault = none) (ht : t.fault ≠ none)
    (keeps : check = none → f s = .next t → t.fault = s.fault) (h : s.command check f = .next t) :
    s.command check g = .next t := by
  by_cases hp : s.phase = .idle
  · cases check with
    | some c => simpa [State.command, hs, State.busy, hp] using h
    | none =>
      have effect : f s = .next t := by simpa [State.command, hs, State.busy, hp] using h
      exact absurd ((keeps rfl effect).trans hs) ht
  · rwa [State.command_of_busy hs hp] at h ⊢

/-- The first row of a command aborts when, and as, the command run whole does. -/
theorem startRow_aborts_iff {i : Instr} {s t : State} (hs : s.fault = none) (ht : t.fault ≠ none) :
    startRow i s = .next t ↔ exec i s = .next t := by
  rw [startRow_eq_command, exec_eq_command]
  exact ⟨State.command_eq_of_fault _ hs ht startOf_fault, State.command_eq_of_fault _ hs ht effectOf_fault⟩

/-- The commands without a wait, a delay or a frame are one row. -/
theorem startRow_eq_exec {i : Instr} (s : State) (hw : ∀ n, i ≠ .waitCycles n) (hd : ∀ d, i ≠ .delayMs d)
    (hs : i ≠ .send) : startRow i s = exec i s := by
  cases i with
  | waitCycles n => exact absurd rfl (hw n)
  | delayMs d => exact absurd rfl (hd d)
  | send => exact absurd rfl hs
  | _ => rfl

/-- A wait whose length fits the counter begins with that length in `WN` (40_cycle_timer.md R123). -/
theorem State.beginWait_of_lt {s : State} {n : Word} (h : n.toNat < 2 ^ s.conf.cw) :
    s.beginWait n.toNat = { s with
      wact := true, wn := n, wstart := s.cycle, waitBegan := s.time
      trace := s.trace ++ [⟨s.time, .wait n.toNat⟩] } := by
  unfold State.beginWait
  rw [Config.cutCycles_of_lt h]
  rfl

/-- Settles O13: a started word is issued as a whole command is; its first row is the entry of the wait, of the delay or
of the send, under the same checks, or the command itself. -/
theorem startedCommandRunsInRows : Obligations.StartedCommandRunsInRows := by
  refine ⟨fun s w rest i hin hf hd => ?_, fun s rest hin => step_of_engine hin,
    fun s hr => ⟨fun n hn => ?_, fun hl d => ?_, fun hl hcfg => ?_⟩, fun i s t => startRow_aborts_iff,
    fun i s => startRow_eq_exec s⟩
  · obtain ⟨u, hu, issued⟩ := s.issued_spec rest hd
    exact ⟨u, by rw [step_of_start hin hf hd, hu], issued⟩
  · have check : checkOf (.waitCycles n) s = none := by simp [checkOf, State.waitCheck, operandFits, hn]
    exact ⟨_, startRow_of_ready hr check, State.beginWait_of_lt hn⟩
  · have check : checkOf (.delayMs d) s = none := by simp [checkOf, State.delayCheck, hl]
    exact ⟨_, startRow_of_ready hr check, rfl⟩
  · have check : checkOf .send s = none := by simp [checkOf, State.sendCheck, hl, hcfg]
    have write : s.beginSend.time - s.time = s.conf.pinTime := Nat.add_sub_cancel_left _ _
    exact ⟨_, startRow_of_ready hr check, Nat.le_add_right _ _, Nat.add_le_add_left s.conf.pinTime_le _,
      by rw [write]; rfl, rfl⟩

end Sys2Proof.Machine
end

section
/-! PROOFS. The cycle timer statements (40_cycle_timer.md): a read of the counter, a `WAITCYCLES` run whole, the
measurement of R125 between two reads, and a wait and a delay run in rows to their end. -/

namespace Sys2Proof.Machine

/-! ### A read of the counter -/

/-- A `NOW` at rest returns the counter and begins a measurement (40_cycle_timer.md R120, R125). -/
theorem exec_now_of_ready {s : State} (hr : s.Ready) : exec .now s = .next (s.returnValue s.cycle).startMeter :=
  exec_of_ready hr rfl

/-- Settles O27: the measurement is the model's own bookkeeping. -/
theorem nowReturnsTheCounter : Obligations.NowReturnsTheCounter :=
  fun _ hr => ⟨_, exec_now_of_ready hr, rfl⟩

/-! ### A wait run whole -/

/-- A length that fits the counter passes the check of `WAITCYCLES` (40_cycle_timer.md R122). -/
theorem checkOf_waitCycles {s : State} {n : Word} (h : n.toNat < 2 ^ s.conf.cw) :
    checkOf (.waitCycles n) s = none := by
  simp [checkOf, State.waitCheck, operandFits, h]

/-- What a wait changes: its registers, its event, the clock, and what the environment may (40_cycle_timer.md R123). -/
theorem State.wait_frame (s : State) (n : Nat) (room : Option Nat) :
    s.wait n room = { s with
      cycle := (s.wait n room).cycle, time := (s.wait n room).time, draws := (s.wait n room).draws
      wact := false, wn := s.conf.cutCycles n, wstart := s.cycle, waitBegan := s.time
      trace := s.trace ++ [⟨s.time, .wait n⟩]
      cfg := (s.wait n room).cfg, out := (s.wait n room).out
      pend := (s.wait n room).pend, inputs := (s.wait n room).inputs } := by
  have acted := (s.beginWait n).environment_only
  unfold State.OnlyEnvironment at acted
  unfold State.wait
  rw [acted]
  rfl

/-- Under the lock a `WAITCYCLES` has a limit on its overhead, at most `WAIT_OVH` (40_cycle_timer.md R125). -/
theorem State.commandRoom_of_locked {s : State} (h : s.lock = true) (hm : s.meter.room ≤ s.conf.waitOvh) :
    ∃ room, s.commandRoom = some room ∧ room ≤ s.conf.waitOvh :=
  State.pollRoom_of_locked (s := { s with phase := .idle }) h hm

/-- Settles O29: a wait counts on from its entry sample to an instant at which the exit test holds, within its limit. -/
theorem waitCyclesLastsAtLeastN : Obligations.WaitCyclesLastsAtLeastN := by
  intro s n hi hr hn
  obtain ⟨clocked, later, acted, inWindow, locked⟩ := s.wait_spec n.toNat s.commandRoom hi.cw_le hi.widths.cycle
  have run := exec_of_ready hr (checkOf_waitCycles hn)
  refine ⟨(s.wait n.toNat s.commandRoom).completeWait, run, later, inWindow hn, clocked.2, ?_, fun hl => ?_, acted, ?_⟩
  · rw [waitDone_iff, State.completeWait_cycle, cycleDiff_of_elapsed hi.widths.cycle clocked.2]
    exact inWindow hn
  · obtain ⟨room, limit, le⟩ := State.commandRoom_of_locked hl hi.meter
    obtain ⟨within, out, cfg⟩ := locked hl
    exact ⟨Nat.le_trans (within room limit) (Nat.add_le_add_left le _), out, cfg⟩
  · have frame := s.wait_frame n.toNat s.commandRoom
    rw [Config.cutCycles_of_lt hn] at frame
    rw [frame]
    rfl

/-! ### A measured wait -/

/-- The time before a command is what its measurement spends, within what that has left (40_cycle_timer.md R125). -/
theorem State.commandGap_meter (s : State) (i : Instr) :
    (s.commandGap i).meter = s.meter.spend ((s.commandGap i).time - s.time) ∧
    ∀ room, s.meter.limit i = some room → (s.commandGap i).time ≤ s.time + room := by
  have gap : (s.commandGap i).time = s.time + bounded (s.meter.limit i) (1 + Config.freeCycles s.draws) := rfl
  refine ⟨by rw [gap, Nat.add_sub_cancel_left]; rfl, fun room limit => ?_⟩
  rw [gap, limit]
  exact Nat.add_le_add_left (Nat.min_le_right _ _) _

/-- `t` is the state at rest in which a command issued in `s` runs, as far as a measurement needs it: the time before
the command has passed, the clock counts it, and the measurement has spent it. -/
structure State.Issued (s t : State) (i : Instr) (rest : List Input) : Prop where
  ready : t.Ready
  conf : t.conf = s.conf
  lock : t.lock = s.lock
  inputs : t.inputs = rest
  later : s.time ≤ t.time
  counts : t.cycle = s.conf.cutCycles (s.cycle.toNat + (t.time - s.time))
  meter : t.meter = s.meter.spend (t.time - s.time)
  within : ∀ room, s.meter.limit i = some room → t.time ≤ s.time + room

/-- The word of a legal command issued at rest (30_encoding.md R101, R104). -/
theorem step_of_ready {s : State} {w : CommandWord} {rest : List Input} {i : Instr} (hr : s.Ready)
    (hin : s.inputs = .command w :: rest) (hd : decode w = .ok i) :
    ∃ u, step s = exec i u ∧ s.Issued u i rest := by
  obtain ⟨-, later, counts⟩ := State.commandGap_spec { s with inputs := rest } i
  obtain ⟨meter, within⟩ := State.commandGap_meter { s with inputs := rest } i
  refine ⟨_, step_of_command hin hr.inFlight hd, ?_⟩
  rw [State.loadOperands_commandGap { s with inputs := rest } hd]
  exact ⟨⟨hr.toAtRest.congr rfl rfl rfl rfl rfl rfl, hr.fault⟩, rfl, rfl, rfl, later, counts, meter, within⟩

/-- A `NOW` issued at rest: when it reads, and the measurement it begins under the lock. -/
theorem step_of_lockedNow {s : State} {w : CommandWord} {rest : List Input} (hr : s.Ready) (hl : s.lock = true)
    (hin : s.inputs = .command w :: rest) (hd : decode w = .ok .now) :
    ∃ t, step s = .next t ∧ t.Ready ∧ t.lock = true ∧ t.inputs = rest ∧ t.res = t.cycle ∧
      t.meter = .afterNow s.conf.waitOvh ∧ ∀ room, s.meter = .afterWait room → t.time ≤ s.time + room := by
  obtain ⟨u, hu, issued⟩ := step_of_ready hr hin hd
  have held : u.lock = true := issued.lock.trans hl
  refine ⟨(u.returnValue u.cycle).startMeter, hu.trans (exec_now_of_ready issued.ready),
    ⟨issued.ready.toAtRest.congr rfl rfl rfl rfl rfl rfl, issued.ready.fault⟩, held, issued.inputs, rfl, ?_,
    fun room hm => issued.within room (by rw [hm]; rfl)⟩
  simp [held, issued.conf]

/-- What a wait that has a limit does not spend of it beyond `n` cycles is left of the measurement after it
(40_cycle_timer.md R125). -/
theorem State.measuredWait_spec {s : State} {n : Word} {room : Nat} (hw : s.conf.cw ≤ 32)
    (hc : s.cycle.toNat < 2 ^ s.conf.cw) (hl : s.lock = true) (hm : s.meter = .afterNow room)
    (hn : n.toNat < 2 ^ s.conf.cw) :
    ∃ left, (s.wait n.toNat s.commandRoom).completeWait.meter = .afterWait left ∧
      s.time + n.toNat ≤ (s.wait n.toNat s.commandRoom).time ∧
      (s.wait n.toNat s.commandRoom).time + left ≤ s.time + n.toNat + room := by
  have limit : s.commandRoom = some room := by simp [State.commandRoom, hl, hm]
  obtain ⟨-, later, -, -, locked⟩ := s.wait_spec n.toNat s.commandRoom hw hc
  have within := (locked hl).1 room limit
  refine ⟨room - ((s.wait n.toNat s.commandRoom).time - s.time - n.toNat), ?_, later, by omega⟩
  rw [State.completeWait_meter, State.wait_meter, State.wait_waitBegan, State.wait_wn, Config.cutCycles_of_lt hn, hm]
  rfl

/-- A `WAITCYCLES` issued right after a `NOW` under the lock, with another command after it: the time before it and what
the wait takes beyond `n` cycles come out of what the measurement has left (40_cycle_timer.md R125). -/
theorem step_of_measuredWait {s : State} {n : Word} {room : Nat} {w w' : CommandWord} {rest : List Input}
    (hw : s.conf.cw ≤ 32) (hr : s.Ready) (hl : s.lock = true) (hm : s.meter = .afterNow room)
    (hn : n.toNat < 2 ^ s.conf.cw) (hin : s.inputs = .command w :: .command w' :: rest)
    (hd : decode w = .ok (.waitCycles n)) :
    ∃ t left, step s = .next t ∧ t.Ready ∧ t.lock = true ∧ t.inputs = .command w' :: rest ∧
      t.meter = .afterWait left ∧ s.time + n.toNat ≤ t.time ∧ t.time + left ≤ s.time + n.toNat + room := by
  obtain ⟨u, hu, issued⟩ := step_of_ready hr hin hd
  have counter : u.cycle.toNat < 2 ^ s.conf.cw := by
    rw [issued.counts, Config.toNat_cutCycles hw]
    exact Nat.mod_lt _ (Nat.two_pow_pos _)
  rw [← issued.conf] at hw hn counter
  have held : u.lock = true := issued.lock.trans hl
  have since : s.time ≤ u.time := issued.later
  have before : u.time ≤ s.time + room := issued.within room (by rw [hm]; rfl)
  have meter : u.meter = .afterNow (room - (u.time - s.time)) := by rw [issued.meter, hm]; rfl
  obtain ⟨left, after, later, within⟩ := State.measuredWait_spec hw counter held meter hn
  obtain ⟨-, -, ⟨k, -, -, -, inputs⟩, -⟩ := u.wait_spec n.toNat u.commandRoom hw counter
  have quiet : u.quiet = true := by simp [State.quiet, issued.inputs]
  rw [State.interlude_of_quiet quiet, issued.inputs] at inputs
  exact ⟨_, left, hu.trans (exec_of_ready issued.ready (checkOf_waitCycles hn)),
    ⟨(issued.ready.toAtRest.wait n.toNat u.commandRoom).congr rfl rfl rfl rfl rfl rfl,
      (u.wait_fault n.toNat u.commandRoom).trans issued.ready.fault⟩,
    (u.wait_lock n.toNat u.commandRoom).trans held, inputs, after, Nat.le_trans (by omega) later,
    Nat.le_trans within (by omega)⟩

/-- Settles O30: what the measurement has left bounds the time before the wait, its excess and the time before the second
read together; the counter counts all of it. -/
theorem lockedWaitMeasuresWithinOverhead : Obligations.LockedWaitMeasuresWithinOverhead := by
  intro s n w1 w2 w3 rest hi hr hl hn hd1 hd2 hd3 hin
  obtain ⟨s1, step1, ready1, lock1, inputs1, res1, meter1, -⟩ := step_of_lockedNow hr hl hin hd1
  have inv1 : s1.Inv := Kept.inv.step hi step1
  have conf1 : s1.conf = s.conf := (Kept.conf s.conf).step rfl step1
  obtain ⟨s2, left, step2, ready2, lock2, inputs2, meter2, later, within⟩ :=
    step_of_measuredWait inv1.cw_le ready1 lock1 meter1 (conf1 ▸ hn) inputs1 hd2
  have inv2 : s2.Inv := Kept.inv.step inv1 step2
  have conf2 : s2.conf = s1.conf := (Kept.conf s1.conf).step rfl step2
  obtain ⟨s3, step3, -, -, -, res3, -, last⟩ := step_of_lockedNow ready2 lock2 inputs2 hd3
  have clocked12 : s1.Clocked s2 := cycleCountsEveryCycle s1 s2 inv1 step2
  have clocked23 : s2.Clocked s3 := cycleCountsEveryCycle s2 s3 inv2 step3
  have after : s2.time ≤ s3.time := clocked23.1
  have bound : s3.time ≤ s2.time + left := last left meter2
  refine ⟨s1, s2, s3, step1, step2, step3, res1, res3, by omega, by omega, ?_⟩
  rw [res1, res3, ← conf1]
  exact (clocked12.trans conf2 clocked23).2

/-! ### In rows -/

/-- With the section free `DELAYMS` passes its check (42_critical_section_delay.md R164). -/
theorem checkOf_delayMs {s : State} (hl : s.lock = false) (d : Word) : checkOf (.delayMs d) s = none := by
  simp [checkOf, State.delayCheck, hl]

/-- A `WAITCYCLES` begun in rows under the lock: its limit makes some poll end it (40_cycle_timer.md R124, R125). -/
theorem State.leads_of_lockedWait {s : State} {n : Word} (hi : s.Inv) (hw : s.wact = false) (hl : s.lock = true)
    (hn : n.toNat < 2 ^ s.conf.cw) :
    ∃ t : State, (s.beginWait n.toNat).Leads t.afterWait ∧
      s.time + n.toNat ≤ t.time ∧ t.time ≤ s.time + n.toNat + s.conf.waitOvh ∧ s.Clocked t ∧
      t = { s with
        cycle := t.cycle, time := t.time, wn := n, wstart := s.cycle, waitBegan := s.time
        trace := s.trace ++ [⟨s.time, .wait n.toNat⟩], draws := t.draws } := by
  have begun : (s.beginWait n.toNat).Inv := hi.beginWait n.toNat
  obtain ⟨room, limit, le⟩ := State.pollRoom_of_locked (s := s.beginWait n.toNat) hl begun.meter
  rw [State.beginWait_of_lt hn] at begun limit ⊢
  obtain ⟨t, leads, since, later, within, counts, frame⟩ := State.leads_of_wait (n.toNat + 1) _ room rfl limit hi.cw_le
    begun.widths.wstart begun.widths.wn begun.wait
    (show s.time - s.time < n.toNat ∨ n.toNat = 0 ∧ s.time = s.time by omega)
    (show n.toNat - (s.time - s.time) < n.toNat + 1 by omega)
  exact ⟨t, leads, later, Nat.le_trans within (Nat.add_le_add_left le _), ⟨since, counts⟩, frame.trans (by rw [hw])⟩

/-- A `DELAYMS` begun in rows: the time before each look makes some look end it (42_critical_section_delay.md R166). -/
theorem State.leads_of_beginDelay {s : State} (hw : s.wact = false) (hd : s.drem = none) (d : Nat) :
    ∃ t : State, (s.beginDelay d).Leads t.afterDelay ∧ s.time ≤ t.time ∧ s.time + s.conf.msCycles d ≤ t.time ∧
      t = { s with
        cycle := t.cycle, time := t.time, trace := s.trace ++ [⟨s.time, .delayMs d⟩], draws := t.draws } := by
  obtain ⟨t, leads, since, later, frame⟩ := State.leads_of_delay _ (s.beginDelay d) ⟨d, s.time⟩ hw rfl
    (Nat.lt_succ_self _)
  exact ⟨t, leads, since, later, frame.trans (by rw [hd]; rfl)⟩

/-- Settles O32: the limit on a masked wait, and the time before each look at a delay, make some row end it. -/
theorem rowsOfWaitsAndDelaysComplete : Obligations.RowsOfWaitsAndDelaysComplete := by
  refine ⟨fun s n hi hr hl hn => ?_, fun s d hr hl => ?_⟩
  · obtain ⟨t, ⟨k, leads⟩, later, within, clocked, frame⟩ := State.leads_of_lockedWait hi hr.wact hl hn
    have idle : t.phase = .idle := by rw [frame]; exact hr.phase
    rw [State.afterWait_of_idle idle] at leads
    refine ⟨k, _, _, startRow_of_ready hr (checkOf_waitCycles hn), leads, ?_, later, within, clocked.2, ?_⟩
    · rw [frame]
      exact hr.inFlight
    · rw [frame]
      rfl
  · obtain ⟨t, ⟨k, leads⟩, since, later, frame⟩ := State.leads_of_beginDelay hr.wact hr.drem d.toNat
    have idle : t.phase = .idle := by rw [frame]; exact hr.phase
    have enough := s.conf.msCycles_spec d.toNat
    rw [State.afterDelay_of_idle idle] at leads
    refine ⟨k, _, _, startRow_of_ready hr (checkOf_delayMs hl d), leads, ?_, since, ?_, ?_⟩
    · rw [frame]
      exact hr.inFlight
    · rw [State.returnNothing_time]
      omega
    · rw [frame]
      rfl

end Sys2Proof.Machine
end

section
/-! PROOFS. The pin driver statements (41_pin_driver.md): the reads of the mask and of the pixel count, what `ASSERT` and
`DEASSERT` change, and the one time every pin write takes. -/

namespace Sys2Proof.Machine

/-! ### The reads of the configuration -/

/-- A buffer the constructor accepts has fewer pixels than `RES` has values (43_pixel_buffer.md R180, 60_exceptions.md
R268). -/
theorem pixels_lt_of_valid {c : Config} (h : c.valid = true) : c.pixels < 2 ^ 32 := by
  have bytes : 4 * c.words < 2 ^ 32 := Config.valid_bytes h
  have enough := c.words_bounds.1
  omega

/-- Settles O33: neither command has a check of its own, and `RES` holds the pixel count uncut. -/
theorem maskAndSizeReadTheConfiguration : Obligations.MaskAndSizeReadTheConfiguration := by
  intro s hi hr
  refine ⟨⟨_, exec_of_ready hr rfl, s.returns_returnValue _⟩, _, _, exec_of_ready hr rfl, s.returns_returnValue _, ?_⟩
  rw [BitVec.toNat_ofNat, Nat.mod_eq_of_lt (pixels_lt_of_valid hi.valid)]

/-! ### A pin write as a command -/

/-- An operand within its width passes the check (30_encoding.md R101). -/
theorem operandFits_of_lt {width : Nat} {x : Word} (h : x.toNat < 2 ^ width) : operandFits width x = true :=
  decide_eq_true h

/-- `ASSERT` at rest with a mask that fits (41_pin_driver.md R144). -/
theorem exec_assert_of_ready {s : State} {m : Word} (hr : s.Ready) (hm : m.toNat < 2 ^ s.conf.pw) :
    exec (.assert m) s = .next (s.pinSet m).returnNothing :=
  exec_of_ready hr (by simp [checkOf, operandFits_of_lt hm])

/-- `DEASSERT` at rest with a mask that fits (41_pin_driver.md R145). -/
theorem exec_deassert_of_ready {s : State} {m : Word} (hr : s.Ready) (hm : m.toNat < 2 ^ s.conf.pw) :
    exec (.deassert m) s = .next (s.pinClr m).returnNothing :=
  exec_of_ready hr (by simp [checkOf, operandFits_of_lt hm])

/-- The clock after the cycles of one pin write: within `PIN_OVH`, and all of them counted (41_pin_driver.md R146). -/
theorem State.clock_of_pinTime {s t : State} (time : t.time = s.time + s.conf.pinTime)
    (cycle : t.cycle = s.conf.cutCycles (s.cycle.toNat + s.conf.pinTime)) :
    s.time ≤ t.time ∧ t.time ≤ s.time + s.conf.pinOvh ∧
      t.cycle = s.conf.cutCycles (s.cycle.toNat + (t.time - s.time)) := by
  rw [time, Nat.add_sub_cancel_left]
  exact ⟨Nat.le_add_right _ _, Nat.add_le_add_left s.conf.pinTime_le _, cycle⟩

/-- Settles O34: each command is its primitive and its completion, and both primitives take the time of a pin write. -/
theorem pinWritesChangeTheirMask : Obligations.PinWritesChangeTheirMask := by
  intro s m hr hm
  constructor
  · obtain ⟨later, within, counts⟩ := State.clock_of_pinTime (t := (s.pinSet m).returnNothing) rfl rfl
    exact ⟨_, exec_assert_of_ready hr hm, later, within, counts, rfl⟩
  · obtain ⟨later, within, counts⟩ := State.clock_of_pinTime (t := (s.pinClr m).returnNothing) rfl rfl
    exact ⟨_, exec_deassert_of_ready hr hm, later, within, counts, rfl⟩

/-! ### The time of a pin write -/

/-- `ASSERT` and `DEASSERT` take the time of one pin write (41_pin_driver.md R146). -/
theorem time_of_pinCommand {s t : State} {m : Word} (hr : s.Ready) (hm : m.toNat < 2 ^ s.conf.pw)
    (run : exec (.assert m) s = .next t ∨ exec (.deassert m) s = .next t) : t.time - s.time = s.conf.pinTime := by
  rw [exec_assert_of_ready hr hm, exec_deassert_of_ready hr hm] at run
  obtain ⟨⟨⟩⟩ | ⟨⟨⟩⟩ := run
  · exact Nat.add_sub_cancel_left _ _
  · exact Nat.add_sub_cancel_left _ _

/-- Settles O35: the time of a pin write is a number of the configuration alone. -/
theorem pinWritesTakeOneTime : Obligations.PinWritesTakeOneTime := by
  constructor
  · intro s s' t t' m m' hr hr' conf hm hm' run run'
    rw [time_of_pinCommand hr hm run, time_of_pinCommand hr' (conf ▸ hm') run', conf]
    exact ⟨rfl, s.conf.pinTime_le⟩
  · intro s s' m m' conf
    simp only [State.pinSet_time, State.pinClr_time, Nat.add_sub_cancel_left, conf]
    exact ⟨trivial, trivial, s.conf.pinTime_le⟩

end Sys2Proof.Machine
end

section
/-! PROOFS. The critical section and delay statements (42_critical_section_delay.md): the misuses of the lock, the
commands that switch it, the lock as the events of any command tell it, and a `DELAYMS` run whole. -/

namespace Sys2Proof.Machine

/-! ### The misuses of the lock -/

/-- Under the lock a send fails its first check (44_serializer.md R202). -/
theorem State.sendCheck_of_locked {s : State} (h : s.lock = true) : s.sendCheck = some .lockMisuse := by
  simp [State.sendCheck, h]

/-- Settles O21: in each of the four cases the command's own check fails. -/
theorem lockMisuseAborts : Obligations.LockMisuseAborts := by
  intro s hr
  refine ⟨fun held => exec_aborts_of_check hr ?_, fun free => exec_aborts_of_check hr ?_,
    fun held => exec_aborts_of_check hr (State.sendCheck_of_locked held), fun d held => exec_aborts_of_check hr ?_⟩
  · simp [checkOf, held]
  · simp [checkOf, free]
  · simp [checkOf, State.delayCheck, held]

/-! ### The commands that switch the section -/

/-- `LOCK` passes its check exactly from a free section (42_critical_section_delay.md R164). -/
theorem checkOf_lock {s : State} : checkOf .lock s = none ↔ s.lock = false := failIf_eq_none

/-- `UNLOCK` passes its check exactly from a held one. -/
theorem checkOf_unlock {s : State} : checkOf .unlock s = none ↔ s.lock = true :=
  failIf_eq_none.trans (Bool.not_eq_false' s.lock).to_iff

/-- Settles O37: each command is its primitive and its completion. -/
theorem lockAndUnlockSwitchTheSection : Obligations.LockAndUnlockSwitchTheSection :=
  fun _ hr => ⟨fun free => ⟨_, exec_of_ready hr (checkOf_lock.mpr free), rfl⟩,
    fun held => ⟨_, exec_of_ready hr (checkOf_unlock.mpr held), rfl⟩⟩

/-! ### The lock as a list of events tells it -/

/-- The events that neither move the lock nor ask that it be free. -/
def Event.leavesLock : Event → Bool
  | .high _ | .low _ | .wait _ | .abort _ => true
  | .lock | .unlock | .delayMs _ => false

/-- Such events may come in any number, with the lock free or held. -/
theorem lockDiscipline_of_leavesLock {new : List Event} (h : ∀ e ∈ new, e.leavesLock = true) (held : Bool) :
    LockDiscipline held new ∧ lockAfter held new = held := by
  induction new with
  | nil => exact ⟨trivial, rfl⟩
  | cons e rest ih =>
    obtain ⟨first, others⟩ := List.forall_mem_cons.mp h
    cases e with
    | lock => cases first
    | unlock => cases first
    | delayMs d => cases first
    | _ => exact ih others

/-- After two lists of events the lock is as the second tells it, starting from where the first leaves it. -/
theorem lockAfter_append (held : Bool) (first second : List Event) :
    lockAfter held (first ++ second) = lockAfter (lockAfter held first) second := by
  induction first generalizing held with
  | nil => rfl
  | cons e rest ih => cases e <;> exact ih _

/-- Two lists of events keep discipline when the second does from where the first leaves the lock. -/
theorem lockDiscipline_append {held : Bool} {first second : List Event} (h : LockDiscipline held first)
    (k : LockDiscipline (lockAfter held first) second) : LockDiscipline held (first ++ second) := by
  induction first generalizing held with
  | nil => exact k
  | cons e rest ih =>
    cases e with
    | lock => exact ⟨h.1, ih h.2 k⟩
    | unlock => exact ⟨h.1, ih h.2 k⟩
    | delayMs d => exact ⟨h.1, ih h.2 k⟩
    | _ => exact ih h k

/-! ### The lock from one state to another -/

/-- The events `t` has beyond those of `s` keep lock discipline, and `LOCK` is in `t` what they say. -/
def State.LocksInOrder (s t : State) : Prop :=
  ∃ new, t.events = s.events ++ new ∧ LockDiscipline s.lock new ∧ lockAfter s.lock new = t.lock

theorem State.LocksInOrder.trans {s t u : State} (h : s.LocksInOrder t) (k : t.LocksInOrder u) :
    s.LocksInOrder u := by
  obtain ⟨first, eventsT, orderT, lockT⟩ := h
  obtain ⟨second, eventsU, orderU, lockU⟩ := k
  rw [← lockT] at orderU lockU
  exact ⟨first ++ second, by rw [eventsU, eventsT, List.append_assoc], lockDiscipline_append orderT orderU,
    (lockAfter_append _ _ _).trans lockU⟩

/-- Events that leave the lock alone, the lock being left alone. -/
theorem State.LocksInOrder.of_leavesLock {s t : State} {new : List Event} (events : t.events = s.events ++ new)
    (leaves : ∀ e ∈ new, e.leavesLock = true) (lock : t.lock = s.lock) : s.LocksInOrder t :=
  have ⟨order, after⟩ := lockDiscipline_of_leavesLock leaves s.lock
  ⟨new, events, order, after.trans lock.symm⟩

/-- One such event. -/
theorem State.LocksInOrder.of_event {s t : State} {e : Event} (events : t.events = s.events ++ [e])
    (leaves : e.leavesLock = true) (lock : t.lock = s.lock) : s.LocksInOrder t :=
  .of_leavesLock events (List.forall_mem_singleton.mpr leaves) lock

/-- No event, the lock being left alone. -/
theorem State.LocksInOrder.of_no_event {s t : State} (events : t.events = s.events) (lock : t.lock = s.lock) :
    s.LocksInOrder t :=
  .of_leavesLock (events.trans (List.append_nil _).symm) nofun lock

/-! ### The parts of a send -/

/-- The events of a word, bit cells all, leave the lock alone (44_serializer.md R205 to R208). -/
theorem leavesLock_of_mem_wordCells {conf : Config} {w : Word} {e : Event} (h : e ∈ wordCells conf w) :
    e.leavesLock = true := by
  obtain ⟨b, -, inByte⟩ := List.mem_flatMap.mp h
  obtain ⟨k, -, inCell⟩ := List.mem_flatMap.mp inByte
  simp only [cell, List.mem_cons, List.not_mem_nil, or_false] at inCell
  rcases inCell with rfl | rfl | rfl | rfl <;> rfl

/-- Opening a frame takes a free lock (44_serializer.md R201). -/
theorem State.locksInOrder_openFrame {s : State} (h : s.lock = false) : s.LocksInOrder s.openFrame := by
  obtain ⟨lock, -, -, -, -, events⟩ := s.openFrame_spec
  exact ⟨_, events, ⟨h, trivial⟩, lock.symm⟩

/-- Sending the words of a frame leaves the lock held. -/
theorem State.locksInOrder_emitWords {s u : State}
    (hu : State.emitWords s.conf.words 0 s.openFrame = .next u) : s.openFrame.LocksInOrder u := by
  obtain ⟨lock, conf, -⟩ := s.openFrame_spec
  obtain ⟨v, hv, sent, events, -⟩ := State.emitWords_spec s.conf.words 0 lock (by rw [conf]; omega)
  cases hu.symm.trans hv
  refine .of_leavesLock events (fun e he => ?_) sent.lock
  obtain ⟨_, -, inWord⟩ := List.mem_flatMap.mp he
  exact leavesLock_of_mem_wordCells inWord

@[simp] theorem State.closeFrame_lock (s : State) : s.closeFrame.lock = false := State.delay_lock _ _

/-- Closing a frame releases the lock and only then delays (44_serializer.md R201). -/
theorem State.events_closeFrame (s : State) :
    s.closeFrame.events = s.events ++ [.low s.conf.pinMask, .unlock, .delayMs s.conf.resetMs] := by
  simp [State.closeFrame, State.lowAndRelease]

theorem State.locksInOrder_closeFrame {s : State} (h : s.lock = true) : s.LocksInOrder s.closeFrame :=
  ⟨_, s.events_closeFrame, ⟨h, rfl, trivial⟩, s.closeFrame_lock.symm⟩

/-! ### Every command -/

/-- A send that passes its checks takes the lock, sends, and gives the lock back (42_critical_section_delay.md R168). -/
theorem effectOf_send_lock {s t : State} (hc : checkOf .send s = none) (h : effectOf .send s = .next t) :
    s.LocksInOrder t ∧ t.lock = s.lock := by
  have free : s.lock = false := State.lock_of_sendCheck hc
  obtain ⟨u, hu, sent, eff⟩ := effectOf_send s
  cases eff.symm.trans h
  have held : u.lock = true := sent.lock.trans s.openFrame_spec.1
  have closed := ((State.locksInOrder_openFrame free).trans (State.locksInOrder_emitWords hu)).trans
    (State.locksInOrder_closeFrame held)
  exact ⟨closed.trans (u := u.closeFrame.returnNothing) (.of_no_event rfl rfl), u.closeFrame_lock.trans free.symm⟩

/-- The effect of every command: its check has made sure that the lock is as its events need it (R164). -/
theorem effectOf_locksInOrder {i : Instr} {s t : State} (hc : checkOf i s = none) (h : effectOf i s = .next t) :
    s.LocksInOrder t := by
  cases i with
  | waitCycles n => cases h; exact .of_event (s.events_wait _ s.commandRoom) rfl (s.wait_lock _ s.commandRoom)
  | assert m => cases h; exact .of_event (s.events_pinSet m) rfl rfl
  | deassert m => cases h; exact .of_event (s.events_pinClr m) rfl rfl
  | lock => cases h; exact ⟨_, s.events_acquire, ⟨checkOf_lock.mp hc, trivial⟩, rfl⟩
  | unlock => cases h; exact ⟨_, s.events_release, ⟨checkOf_unlock.mp hc, trivial⟩, rfl⟩
  | delayMs d =>
    cases h
    exact ⟨_, s.events_delay d.toNat, ⟨failIf_eq_none.mp hc, trivial⟩, (s.delay_lock d.toNat).symm⟩
  | send => exact (effectOf_send_lock hc h).1
  | pixRd k =>
    rw [effectOf_pixRd (lt_of_indexCheck hc)] at h
    cases h; exact .of_no_event rfl rfl
  | pixWr k colour =>
    rw [effectOf_pixWr (lt_of_indexCheck hc)] at h
    cases h; exact .of_no_event rfl rfl
  | wordRd k =>
    rw [effectOf_wordRd (lt_of_indexCheck hc)] at h
    cases h; exact .of_no_event rfl rfl
  | _ => cases h; exact .of_no_event rfl rfl

/-- Settles O40: dropped or aborted a command leaves the lock alone, and its effect moves it in order. -/
theorem commandsKeepLockDiscipline : Obligations.CommandsKeepLockDiscipline := by
  intro i s t ht
  rcases exec_cases i s with ⟨-, e⟩ | ⟨-, c, e⟩ | ⟨-, -, hc, e⟩ <;> rw [e] at ht
  · cases ht; exact ⟨State.LocksInOrder.of_no_event rfl rfl, fun _ => rfl⟩
  · cases ht; exact ⟨State.LocksInOrder.of_event (s.events_abort c) rfl rfl, fun _ => rfl⟩
  · exact ⟨effectOf_locksInOrder hc ht, fun hi => by subst hi; exact (effectOf_send_lock hc ht).2⟩

/-! ### A delay run whole -/

/-- What a delay changes: its event, the clock, and what the environment may (42_critical_section_delay.md R166). -/
theorem State.delay_frame (s : State) (d : Nat) :
    s.delay d = { s with
      cycle := (s.delay d).cycle, time := (s.delay d).time, draws := (s.delay d).draws, drem := none
      trace := s.trace ++ [⟨s.time, .delayMs d⟩]
      cfg := (s.delay d).cfg, out := (s.delay d).out
      pend := (s.delay d).pend, inputs := (s.delay d).inputs } := by
  have acted := (s.beginDelay d).environment_only
  unfold State.OnlyEnvironment at acted
  unfold State.delay
  rw [acted]
  rfl

/-- Settles O38: a delay run whole counts on from its entry to an instant when its milliseconds have passed. -/
theorem delayLastsAtLeastItsTime : Obligations.DelayLastsAtLeastItsTime := by
  intro s d hi hr hl
  obtain ⟨⟨since, counts⟩, later, acted⟩ := s.delay_spec d.toNat hi.cw_le hi.widths.cycle
  have enough := s.conf.msCycles_spec d.toNat
  refine ⟨_, exec_of_ready hr (checkOf_delayMs hl d), since, ?_, counts, acted, ?_⟩
  · rw [State.returnNothing_time]
    omega
  · have frame := s.delay_frame d.toNat
    rw [← hr.drem] at frame
    rw [frame]
    rfl

end Sys2Proof.Machine
end

section
/-! PROOFS. The pixel buffer statements (43_pixel_buffer.md): the bytes a pixel's write leaves and the word its read
returns, the commands inside their bounds, and `BUFRESET`. -/

namespace Sys2Proof.Machine

/-! ### A pixel as it lies in the buffer -/

/-- The pixel `i` of a buffer as `PIXRD` returns it (43_pixel_buffer.md R182). -/
def Memory.pixel (m : Memory) (i : Nat) : Word :=
  colourResult (Memory.read m (3 * i)) (Memory.read m (3 * i + 1)) (Memory.read m (3 * i + 2))

/-- The buffer after `PIXWR i, c` (43_pixel_buffer.md R185). -/
def Memory.writePixel (m : Memory) (i : Nat) (c : Colour) : Memory :=
  Memory.writeBytes m (3 * i) (wireBytes c)

/-- The three bytes written, in wire order. -/
theorem Memory.read_writePixel_same {m : Memory} (h : Memory.wf m) (i : Nat) (c : Colour) :
    Memory.read (m.writePixel i c) (3 * i) = green c ∧
    Memory.read (m.writePixel i c) (3 * i + 1) = red c ∧
    Memory.read (m.writePixel i c) (3 * i + 2) = blue c := by
  simp [Memory.writePixel, Memory.read_writeBytes h, wireBytes]

/-- Every other byte is as it was. -/
theorem Memory.read_writePixel_other {m : Memory} (h : Memory.wf m) {i addr : Nat} (c : Colour)
    (other : addr < 3 * i ∨ 3 * i + 3 ≤ addr) :
    Memory.read (m.writePixel i c) addr = Memory.read m addr := by
  rw [Memory.writePixel, Memory.read_writeBytes h]
  rcases other with below | above
  · rw [if_neg (by omega)]
  · have past : (wireBytes c)[addr - 3 * i]? = none :=
      List.getElem?_eq_none (by simp only [wireBytes, List.length_cons, List.length_nil]; omega)
    rw [if_pos (by omega), past, Option.getD_none]

/-- The channels of a colour make the colour again (10_state.md R43). -/
theorem colourResult_channels (c : Colour) : colourResult (green c) (red c) (blue c) = c.setWidth 32 := by
  have high : green c ++ red c = c.extractLsb' 8 16 :=
    BitVec.extractLsb'_append_extractLsb'_eq_extractLsb' rfl
  have whole : c.extractLsb' 8 16 ++ blue c = c.extractLsb' 0 24 :=
    BitVec.extractLsb'_append_extractLsb'_eq_extractLsb' rfl
  rw [colourResult, high, whole, BitVec.extractLsb'_eq_self]

/-- A pixel written reads back. -/
theorem Memory.pixel_writePixel_same {m : Memory} (h : Memory.wf m) (i : Nat) (c : Colour) :
    (m.writePixel i c).pixel i = c.setWidth 32 := by
  obtain ⟨first, second, third⟩ := Memory.read_writePixel_same h i c
  rw [Memory.pixel, first, second, third, colourResult_channels]

/-- The ranges `[3i, 3i+3)` and `[3j, 3j+3)` of two pixels are disjoint (43_pixel_buffer.md R187). -/
theorem Memory.pixel_writePixel_other {m : Memory} (h : Memory.wf m) {i j : Nat} (c : Colour) (hij : j ≠ i) :
    (m.writePixel i c).pixel j = m.pixel j := by
  simp (disch := omega) only [Memory.pixel, Memory.read_writePixel_other h c]

/-! ### The commands inside their bounds -/

/-- An index inside its bound passes the check (60_exceptions.md R262). -/
theorem indexCheck_of_lt {n k : Nat} {c : Cause} (h : k < n) : failIf (decide (n ≤ k)) c = none :=
  failIf_eq_none.mpr (decide_eq_false (Nat.not_le.mpr h))

/-- `PIXRD` at rest inside its bound. -/
theorem exec_pixRd_of_ready {s : State} {k : Word} (hr : s.Ready) (hk : k.toNat < s.conf.pixels) :
    exec (.pixRd k) s = .next (s.returnValue (s.buf.pixel k.toNat)) :=
  (exec_of_ready (i := .pixRd k) hr (indexCheck_of_lt hk)).trans (effectOf_pixRd hk)

/-- `PIXWR` at rest inside its bound. -/
theorem exec_pixWr_of_ready {s : State} {k : Word} (hr : s.Ready) (hk : k.toNat < s.conf.pixels) (c : Colour) :
    exec (.pixWr k c) s = .next { s with buf := s.buf.writePixel k.toNat c }.returnNothing :=
  (exec_of_ready (i := .pixWr k c) hr (indexCheck_of_lt hk)).trans (effectOf_pixWr hk c)

/-- `WORDRD` at rest inside its bound. -/
theorem exec_wordRd_of_ready {s : State} {k : Word} (hr : s.Ready) (hk : k.toNat < s.conf.words) :
    exec (.wordRd k) s = .next (s.returnValue (assembleWord s.conf.lane
      (Memory.read s.buf (4 * k.toNat)) (Memory.read s.buf (4 * k.toNat + 1))
      (Memory.read s.buf (4 * k.toNat + 2)) (Memory.read s.buf (4 * k.toNat + 3)))) :=
  (exec_of_ready (i := .wordRd k) hr (indexCheck_of_lt hk)).trans (effectOf_wordRd hk)

/-- A command that changes the buffer and completes leaves the engine ready for the next. -/
theorem State.Ready.setBuf_returnNothing {s : State} (h : s.Ready) (m : Memory) :
    State.Ready (State.returnNothing { s with buf := m }) :=
  ⟨h.toAtRest.congr rfl rfl rfl rfl rfl rfl, h.fault⟩

/-! ### The statements -/

/-- Settles O44: the value returned is the pixel as it lies in the buffer. -/
theorem pixRdReturnsThePixel : Obligations.PixRdReturnsThePixel :=
  fun s _ hr hk => ⟨_, exec_pixRd_of_ready hr hk, s.returns_returnValue _⟩

/-- Settles O45: a canonical buffer reads as written in the pixel and as before elsewhere. -/
theorem pixWrWritesExactlyThePixel : Obligations.PixWrWritesExactlyThePixel := by
  intro s k c hi hr hk
  obtain ⟨first, second, third⟩ := Memory.read_writePixel_same hi.buffer.wf k.toNat c
  exact ⟨_, exec_pixWr_of_ready hr hk c, first, second, third,
    fun _ other => Memory.read_writePixel_other hi.buffer.wf c other, rfl⟩

/-- Settles O46: both reads return the pixel as it lies in the buffer, after the write and before it. -/
theorem pixelRoundTripAndIndependence : Obligations.PixelRoundTripAndIndependence := by
  intro s i j c hi hr hik hjk
  refine ⟨_, _, _, exec_pixWr_of_ready hr hik c, exec_pixRd_of_ready (hr.setBuf_returnNothing _) hjk,
    exec_pixRd_of_ready hr hjk, ?_⟩
  show (s.buf.writePixel i.toNat c).pixel j.toNat = if j = i then c.setWidth 32 else s.buf.pixel j.toNat
  split
  · next same => rw [same, Memory.pixel_writePixel_same hi.buffer.wf]
  · next differ => exact Memory.pixel_writePixel_other hi.buffer.wf c (differ ∘ BitVec.eq_of_toNat_eq)

/-- Settles O47: `BUFRESET` has no check of its own and clears below the length of the buffer. -/
theorem bufResetZeroesTheBuffer : Obligations.BufResetZeroesTheBuffer := by
  intro s hr
  refine ⟨_, exec_of_ready hr rfl, fun addr inside => ?_, fun addr outside => ?_, rfl⟩
  · exact (Memory.read_clearBelow s.buf s.conf.bufBytes addr).trans (if_pos inside)
  · exact (Memory.read_clearBelow s.buf s.conf.bufBytes addr).trans (if_neg (Nat.not_lt.mpr outside))

/-- Settles O48: the value returned is the word assembled by the lane. -/
theorem wordRdReturnsTheWord : Obligations.WordRdReturnsTheWord :=
  fun s _ hr hk => ⟨_, exec_wordRd_of_ready hr hk, s.returns_returnValue _⟩

end Sys2Proof.Machine
end

section
/-! PROOFS. The serializer statements (44_serializer.md): the frame a send run whole emits, and the same send in rows.
The rows are followed bit by bit: each row of R210 that starts a bit cell leads to the end of that cell, and how many
bits of the frame have been sent tells where the engine stands. -/

namespace Sys2Proof.Machine

/-! ### The frame, bit by bit -/

/-- What a send has emitted when the first `n` bits of its frame are sent (R209). -/
def State.frameUpTo (s : State) (n : Nat) : List Event :=
  [.low s.conf.pinMask, .lock] ++ (List.range n).flatMap (fun q => cell s.conf (s.frameBit q))

theorem State.frame_eq (s : State) :
    s.frame = s.frameUpTo (32 * s.conf.words) ++ [.low s.conf.pinMask, .unlock, .delayMs s.conf.resetMs] := rfl

theorem State.frameUpTo_succ (s : State) (n : Nat) :
    s.frameUpTo (n + 1) = s.frameUpTo n ++ cell s.conf (s.frameBit n) := by
  rw [State.frameUpTo, State.frameUpTo, List.range_succ, List.flatMap_append, List.append_assoc, List.flatMap_singleton]

/-- The cells of a word are those of its bits 31 to 0, in that order (R206, R208). -/
theorem wordCells_eq (conf : Config) (w : Word) :
    wordCells conf w = (List.range 32).flatMap (fun r => cell conf (w.getLsbD (31 - r))) := by
  have order : List.range 32 =
      [0, 1, 2, 3].flatMap (fun b => [7, 6, 5, 4, 3, 2, 1, 0].map (fun k => 8 * b + (7 - k))) := by decide
  rw [order, List.flatMap_assoc]
  refine List.flatMap_congr fun b hb => ?_
  rw [List.flatMap_map]
  refine List.flatMap_congr fun k hk => ?_
  simp only [List.mem_cons, List.not_mem_nil, or_false] at hb hk
  rw [wireBit, show 24 - 8 * b + k = 31 - (8 * b + (7 - k)) by omega]

/-- Bit `r` of word `w` of the frame. -/
theorem State.frameBit_word (s : State) (w : Nat) {r : Nat} (hr : r < 32) :
    s.frameBit (32 * w + r) = ((s.wordRead w).getD 0).getLsbD (31 - r) := by
  rw [State.frameBit, show (32 * w + r) / 32 = w by omega, show (32 * w + r) % 32 = r by omega]

/-- The cells of the first `n` words are those of the first `32 * n` bits of the frame. -/
theorem State.flatMap_wordCells (s : State) (n : Nat) :
    (List.range n).flatMap (fun w => wordCells s.conf ((s.wordRead w).getD 0)) =
      (List.range (32 * n)).flatMap (fun q => cell s.conf (s.frameBit q)) := by
  induction n with
  | zero => rfl
  | succ n ih =>
    have word : wordCells s.conf ((s.wordRead n).getD 0) =
        (List.range 32).flatMap (fun r => cell s.conf (s.frameBit (32 * n + r))) := by
      rw [wordCells_eq]
      exact List.flatMap_congr fun r hr => by rw [s.frameBit_word n (List.mem_range.mp hr)]
    rw [List.range_succ, List.flatMap_append, ih, List.flatMap_singleton, word, Nat.mul_succ, List.range_add,
      List.flatMap_append, List.flatMap_map]

/-- Settles O50: opening the frame, sending the words and closing the frame each emit their part of it. -/
theorem sendEmitsTheFrame : Obligations.SendEmitsTheFrame := by
  intro s _ hr hl hcfg
  obtain ⟨u, hu, -, eff⟩ := effectOf_send s
  obtain ⟨lock, conf, buf, -, -, opened⟩ := s.openFrame_spec
  obtain ⟨v, hv, sent, words, -⟩ := State.emitWords_spec s.conf.words 0 lock (by rw [conf]; omega)
  cases hu.symm.trans hv
  refine ⟨_, (exec_send hr hl hcfg).trans eff, ?_⟩
  simp only [Nat.zero_add, conf, State.wordRead_congr conf buf, State.flatMap_wordCells] at words
  rw [State.events_returnNothing, State.events_closeFrame, words, opened, sent.conf, conf, State.frame_eq,
    State.frameUpTo]
  simp only [List.append_assoc]

/-! ### What the rows may differ in -/

/-- `t` is `s` but for instants, the entry sample, and free values and their index (R210). -/
def State.SameButTimes (s t : State) : Prop :=
  t = { s with
    cycle := t.cycle, time := t.time, trace := t.trace, wstart := t.wstart, waitBegan := t.waitBegan
    res := t.res, draws := t.draws }

theorem State.SameButTimes.trans {s t u : State} (h : s.SameButTimes t) (k : t.SameButTimes u) : s.SameButTimes u := by
  unfold State.SameButTimes at *
  rw [k, h]

theorem State.SameButTimes.symm {s t : State} (h : s.SameButTimes t) : t.SameButTimes s := by
  unfold State.SameButTimes at *
  rw [h]

theorem State.sameButTimes_drift (s : State) (limit : Option Nat) : s.SameButTimes (s.drift limit) := rfl

/-- What every named operation keeps, rows keep. -/
theorem Kept.leads {P : State → Prop} (K : Kept P) {s t : State} (h : P s) (l : s.Leads t) : P t := by
  obtain ⟨k, hk⟩ := l
  induction k generalizing s with
  | zero => cases hk; exact h
  | succ k ih =>
    obtain ⟨u, row, rest⟩ := andThen_eq_next hk
    exact ih (K.engineRow h row) rest

/-! ### One bit cell in rows -/

/-- A wait of a send ends in rows, and only the clock and its own registers have changed (R205). -/
theorem State.leads_of_sendWait {s : State} {n : Nat} (hi : s.Inv) (hw : s.wact = false) (hl : s.lock = true)
    (hp : s.phase ≠ .idle) (hn : s.lengthOk n) :
    ∃ t : State, (s.beginWait n).Leads t ∧ t.events = s.events ++ [.wait n] ∧
      State.SameButTimes { s with wn := s.conf.cutCycles n } t := by
  have lt := hn.lt hi.valid
  have fits : (s.conf.cutCycles n).toNat = n := by rw [Config.toNat_cutCycles hi.cw_le, Nat.mod_eq_of_lt lt]
  obtain ⟨t, leads, -, -, -, frame⟩ := State.leads_of_lockedWait (n := s.conf.cutCycles n) hi hw hl (by rwa [fits])
  rw [fits] at leads frame
  have busy : t.phase ≠ .idle := by rw [frame]; exact hp
  rw [State.afterWait_of_busy busy] at leads
  refine ⟨t, leads, ?_, ?_⟩
  · rw [← s.events_beginWait n]
    exact State.events_congr (by rw [frame]; rfl)
  · rw [State.SameButTimes, frame]

/-- The high half of a cell, from its row to the end of its wait. -/
theorem State.leads_of_startHigh {s : State} (hi : s.Inv) (hr : s.resting) (hl : s.lock = true) :
    ∃ t : State, s.startHigh.Leads t ∧
      t.events = s.events ++ [.high s.conf.pinMask, .wait (s.conf.highTime s.currentBit)] ∧
      State.SameButTimes { s with
        out := s.out ||| s.conf.pinMask, phase := .bitHigh
        wn := s.conf.cutCycles (s.conf.highTime s.currentBit) } t := by
  have inv := Kept.inv.pinSet { s with phase := .bitHigh } s.conf.pinMask (.inr rfl) hr (Kept.inv.setPhase s _ hi)
  obtain ⟨t, leads, events, only⟩ := State.leads_of_sendWait inv hr.1 hl nofun (.inr ⟨s.currentBit, .inl rfl⟩)
  refine ⟨t, leads, ?_, only⟩
  rw [events, State.events_pinSet, List.append_assoc]
  rfl

/-- The low half of a cell, from its row to the end of its wait. -/
theorem State.leads_of_startLow {s : State} (hi : s.Inv) (hr : s.resting) (hl : s.lock = true) :
    ∃ t : State, s.startLow.Leads t ∧
      t.events = s.events ++ [.low s.conf.pinMask, .wait (s.conf.lowTime s.currentBit)] ∧
      State.SameButTimes { s with
        out := s.out &&& ~~~s.conf.pinMask, phase := .bitLow
        wn := s.conf.cutCycles (s.conf.lowTime s.currentBit) } t := by
  have inv := Kept.inv.pinClr { s with phase := .bitLow } s.conf.pinMask (.inr rfl) hr (Kept.inv.setPhase s _ hi)
  obtain ⟨t, leads, events, only⟩ := State.leads_of_sendWait inv hr.1 hl nofun (.inr ⟨s.currentBit, .inr rfl⟩)
  refine ⟨t, leads, ?_, only⟩
  rw [events, State.events_pinClr, List.append_assoc]
  rfl

/-- A whole cell, from the row that starts it to the end of its low time. -/
theorem State.leads_of_cell {s : State} (hi : s.Inv) (hr : s.resting) (hl : s.lock = true) :
    ∃ t : State, s.startHigh.Leads t ∧ t.events = s.events ++ cell s.conf s.currentBit ∧
      State.SameButTimes { s with
        out := s.out &&& ~~~s.conf.pinMask, phase := .bitLow
        wn := s.conf.cutCycles (s.conf.lowTime s.currentBit) } t := by
  obtain ⟨t, high, events, only⟩ := State.leads_of_startHigh hi hr hl
  have inv : t.Inv := Kept.inv.leads (Kept.inv.startHigh s hr hi) high
  have resting : t.resting := by rw [only]; exact hr
  have row : t.engineRow = .next (t.drift none).startLow := by
    rw [State.engineRow_of_phase resting.1 resting.2, State.phaseRow,
      show (t.drift none).phase = .bitHigh by rw [only]; rfl]
  obtain ⟨u, low, events', only'⟩ := State.leads_of_startLow (Kept.inv.drift t none inv) resting
    (show t.lock = true by rw [only]; exact hl)
  have conf : (t.drift none).conf = s.conf := by rw [only]; rfl
  have bit : (t.drift none).currentBit = s.currentBit := by rw [only]; rfl
  have out : (t.drift none).out &&& ~~~s.conf.pinMask = s.out &&& ~~~s.conf.pinMask := by
    rw [only]; exact or_and_not _ _
  rw [conf, bit] at events' only'
  rw [out] at only'
  refine ⟨u, high.trans (.trans (.row row) low), ?_, ?_⟩
  · rw [events', State.events_drift, events, List.append_assoc]
    rfl
  · unfold State.SameButTimes at only only' ⊢
    rw [only', only]
    rfl

/-! ### Where the rows of a send stand -/

/-- `t` is a send of `s` under way in rows: the lock held, the pins of the mask low, the first `n` bits sent. -/
structure State.Sending (s : State) (n : Nat) (t : State) : Prop where
  inv : t.Inv
  events : t.events = s.events ++ s.frameUpTo n
  only : State.SameButTimes { s with
    out := s.out &&& ~~~s.conf.pinMask, lock := true, phase := t.phase
    widx := t.widx, bidx := t.bidx, kidx := t.kidx, shift := t.shift, wn := t.wn } t

/-- The indices of `t` and its `SHIFT` are those of bit `q` of the frame of `s` (R209, R210). -/
structure State.AtBit (s : State) (q : Nat) (t : State) : Prop where
  widx : t.widx.toNat = q / 32
  bit : 24 - 8 * t.bidx.toNat + t.kidx.toNat = 31 - q % 32
  shift : s.wordRead (q / 32) = some t.shift

/-- The cell of bit `q` has ended. -/
structure State.SentBit (s : State) (q : Nat) (t : State) : Prop extends s.Sending (q + 1) t, s.AtBit q t where
  phase : t.phase = .bitLow
  wn : t.wn = s.conf.cutCycles (s.conf.lowTime (s.frameBit q))

theorem State.AtBit.currentBit {s t : State} {q : Nat} (h : s.AtBit q t) : t.currentBit = s.frameBit q := by
  rw [State.currentBit, wireBit, h.bit, State.frameBit, h.shift]
  rfl

section
variable {s t : State} {n q : Nat}

theorem State.Sending.conf (h : s.Sending n t) : t.conf = s.conf := by rw [h.only]
theorem State.Sending.lock (h : s.Sending n t) : t.lock = true := by rw [h.only]
theorem State.Sending.out (h : s.Sending n t) : t.out = s.out &&& ~~~s.conf.pinMask := by rw [h.only]
theorem State.Sending.buf (h : s.Sending n t) : t.buf = s.buf := by rw [h.only]
theorem State.Sending.resting (h : s.Sending n t) (hr : s.resting) : t.resting := by rw [h.only]; exact hr

theorem State.Sending.drift (h : s.Sending n t) (limit : Option Nat) : s.Sending n (t.drift limit) :=
  ⟨Kept.inv.drift t limit h.inv, h.events, h.only.trans (t.sameButTimes_drift limit)⟩

/-- The rows move on to another bit of the word. -/
theorem State.Sending.setIndices (h : s.Sending n t) (b : BitVec 2) (k : BitVec 3) :
    s.Sending n { t with bidx := b, kidx := k } :=
  ⟨Kept.inv.setSeq t t.phase t.widx b k h.inv, h.events, by rw [State.SameButTimes, h.only]⟩

/-- The rows read another word. -/
theorem State.Sending.loadShift (h : s.Sending n t) {w : Nat} {v : Word} (hv : t.wordRead w = some v) :
    s.Sending n (t.loadShift w v) :=
  .drift (t := { t with widx := BitVec.ofNat 32 w, shift := v })
    ⟨Kept.inv.loadWord t w v hv h.inv, h.events, by rw [State.SameButTimes, h.only]⟩ none

/-- After a cell: the row that leaves it (R210). -/
theorem State.SentBit.engineRow (h : s.SentBit q t) (hr : s.resting) : t.engineRow = (t.drift none).afterLow := by
  obtain ⟨wait, delay⟩ := h.resting hr
  rw [State.engineRow_of_phase wait delay, State.phaseRow, State.drift_phase, h.phase]

/-- The row that starts the cell of bit `q` leads to the end of that cell. -/
theorem State.Sending.leads_of_cell (h : s.Sending q t) (hr : s.resting) (place : s.AtBit q t) :
    ∃ u, t.startHigh.Leads u ∧ s.SentBit q u := by
  have resting := h.resting hr
  obtain ⟨u, leads, events, only⟩ := State.leads_of_cell h.inv resting h.lock
  have inv : u.Inv := Kept.inv.leads (Kept.inv.startHigh t resting h.inv) leads
  rw [place.currentBit, h.conf] at events only
  refine ⟨u, leads, ⟨⟨inv, ?_, ?_⟩, ⟨?_, ?_, ?_⟩, ?_, ?_⟩⟩
  · rw [events, h.events, List.append_assoc, State.frameUpTo_succ]
  · rw [h.out, BitVec.and_assoc, BitVec.and_self] at only
    have before := h.only
    unfold State.SameButTimes at before only ⊢
    rw [only, before]
  · rw [only]; exact place.widx
  · rw [only]; exact place.bit
  · rw [only]; exact place.shift
  · rw [only]
  · rw [only]

/-- The row that reads word `w` leads to the end of the cell of its first bit. -/
theorem State.Sending.leads_of_startWord {w : Nat} (h : s.Sending (32 * w) t) (hr : s.resting)
    (hw : w < s.conf.words) : ∃ x u, t.startWord w = .next x ∧ x.Leads u ∧ s.SentBit (32 * w) u := by
  obtain ⟨v, hv⟩ : ∃ v, s.wordRead w = some v := ⟨_, State.wordRead_of_lt hw⟩
  have hv' : t.wordRead w = some v := (State.wordRead_congr h.conf h.buf w).trans hv
  have fits : (BitVec.ofNat 32 w).toNat = w := by
    have bytes := Config.valid_bytes h.inv.valid
    rw [h.conf, Config.bufBytes] at bytes
    exact BitVec.toNat_ofNat w 32 ▸ Nat.mod_eq_of_lt (by omega)
  have word : 32 * w / 32 = w := by omega
  obtain ⟨u, leads, sent⟩ := ((h.loadShift hv').setIndices 0 7).leads_of_cell hr
    ⟨fits.trans word.symm, by simp, word.symm ▸ hv⟩
  exact ⟨_, u, by rw [State.startWord, hv'], leads, sent⟩

/-- The next bit in the same word stands one place lower. -/
theorem State.AtBit.next {b : BitVec 2} {k : BitVec 3} (h : s.AtBit q t)
    (lower : 24 - 8 * b.toNat + k.toNat + 1 = 24 - 8 * t.bidx.toNat + t.kidx.toNat) :
    s.AtBit (q + 1) { t with bidx := b, kidx := k } := by
  obtain ⟨widx, bit, shift⟩ := h
  have word : (q + 1) / 32 = q / 32 := by omega
  have place : 24 - 8 * b.toNat + k.toNat = 31 - (q + 1) % 32 := by omega
  exact ⟨widx.trans word.symm, place, word.symm ▸ shift⟩

/-- The rows go on from the cell of a bit to that of the next, in the same byte, the same word or the next word. -/
theorem State.SentBit.leads_next (h : s.SentBit q t) (hr : s.resting) (hq : q + 1 < 32 * s.conf.words) :
    ∃ u, t.Leads u ∧ s.SentBit (q + 1) u := by
  have row := h.engineRow hr
  have drifted := h.toSending.drift none
  have place : s.AtBit q (t.drift none) := ⟨h.widx, h.bit, h.shift⟩
  by_cases hk : t.kidx = 0
  · by_cases hb : t.bidx = 3
    · obtain ⟨widx, bit, -⟩ := h.toAtBit
      have last : q % 32 = 31 := by
        rw [hk, hb] at bit
        change 0 = 31 - q % 32 at bit
        omega
      have next : q + 1 = 32 * (t.widx.toNat + 1) := by omega
      have inside : t.widx.toNat + 1 < s.conf.words := by omega
      rw [next] at drifted ⊢
      obtain ⟨x, u, start, leads, sent⟩ := drifted.leads_of_startWord hr inside
      rw [State.afterLow_word (s := t.drift none) hk hb (by rw [drifted.conf]; exact inside)] at row
      exact ⟨u, .trans (.row (row.trans start)) leads, sent⟩
    · rw [State.afterLow_byte (s := t.drift none) hk hb] at row
      obtain ⟨u, leads, sent⟩ := (drifted.setIndices (t.bidx + 1) 7).leads_of_cell hr
        (place.next (by rw [State.drift_kidx, hk, State.drift_bidx]; bv_omega))
      exact ⟨u, .trans (.row row) leads, sent⟩
  · rw [State.afterLow_bit (s := t.drift none) hk] at row
    obtain ⟨u, leads, sent⟩ := (drifted.setIndices t.bidx (t.kidx - 1)).leads_of_cell hr
      (place.next (by rw [State.drift_kidx, State.drift_bidx]; bv_omega))
    exact ⟨u, .trans (.row row) leads, sent⟩

/-- The rows go on from the cell of a bit to that of any later one. -/
theorem State.SentBit.leads_later (h : s.SentBit q t) (hr : s.resting) (hq : q + n < 32 * s.conf.words) :
    ∃ u, t.Leads u ∧ s.SentBit (q + n) u := by
  induction n with
  | zero => exact ⟨t, .refl t, h⟩
  | succ n ih =>
    obtain ⟨u, leads, sent⟩ := ih (by omega)
    obtain ⟨v, leads', sent'⟩ := sent.leads_next hr (by omega)
    exact ⟨v, leads.trans leads', sent'⟩

end

/-! ### The registers a send leaves -/

/-- `s` with the registers a send leaves, with nothing for the environment to do, the times and free values apart: the
last word in `SHIFT`, the low time of its last bit in `WN` (R205, R216). -/
def State.afterSend (s : State) : State :=
  let last := s.wordRead (s.conf.words - 1)
  { s with
    out := s.out &&& ~~~s.conf.pinMask
    shift := last.getD s.shift
    wn := last.elim s.wn (fun v => s.conf.cutCycles (s.conf.lowTime (v.getLsbD 0)))
    completions := s.completions ++ [⟨.ok, none⟩], meter := .off }

/-- `t` holds in `SHIFT` and `WN` what the last bit of the frame of `s` left there. -/
def State.HoldsLastBit (s t : State) : Prop := t.shift = s.afterSend.shift ∧ t.wn = s.afterSend.wn

theorem State.holdsLastBit_of_empty {s t : State} (h : s.conf.words = 0) (shift : t.shift = s.shift)
    (wn : t.wn = s.wn) : s.HoldsLastBit t := by
  have unread : s.wordRead (s.conf.words - 1) = none := State.wordRead_of_ge (by omega)
  simp only [State.HoldsLastBit, State.afterSend, unread]
  exact ⟨shift, wn⟩

theorem State.holdsLastBit_of_read {s t : State} (h : s.wordRead (s.conf.words - 1) = some t.shift)
    (wn : t.wn = s.conf.cutCycles (s.conf.lowTime (t.shift.getLsbD 0))) : s.HoldsLastBit t := by
  simp only [State.HoldsLastBit, State.afterSend, h]
  exact ⟨rfl, wn⟩

/-! ### A send in rows -/

/-- After the cell of the last bit: the row that ends the frame. -/
theorem State.SentBit.engineRow_last {s t : State} {q : Nat} (h : s.SentBit q t) (hr : s.resting)
    (hq : q + 1 = 32 * s.conf.words) : t.engineRow = .next (t.drift none).endFrame := by
  obtain ⟨widx, bit, -⟩ := h.toAtBit
  have conf := h.conf
  have bits : t.kidx = 0 := by bv_omega
  have bytes : t.bidx = 3 := by bv_omega
  rw [h.engineRow hr]
  exact State.afterLow_end (s := t.drift none) bits bytes (by rw [State.drift_conf, State.drift_widx, conf]; omega)

/-- The rows of a send lead from the first to the one that ends the frame, all bits sent. -/
theorem State.leads_of_beginSend {s : State} (hi : s.Inv) (hr : s.resting) :
    ∃ t, s.beginSend.Leads t.endFrame ∧ s.Sending (32 * s.conf.words) t ∧ s.HoldsLastBit t := by
  have row : s.beginSend.engineRow = (s.beginSend.drift none).phaseRow := State.engineRow_of_phase hr.1 hr.2
  have inv : (s.beginSend.drift none).acquire.Inv :=
    Kept.inv.acquire _ hr (Kept.inv.drift _ none (Kept.inv.beginSend s hr hi))
  have opened : s.Sending 0 (s.beginSend.drift none).acquire :=
    ⟨inv, by simp [State.frameUpTo, State.beginSend], rfl⟩
  by_cases empty : s.conf.words = 0
  · refine ⟨_, .row (row.trans (if_pos empty)), ?_, State.holdsLastBit_of_empty empty rfl rfl⟩
    rwa [empty]
  · obtain ⟨x, u, start, leads, first⟩ := opened.leads_of_startWord (w := 0) hr (by omega)
    obtain ⟨t, leads', last⟩ := first.leads_later (n := 32 * s.conf.words - 1) hr (by omega)
    have all : 32 * 0 + (32 * s.conf.words - 1) + 1 = 32 * s.conf.words := by omega
    have word : (32 * 0 + (32 * s.conf.words - 1)) / 32 = s.conf.words - 1 := by omega
    have bit : 31 - (32 * 0 + (32 * s.conf.words - 1)) % 32 = 0 := by omega
    have sending := last.toSending.drift none
    rw [all] at sending
    have read : s.wordRead (s.conf.words - 1) = some t.shift := word ▸ last.shift
    have wn := last.wn
    rw [State.frameBit, word, bit, read] at wn
    have before := (State.Leads.row (row.trans ((if_neg empty).trans start))).trans (leads.trans leads')
    exact ⟨t.drift none, before.trans (.row (last.engineRow_last hr all)), sending,
      State.holdsLastBit_of_read read wn⟩

/-- The row that ends the frame leads to the end of the send: the reset/latch delay ends, and the send completes. -/
theorem State.leads_of_endFrame {s : State} (hr : s.resting) :
    ∃ u : State, s.endFrame.Leads u ∧
      u.events = s.events ++ [.low s.conf.pinMask, .unlock, .delayMs s.conf.resetMs] ∧
      State.SameButTimes { s with
        out := s.out &&& ~~~s.conf.pinMask, lock := false, phase := .idle, widx := 0, bidx := 0, kidx := 7
        completions := s.completions ++ [⟨.ok, none⟩], meter := .off } u := by
  obtain ⟨t, leads, -, -, frame⟩ := State.leads_of_beginDelay (s := s.lowAndRelease) hr.1 hr.2 s.conf.resetMs
  have phase : t.phase = .resetDelay := by rw [frame]; rfl
  have resting : t.resting := by rw [frame]; exact hr
  have row : t.engineRow = .next ((t.drift none).setSeq .idle 0 0 7).returnNothing := by
    rw [State.engineRow_of_phase resting.1 resting.2, State.phaseRow, State.drift_phase, phase]
  rw [State.afterDelay_of_busy (by rw [phase]; nofun)] at leads
  refine ⟨_, leads.trans (.row row), ?_, ?_⟩
  · have events : t.events = (s.lowAndRelease.beginDelay s.conf.resetMs).events :=
      State.events_congr (by rw [frame]; rfl)
    rw [State.events_returnNothing, State.events_setSeq, State.events_drift, events]
    simp [State.lowAndRelease]
  · rw [State.SameButTimes, frame]
    rfl

/-- The rows of a send lead from the first to its end: the same frame, and the registers of a send. -/
theorem State.leads_of_send {s : State} (hi : s.Inv) (hr : s.Ready) (hl : s.lock = false) :
    ∃ u, s.beginSend.Leads u ∧ u.events = s.events ++ s.frame ∧ s.afterSend.SameButTimes u := by
  have resting : s.resting := ⟨hr.wact, hr.drem⟩
  obtain ⟨t, words, sending, shift, wn⟩ := State.leads_of_beginSend hi resting
  obtain ⟨u, closing, events, only⟩ := State.leads_of_endFrame (sending.resting resting)
  refine ⟨u, words.trans closing, ?_, ?_⟩
  · rw [events, sending.events, sending.conf, State.frame_eq, List.append_assoc]
  · have before := sending.only
    rw [shift, wn] at before
    unfold State.SameButTimes at before only ⊢
    rw [only, before]
    simp only [State.afterSend, hl, hr.phase, hr.widx, hr.bidx, hr.kidx, BitVec.and_assoc, BitVec.and_self]

/-! ### A send run whole -/

/-- What the words of a send leave in `SHIFT` and `WN`. -/
theorem State.holdsLastBit_of_emitWords {s u : State} (hr : s.resting)
    (hu : State.emitWords s.conf.words 0 s.openFrame = .next u) : s.HoldsLastBit u := by
  obtain ⟨lock, conf, buf, -⟩ := s.openFrame_spec
  obtain ⟨-, last⟩ := State.emitWords_openFrame hr hu
  by_cases empty : s.conf.words = 0
  · rw [empty] at hu
    cases hu
    exact State.holdsLastBit_of_empty empty (by simp [State.openFrame, State.beginSend])
      (by simp [State.openFrame, State.beginSend])
  · obtain ⟨n, more⟩ := Nat.exists_eq_succ_of_ne_zero empty
    have read := last (by omega)
    refine State.holdsLastBit_of_read read ?_
    rw [more] at hu read
    rw [← conf]
    exact State.emitWords_wn lock (by rw [State.wordRead_congr conf buf, Nat.zero_add]; exact read) hu

/-- A send run whole with nothing for the environment to do leaves the registers of a send. -/
theorem exec_send_registers {s t : State} (hi : s.Inv) (hr : s.Ready) (hl : s.lock = false) (hcfg : s.cfg = true)
    (hq : s.quiet = true) (ht : exec .send s = .next t) : s.afterSend.SameButTimes t := by
  obtain ⟨t', run, -, -, -, -, -, -, -, -, -, quiet, frame⟩ := sendLeavesTheEngineAtRest s hi hr hl hcfg
  cases ht.symm.trans run
  obtain ⟨out, cfg, pend, inputs⟩ := quiet hq
  obtain ⟨u, hu, -, eff⟩ := effectOf_send s
  obtain ⟨shift, wn⟩ := State.holdsLastBit_of_emitWords ⟨hr.wact, hr.drem⟩ hu
  have closed : t = u.closeFrame.returnNothing :=
    Host.Outcome.next.inj (ht.symm.trans ((exec_send hr hl hcfg).trans eff))
  replace shift : t.shift = s.afterSend.shift := by rw [closed]; exact (State.delay_shift _ _).trans shift
  replace wn : t.wn = s.afterSend.wn := by rw [closed]; exact (State.delay_wn _ _).trans wn
  have meter : t.meter = .off := by rw [closed]; rfl
  rwa [out, cfg, pend, inputs, shift, wn, meter] at frame

/-- Settles O52: in rows and run whole the send emits the same frame, completes once and leaves the same registers. -/
theorem rowsOfASendAgreeWithTheBigStep : Obligations.RowsOfASendAgreeWithTheBigStep := by
  intro s hi hr hl hcfg
  have check : checkOf .send s = none := by simp [checkOf, State.sendCheck, hl, hcfg]
  obtain ⟨t, run, events⟩ := sendEmitsTheFrame s hi hr hl hcfg
  obtain ⟨t', eff, done⟩ := effectOf_completes check
  cases run.symm.trans ((exec_of_ready hr check).trans eff)
  obtain ⟨u, ⟨k, leads⟩, events', only⟩ := State.leads_of_send hi hr hl
  refine ⟨k, t, s.beginSend, u, run, startRow_of_ready hr check, leads, ?_, events'.trans events.symm, ?_,
    fun hq => ?_⟩
  · rw [only]
    exact hr.inFlight
  · rw [only, done.completions]
    rfl
  · exact (exec_send_registers hi hr hl hcfg hq run).symm.trans only

end Sys2Proof.Machine
end

section
/-! PROOFS. The colour arithmetic statements (45_color_arith.md): where the channels lie in a colour result, what one
channel of `SCALE` and of `OFFSET` is, and the two commands at rest. -/

namespace Sys2Proof.Machine

/-! ### The bytes of a colour result (30_encoding.md R102) -/

section
variable (g r b : Byte)

@[simp] theorem extractLsb'_24_colourResult : (colourResult g r b).extractLsb' 24 8 = 0 := by
  ext k hk
  rw [BitVec.getElem_extractLsb', colourResult, BitVec.getLsbD_setWidth,
    BitVec.getLsbD_of_ge (g ++ r ++ b) (24 + k) (by omega), Bool.and_false]
  exact (BitVec.getElem_zero (i := k) hk).symm

@[simp] theorem extractLsb'_16_colourResult : (colourResult g r b).extractLsb' 16 8 = g := by
  rw [colourResult, BitVec.extractLsb'_setWidth_of_le (by decide), BitVec.extractLsb'_append_eq_of_le (by decide)]
  exact BitVec.extractLsb'_append_eq_left

@[simp] theorem extractLsb'_8_colourResult : (colourResult g r b).extractLsb' 8 8 = r := by
  rw [colourResult, BitVec.extractLsb'_setWidth_of_le (by decide), BitVec.extractLsb'_append_eq_of_le (by decide)]
  exact BitVec.extractLsb'_append_eq_right

@[simp] theorem extractLsb'_0_colourResult : (colourResult g r b).extractLsb' 0 8 = b := by
  rw [colourResult, BitVec.extractLsb'_setWidth_of_le (by decide)]
  exact BitVec.extractLsb'_append_eq_right

end

/-! ### One channel (R240, R241, R243, R245) -/

/-- Below full brightness the quotient is at most the channel, so it is a byte (R241). -/
theorem toNat_scaleChannel (ch : Byte) {f : Nat} (h : f < 255) :
    (scaleChannel ch f).toNat = ch.toNat * f / 255 := by
  have le : ch.toNat * f / 255 ≤ ch.toNat :=
    Nat.div_le_of_le_mul (Nat.mul_comm 255 _ ▸ Nat.mul_le_mul_left _ (Nat.le_of_lt h))
  exact BitVec.toNat_ofNat _ 8 ▸ Nat.mod_eq_of_lt (Nat.lt_of_le_of_lt le ch.isLt)

theorem scaleChannel_zero (ch : Byte) : scaleChannel ch 0 = 0 := by
  simp [scaleChannel]

/-- Truncation takes 1 from every channel but 0, since `ch * 254 = ch * 255 - ch` (R243). -/
theorem toNat_scaleChannel_254 (ch : Byte) : (scaleChannel ch 254).toNat = ch.toNat - 1 := by
  have byte := ch.isLt
  rw [toNat_scaleChannel ch (by decide)]
  omega

/-- The clamp, case by case: below, above and inside `0 .. 255`. -/
theorem toNat_clampChannel (v : Int) : ((clampChannel v).toNat : Int) = max 0 (min 255 v) := by
  unfold clampChannel
  split
  · next below => rw [min_eq_right (by omega), max_eq_left (Int.le_of_lt below)]; rfl
  · split
    · next above => rw [min_eq_left (Int.le_of_lt above)]; rfl
    · rw [BitVec.toNat_ofNat]
      omega

/-- Scaling by 0 gives black (R243). -/
theorem scaleColour_zero (c : Colour) : scaleColour c 0 = 0 := by
  rw [scaleColour, scaleChannel_zero, scaleChannel_zero, scaleChannel_zero]
  rfl

/-! ### The two commands at rest -/

/-- A factor below 255 is the same number read as signed, and passes the check (R242). -/
theorem scaleInRange_of_lt {f : Word} (h : f.toNat < 255) : scaleInRange f = true := by
  have same : signed f = f.toNat := BitVec.toInt_eq_toNat_of_lt (by omega)
  exact decide_eq_true (by omega)

theorem exec_scale_of_ready {s : State} {f : Word} (hr : s.Ready) (hf : f.toNat < 255) (c : Colour) :
    exec (.scale c f) s = .next (s.returnValue (scaleColour c f.toNat)) :=
  exec_of_ready (i := .scale c f) hr (failIf_eq_none.mpr (by rw [scaleInRange_of_lt hf]; rfl))

theorem exec_offset_of_ready {s : State} (hr : s.Ready) (c : Colour) (d : Word) :
    exec (.offset c d) s = .next (s.returnValue (offsetColour c (signed d))) :=
  exec_of_ready (i := .offset c d) hr rfl

/-! ### The statements -/

/-- Settles O55: each byte of the result is the scaled channel, which fits a byte. -/
theorem scaleReturnsTheScaledColour : Obligations.ScaleReturnsTheScaledColour := by
  intro s c f hr hf
  refine ⟨_, _, exec_scale_of_ready hr hf c, s.returns_returnValue _, ?_⟩
  simp only [scaleColour, extractLsb'_16_colourResult, extractLsb'_8_colourResult, extractLsb'_0_colourResult]
  exact ⟨toNat_scaleChannel _ hf, toNat_scaleChannel _ hf, toNat_scaleChannel _ hf,
    extractLsb'_24_colourResult _ _ _⟩

/-- Settles O56: scaling by 0 makes every channel 0, scaling by 254 takes 1 from it by truncated subtraction. -/
theorem scaleByZeroAndBy254 : Obligations.ScaleByZeroAndBy254 := by
  intro s c hr
  refine ⟨⟨_, exec_scale_of_ready hr (by decide) c, scaleColour_zero c⟩, _, exec_scale_of_ready hr (by decide) c, ?_⟩
  simp only [State.returnValue_res, scaleColour, extractLsb'_16_colourResult, extractLsb'_8_colourResult,
    extractLsb'_0_colourResult]
  exact ⟨toNat_scaleChannel_254 _, toNat_scaleChannel_254 _, toNat_scaleChannel_254 _⟩

/-- Settles O57: `OFFSET` has no check of its own, and each byte of the result is the clamped sum. -/
theorem offsetReturnsTheClampedColour : Obligations.OffsetReturnsTheClampedColour := by
  intro s c d hr
  refine ⟨_, _, exec_offset_of_ready hr c d, s.returns_returnValue _, ?_⟩
  simp only [offsetColour, extractLsb'_16_colourResult, extractLsb'_8_colourResult, extractLsb'_0_colourResult]
  exact ⟨toNat_clampChannel _, toNat_clampChannel _, toNat_clampChannel _, extractLsb'_24_colourResult _ _ _⟩

end Sys2Proof.Machine
end

section
/-! PROOFS. The exception statements (60_exceptions.md): a standing fault, what an abort leaves alone, the causes that
`60_exceptions.md` R262 to R264 and R267 name, and the configurations that yield no engine. -/

namespace Sys2Proof

/-! ### The configurations a constructor accepts -/

theorem Config.durationOk_iff {c : Config} {n : Nat} :
    c.durationOk n = true ↔ c.corr ≤ n ∧ n - c.corr < 2 ^ (c.cw - 1) := by
  simp only [Config.durationOk, Bool.and_eq_true, decide_eq_true_eq]

/-- The conditions of R268, turned round, with the one R9 adds. -/
theorem Config.valid_iff {c : Config} : c.valid = true ↔
    (c.corr ≤ c.nom0H ∧ c.nom0H - c.corr < 2 ^ (c.cw - 1)) ∧
    (c.corr ≤ c.nom0L ∧ c.nom0L - c.corr < 2 ^ (c.cw - 1)) ∧
    (c.corr ≤ c.nom1H ∧ c.nom1H - c.corr < 2 ^ (c.cw - 1)) ∧
    (c.corr ≤ c.nom1L ∧ c.nom1L - c.corr < 2 ^ (c.cw - 1)) ∧
    c.pinMask ≠ 0 ∧ c.pinMask.toNat < 2 ^ c.pw ∧ 1 ≤ c.resetMs ∧ c.bufBytes < 2 ^ 32 ∧
    (1 ≤ c.cw ∧ c.cw ≤ 32) ∧ (1 ≤ c.pw ∧ c.pw ≤ 32) ∧ 0 < c.clkHz := by
  simp only [Config.valid, Bool.and_eq_true, decide_eq_true_eq, Config.durationOk_iff, and_assoc]

end Sys2Proof

namespace Sys2Proof.Machine

/-! ### A standing fault -/

/-- A fault is kept by every named operation: an abort, the one that writes `FAULT`, is taken only where none stands
(R272). -/
theorem Kept.fault (c : Cause) : Kept (fun t => t.fault = some c) where
  setSeq _ _ _ _ _ h := h
  pinSet _ _ _ _ h := h
  pinClr _ _ _ _ h := h
  passDraw _ _ h := h
  draw _ h := h
  beginWait _ _ _ _ h := h
  endWait _ _ _ h := h
  beginDelay _ _ _ h := h
  endDelay _ _ _ _ _ h := h
  acquire _ _ h := h
  release _ _ h := h
  loadWord _ _ _ _ h := h
  writePixel _ _ _ _ h := h
  clear _ h := h
  setMeter _ _ _ h := h
  complete _ _ _ h := h
  returnValue _ _ h := h
  drop _ h := h
  abort _ _ free _ h := nomatch free.symm.trans h
  loadOperands s w h := by
    rw [State.loadOperands_of_fault (h ▸ nofun) w]
    exact h
  setInputs _ _ h := h
  setCfg _ _ h := h
  otherPins _ _ _ h := h
  addPend _ _ h := h
  dropPend _ _ h := h

/-- Settles O18: every named operation keeps the fault, so every step does. -/
theorem faultIsSticky : Obligations.FaultIsSticky :=
  fun _ _ c hf hs => (Kept.fault c).step hf hs

theorem State.raise_of_fault {s : State} (h : s.fault ≠ none) (c : Cause) : s.raise c = s.drop := by
  unfold State.raise
  split
  · rfl
  · next free => exact absurd free h

/-- Run whole, a command under a standing fault is dropped (R271). -/
theorem exec_of_fault {s : State} (h : s.fault ≠ none) (i : Instr) : exec i s = .next s.drop := by
  rw [exec_eq_command, State.command_of_fault h]

/-- So it is when it is to be run in rows. -/
theorem startRow_of_fault {s : State} (h : s.fault ≠ none) (i : Instr) : startRow i s = .next s.drop := by
  rw [startRow_eq_command, State.command_of_fault h]

/-- A word issued under a standing fault, legal or not: the word is taken and the clock counts, then the command is
dropped (R271). -/
theorem step_of_fault {s : State} {w : CommandWord} {rest : List Input}
    (hin : s.inputs = .command w :: rest ∨ s.inputs = .start w :: rest) (hf : s.inFlight = false)
    (h : s.fault ≠ none) : ∃ u : State, step s = .next u.drop ∧
      u = { s with inputs := rest, cycle := u.cycle, time := u.time, draws := u.draws, meter := u.meter } := by
  cases hd : decode w with
  | error e =>
    refine ⟨State.drift none { s with inputs := rest }, ?_, rfl⟩
    have waited : (State.drift none { s with inputs := rest }).fault ≠ none := h
    rw [step_of_illegal hin hf hd, State.raise_of_fault waited]
  | ok i =>
    refine ⟨State.commandGap i { s with inputs := rest }, ?_, rfl⟩
    have gap : (State.commandGap i { s with inputs := rest }).fault ≠ none := h
    rcases hin with hin | hin
    · rw [step_of_command hin hf hd, State.loadOperands_of_fault gap, exec_of_fault gap]
    · rw [step_of_start hin hf hd, State.loadOperands_of_fault gap, startRow_of_fault gap]

/-- Settles O17: whatever the command is, and whether its word is legal, it is dropped. -/
theorem standingFaultRefusesEveryCommand : Obligations.StandingFaultRefusesEveryCommand := by
  refine ⟨fun i s h => ⟨exec_of_fault h i, startRow_of_fault h i⟩, fun s w rest hin hf h => ?_⟩
  obtain ⟨u, run, frame⟩ := step_of_fault hin hf h
  exact ⟨u.drop, run, by rw [frame]; rfl⟩

/-! ### An abort -/

/-- Settles O19: the effect of a command whose checks pass raises no fault, so the fault is that of a failed check. -/
theorem abortDoesNothingElse : Obligations.AbortDoesNothingElse := by
  intro i s t free run raised
  rcases exec_cases i s with ⟨stands, -⟩ | ⟨-, c, e⟩ | ⟨-, -, hc, e⟩
  · exact absurd free stands
  · cases e.symm.trans run
    exact ⟨c, s.aborts_abort c⟩
  · exact absurd ((effectOf_fault hc (e.symm.trans run)).trans free) raised

/-- Settles O20: `Busy` is looked at before the command's own check (R273). -/
theorem commandDuringASendIsBusy : Obligations.CommandDuringASendIsBusy := by
  intro i s free busy
  exact ⟨s.abort .busy, by rw [exec_eq_command, State.command_of_busy free busy], s.aborts_abort .busy, rfl⟩

/-! ### The causes, one by one -/

theorem indexCheck_of_le {n k : Nat} {c : Cause} (h : n ≤ k) : failIf (decide (n ≤ k)) c = some c := by
  rw [decide_eq_true h, failIf_true]

/-- Settles O22: in each of the three commands the index check fails. -/
theorem indexOutOfRangeAborts : Obligations.IndexOutOfRangeAborts :=
  fun _ _ hr => ⟨fun h => exec_aborts_of_check hr (indexCheck_of_le h),
    fun h _ => exec_aborts_of_check hr (indexCheck_of_le h), fun h => exec_aborts_of_check hr (indexCheck_of_le h)⟩

/-- A factor outside `[0,255)`, read as signed, fails the check (R263). -/
theorem checkOf_scale_of_outside {f : Word} (h : f.toInt < 0 ∨ 255 ≤ f.toInt) (c : Colour) (s : State) :
    checkOf (.scale c f) s = some .scaleOutOfRange := by
  have outside : scaleInRange f = false := decide_eq_false (by unfold signed; omega)
  simp [checkOf, outside]

/-- Settles O23: the factor's check fails, and an abort leaves `RES` alone. -/
theorem scaleOutOfRangeAborts : Obligations.ScaleOutOfRangeAborts :=
  fun s c _ hr h =>
    ⟨_, exec_of_check hr (checkOf_scale_of_outside h c s), s.aborts_abort .scaleOutOfRange, rfl,
      s.abort_res .scaleOutOfRange⟩

/-- With the section free and the pins not configured a send fails its second check (44_serializer.md R202). -/
theorem State.sendCheck_of_unconfigured {s : State} (hl : s.lock = false) (hc : s.cfg = false) :
    s.sendCheck = some .notConfigured := by
  simp [State.sendCheck, hl, hc]

/-- Settles O25: the second check of a send fails; a pin write looks at its operand alone. -/
theorem unconfiguredSendAborts : Obligations.UnconfiguredSendAborts :=
  fun _ hr hl hc => ⟨exec_aborts_of_check hr (State.sendCheck_of_unconfigured hl hc),
    fun _ hm => ⟨⟨_, exec_assert_of_ready hr hm, hr.fault⟩, ⟨_, exec_deassert_of_ready hr hm, hr.fault⟩⟩⟩

/-! ### No engine -/

/-- Settles O2: each listed condition contradicts one that a valid configuration meets. -/
theorem invalidConfigurationYieldsNoEngine : Obligations.InvalidConfigurationYieldsNoEngine := by
  intro c invalid
  refine if_neg fun valid => ?_
  obtain ⟨time0H, time0L, time1H, time1L, somePin, maskFits, reset, bytes, cw, pw, -⟩ := Config.valid_iff.mp valid
  simp only [somePin, false_or] at invalid
  unfold Config.bufBytes Config.words at bytes
  omega

end Sys2Proof.Machine
end

section
/-! PROOFS. The reset and hazard statement (70_reset_and_hazards.md): with nothing to run, time passes and no more. -/

namespace Sys2Proof.Machine

/-- With no input left and nothing in flight the clock runs for a free time (70_reset_and_hazards.md R301). -/
theorem step_of_idle {s : State} (hin : s.inputs = []) (hf : s.inFlight = false) :
    step s = .next (s.drift none) := by
  simp [step, hin, hf]

theorem State.time_le_drift (s : State) (limit : Option Nat) : s.time ≤ (s.drift limit).time := by
  rw [State.drift_time]
  exact Nat.le_add_right _ _

/-- Settles O15: the step is a drift, which moves the counter, the time and the draws alone. -/
theorem idleEngineOnlyCounts : Obligations.IdleEngineOnlyCounts := by
  intro s hin hf
  exact ⟨s.drift none, step_of_idle hin hf, rfl, s.time_le_drift none⟩

end Sys2Proof.Machine
end
